-- ==== Sys2Proof/Word.lean ====
section
/-! DEFINITION. The words of the machine: bytes, the values of the register files, and memory addresses. -/

namespace Sys2Proof

/-- One byte of memory or of an instruction. -/
abbrev Byte := BitVec 8

/-- The value of a general register, an MMX register, an opmask register, or a linear address. -/
abbrev Qword := BitVec 64

/-- The value of one whole vector register: MAXVL = 512 bits (00_scope.md R8). -/
abbrev Vec := BitVec 512

/-- Bit `i` of a status or control word. -/
def bit {w : Nat} (v : BitVec w) (i : Nat) : Bool := v.getLsbD i

end Sys2Proof
end

