-- ==== Sys2Proof/Config.lean ====
section
/-! DEFINITION. What an implementation fixes, and the free values of the spec (00_scope.md R10).

The register counts and MAXVL are fixed by the spec itself and stand in the types; the parameters that the spec leaves
OPEN and that no step changes are data of `State` (`Params`), so that every statement holds for every value of them.
Here stand the two values that the spec calls "any value": opaque constants with no body. -/

namespace Sys2Proof

/-- The x87 state an MMX form changes, beside the MMX registers themselves (10_state.md R42, R43).
Bits 63:0 of the eight data registers are the MMX registers and are held there alone. -/
structure X87 where
  /-- The control word. -/
  control : BitVec 16
  /-- The status word; TOP is its bits 13:11. -/
  status : BitVec 16
  /-- The tag word, two bits a register. -/
  tag : BitVec 16
  /-- Bits 79:64 of the eight data registers. -/
  high : Vector (BitVec 16) 8
  /-- X87Pending (60_exceptions.md R224): an unmasked x87 exception is pending. -/
  pending : Bool
  deriving DecidableEq, Repr, Inhabited

/-- The parameter X87Effect of 10_state.md R42: what an MMX form with destination `dst` does to the x87 state. The spec
leaves it uninterpreted ("a draw: any value"); 93_implementation_defined.md U2 (DESIGN CHOICE, log 9). The one
constraint, that it preserves X87Pending (60_exceptions.md R224), is put on where it is used. -/
opaque Config.x87Effect : X87 → Fin 8 → X87

/-- Which of the refused bytes of an operand a #PF reports: "any value among the faulting bytes"
(93_implementation_defined.md U5, 60_exceptions.md R228; log 10). Taken modulo the number of refused bytes. -/
opaque Config.pageFaultByte : List Qword → Nat

end Sys2Proof
end

