-- ==== Sys2Proof/Syntax.lean ====
section
/-! DEFINITION. The instructions at operand level (00_scope.md R7, level A): one constructor per row of
spec/opcode_table.json, in the table's order, and the operands they take. A memory operand is held as the address
expression its bytes spell (30_encoding.md R95, R96, R97); its linear address depends on the state. -/

namespace Sys2Proof

/-- Operating modes (00_scope.md R9). -/
inductive Mode
  | mode64 | compat32 | prot32 | mode16 | real | v86
  deriving DecidableEq, Repr

/-- Element widths: word, doubleword, quadword (00_scope.md R18). -/
inductive Elem
  | w | d | q
  deriving DecidableEq, Repr

/-- The element width in bits. -/
def Elem.bits : Elem → Nat
  | .w => 16
  | .d => 32
  | .q => 64

/-- Where the count comes from: a register or memory operand, or the 8-bit immediate (00_scope.md R2). -/
inductive CountKind
  | var | imm
  deriving DecidableEq, Repr

/-- Vector lengths (00_scope.md R18, VL). The VEX forms have the first two. -/
inductive VLen
  | v128 | v256 | v512
  deriving DecidableEq, Repr

/-- The vector length in bits. -/
def VLen.bits : VLen → Nat
  | .v128 => 128
  | .v256 => 256
  | .v512 => 512

/-- The 42 forms by encoding class, vector length, element width and count kind (00_scope.md R2, 30_encoding.md R107). -/
inductive Form
  | mmx (e : Elem) (c : CountKind)
  | sse (e : Elem) (c : CountKind)
  | vex (l : VLen) (e : Elem) (c : CountKind)
  | evex (l : VLen) (e : Elem) (c : CountKind)
  deriving DecidableEq, Repr

/-- A legacy form: MMX or SSE128 (00_scope.md R18). -/
def Form.isLegacy : Form → Bool
  | .mmx _ _ | .sse _ _ => true
  | .vex _ _ _ | .evex _ _ _ => false

/-- MMX register numbers: 3 bits (10_state.md R26). -/
abbrev MmReg := Fin 8

/-- Vector register numbers: 5 bits at most (10_state.md R23). -/
abbrev VReg := Fin 32

/-- General register numbers (10_state.md R33). -/
abbrev GReg := Fin 16

/-- Segment registers (10_state.md R40). -/
inductive SegReg
  | es | cs | ss | ds | fs | gs
  deriving DecidableEq, Repr

/-- The base of a 32-bit or 64-bit effective address (30_encoding.md R95); `rip` is next_pc. -/
inductive Base
  | none
  | rip
  | gpr (r : GReg)
  deriving DecidableEq, Repr

/-- The register part of a 16-bit effective address (30_encoding.md R96). -/
inductive Base16
  | bxsi | bxdi | bpsi | bpdi | si | di | bp | bx | none
  deriving DecidableEq, Repr

/-- An effective address: 16-bit addressing (30_encoding.md R96), or 32-bit (`is64 = false`) and 64-bit addressing
(R95). `disp` is the displacement after sign extension and, in EVEX forms, after scaling by N (R87, R98); it always
fits in 32 bits, and is sign-extended to the address size when it is used. -/
inductive EffAddr
  | a16 (base : Base16) (disp : BitVec 16)
  | wide (is64 : Bool) (base : Base) (index : Option GReg) (scale : Fin 4) (disp : BitVec 32)
  deriving DecidableEq, Repr

/-- A memory operand: the segment that is used (the default or the override, 30_encoding.md R97) and the effective address. -/
structure MemOp where
  seg : SegReg
  ea : EffAddr
  deriving DecidableEq, Repr

/-- A register or memory operand named by ModRM.r/m (30_encoding.md R85). -/
inductive RegMem (α : Type)
  | reg (r : α)
  | mem (m : MemOp)
  deriving DecidableEq, Repr

/-- The data source of the EVEX VPSLLD and VPSLLQ immediate forms: a register, a whole vector in memory, or one element
in memory broadcast (20_memory.md R55; 30_encoding.md R105). -/
inductive DataSrc
  | reg (r : VReg)
  | mem (m : MemOp)
  | bcst (m : MemOp)
  deriving DecidableEq, Repr

/-- The masking fields of the EVEX prefix: the writemask register number `aaa` (0 is "no writemask") and `z`
(30_encoding.md R91, 10_state.md R28). -/
structure Masking where
  aaa : Fin 8
  z : Bool
  deriving DecidableEq, Repr

/-- The instructions: one constructor per row of spec/opcode_table.json, in its order. -/
inductive Instr
  /-- PSLLW mm, mm/m64 (41_mmx.md R150). -/
  | mmxPsllwRm (dst : MmReg) (cnt : RegMem MmReg)
  /-- PSLLW mm, imm8 (41_mmx.md R151). -/
  | mmxPsllwImm (dst : MmReg) (imm : Byte)
  /-- PSLLD mm, mm/m64 (41_mmx.md R152). -/
  | mmxPslldRm (dst : MmReg) (cnt : RegMem MmReg)
  /-- PSLLD mm, imm8 (41_mmx.md R153). -/
  | mmxPslldImm (dst : MmReg) (imm : Byte)
  /-- PSLLQ mm, mm/m64 (41_mmx.md R154). -/
  | mmxPsllqRm (dst : MmReg) (cnt : RegMem MmReg)
  /-- PSLLQ mm, imm8 (41_mmx.md R155). -/
  | mmxPsllqImm (dst : MmReg) (imm : Byte)
  /-- PSLLW xmm1, xmm2/m128 (42_sse128.md R160). -/
  | ssePsllwRm (dst : VReg) (cnt : RegMem VReg)
  /-- PSLLW xmm1, imm8 (42_sse128.md R161). -/
  | ssePsllwImm (dst : VReg) (imm : Byte)
  /-- PSLLD xmm1, xmm2/m128 (42_sse128.md R162). -/
  | ssePslldRm (dst : VReg) (cnt : RegMem VReg)
  /-- PSLLD xmm1, imm8 (42_sse128.md R163). -/
  | ssePslldImm (dst : VReg) (imm : Byte)
  /-- PSLLQ xmm1, xmm2/m128 (42_sse128.md R164). -/
  | ssePsllqRm (dst : VReg) (cnt : RegMem VReg)
  /-- PSLLQ xmm1, imm8 (42_sse128.md R165). -/
  | ssePsllqImm (dst : VReg) (imm : Byte)
  /-- VPSLLW xmm1, xmm2, xmm3/m128 (43_vex.md R170). -/
  | vex128PsllwRm (dst src : VReg) (cnt : RegMem VReg)
  /-- VPSLLW xmm1, xmm2, imm8 (43_vex.md R171). -/
  | vex128PsllwImm (dst src : VReg) (imm : Byte)
  /-- VPSLLD xmm1, xmm2, xmm3/m128 (43_vex.md R172). -/
  | vex128PslldRm (dst src : VReg) (cnt : RegMem VReg)
  /-- VPSLLD xmm1, xmm2, imm8 (43_vex.md R173). -/
  | vex128PslldImm (dst src : VReg) (imm : Byte)
  /-- VPSLLQ xmm1, xmm2, xmm3/m128 (43_vex.md R174). -/
  | vex128PsllqRm (dst src : VReg) (cnt : RegMem VReg)
  /-- VPSLLQ xmm1, xmm2, imm8 (43_vex.md R175). -/
  | vex128PsllqImm (dst src : VReg) (imm : Byte)
  /-- VPSLLW ymm1, ymm2, xmm3/m128 (43_vex.md R176). -/
  | vex256PsllwRm (dst src : VReg) (cnt : RegMem VReg)
  /-- VPSLLW ymm1, ymm2, imm8 (43_vex.md R177). -/
  | vex256PsllwImm (dst src : VReg) (imm : Byte)
  /-- VPSLLD ymm1, ymm2, xmm3/m128 (43_vex.md R178). -/
  | vex256PslldRm (dst src : VReg) (cnt : RegMem VReg)
  /-- VPSLLD ymm1, ymm2, imm8 (43_vex.md R179). -/
  | vex256PslldImm (dst src : VReg) (imm : Byte)
  /-- VPSLLQ ymm1, ymm2, xmm3/m128 (43_vex.md R180). -/
  | vex256PsllqRm (dst src : VReg) (cnt : RegMem VReg)
  /-- VPSLLQ ymm1, ymm2, imm8 (43_vex.md R181). -/
  | vex256PsllqImm (dst src : VReg) (imm : Byte)
  /-- VPSLLW xmm1 {k1}{z}, xmm2, xmm3/m128 (44_evex_var.md R190). -/
  | evex128PsllwRm (dst : VReg) (msk : Masking) (src : VReg) (cnt : RegMem VReg)
  /-- VPSLLW ymm1 {k1}{z}, ymm2, xmm3/m128 (44_evex_var.md R191). -/
  | evex256PsllwRm (dst : VReg) (msk : Masking) (src : VReg) (cnt : RegMem VReg)
  /-- VPSLLW zmm1 {k1}{z}, zmm2, xmm3/m128 (44_evex_var.md R192). -/
  | evex512PsllwRm (dst : VReg) (msk : Masking) (src : VReg) (cnt : RegMem VReg)
  /-- VPSLLD xmm1 {k1}{z}, xmm2, xmm3/m128 (44_evex_var.md R193). -/
  | evex128PslldRm (dst : VReg) (msk : Masking) (src : VReg) (cnt : RegMem VReg)
  /-- VPSLLD ymm1 {k1}{z}, ymm2, xmm3/m128 (44_evex_var.md R194). -/
  | evex256PslldRm (dst : VReg) (msk : Masking) (src : VReg) (cnt : RegMem VReg)
  /-- VPSLLD zmm1 {k1}{z}, zmm2, xmm3/m128 (44_evex_var.md R195). -/
  | evex512PslldRm (dst : VReg) (msk : Masking) (src : VReg) (cnt : RegMem VReg)
  /-- VPSLLQ xmm1 {k1}{z}, xmm2, xmm3/m128 (44_evex_var.md R196). -/
  | evex128PsllqRm (dst : VReg) (msk : Masking) (src : VReg) (cnt : RegMem VReg)
  /-- VPSLLQ ymm1 {k1}{z}, ymm2, xmm3/m128 (44_evex_var.md R197). -/
  | evex256PsllqRm (dst : VReg) (msk : Masking) (src : VReg) (cnt : RegMem VReg)
  /-- VPSLLQ zmm1 {k1}{z}, zmm2, xmm3/m128 (44_evex_var.md R198). -/
  | evex512PsllqRm (dst : VReg) (msk : Masking) (src : VReg) (cnt : RegMem VReg)
  /-- VPSLLW xmm1 {k1}{z}, xmm2/m128, imm8 (45_evex_imm.md R205). -/
  | evex128PsllwImm (dst : VReg) (msk : Masking) (src : RegMem VReg) (imm : Byte)
  /-- VPSLLW ymm1 {k1}{z}, ymm2/m256, imm8 (45_evex_imm.md R206). -/
  | evex256PsllwImm (dst : VReg) (msk : Masking) (src : RegMem VReg) (imm : Byte)
  /-- VPSLLW zmm1 {k1}{z}, zmm2/m512, imm8 (45_evex_imm.md R207). -/
  | evex512PsllwImm (dst : VReg) (msk : Masking) (src : RegMem VReg) (imm : Byte)
  /-- VPSLLD xmm1 {k1}{z}, xmm2/m128/m32bcst, imm8 (45_evex_imm.md R208). -/
  | evex128PslldImm (dst : VReg) (msk : Masking) (src : DataSrc) (imm : Byte)
  /-- VPSLLD ymm1 {k1}{z}, ymm2/m256/m32bcst, imm8 (45_evex_imm.md R209). -/
  | evex256PslldImm (dst : VReg) (msk : Masking) (src : DataSrc) (imm : Byte)
  /-- VPSLLD zmm1 {k1}{z}, zmm2/m512/m32bcst, imm8 (45_evex_imm.md R210). -/
  | evex512PslldImm (dst : VReg) (msk : Masking) (src : DataSrc) (imm : Byte)
  /-- VPSLLQ xmm1 {k1}{z}, xmm2/m128/m64bcst, imm8 (45_evex_imm.md R211). -/
  | evex128PsllqImm (dst : VReg) (msk : Masking) (src : DataSrc) (imm : Byte)
  /-- VPSLLQ ymm1 {k1}{z}, ymm2/m256/m64bcst, imm8 (45_evex_imm.md R212). -/
  | evex256PsllqImm (dst : VReg) (msk : Masking) (src : DataSrc) (imm : Byte)
  /-- VPSLLQ zmm1 {k1}{z}, zmm2/m512/m64bcst, imm8 (45_evex_imm.md R213). -/
  | evex512PsllqImm (dst : VReg) (msk : Masking) (src : DataSrc) (imm : Byte)
  deriving DecidableEq, Repr

/-- The form of an instruction (30_encoding.md R107). -/
def Instr.form : Instr → Form
  | .mmxPsllwRm _ _ => .mmx .w .var
  | .mmxPsllwImm _ _ => .mmx .w .imm
  | .mmxPslldRm _ _ => .mmx .d .var
  | .mmxPslldImm _ _ => .mmx .d .imm
  | .mmxPsllqRm _ _ => .mmx .q .var
  | .mmxPsllqImm _ _ => .mmx .q .imm
  | .ssePsllwRm _ _ => .sse .w .var
  | .ssePsllwImm _ _ => .sse .w .imm
  | .ssePslldRm _ _ => .sse .d .var
  | .ssePslldImm _ _ => .sse .d .imm
  | .ssePsllqRm _ _ => .sse .q .var
  | .ssePsllqImm _ _ => .sse .q .imm
  | .vex128PsllwRm _ _ _ => .vex .v128 .w .var
  | .vex128PsllwImm _ _ _ => .vex .v128 .w .imm
  | .vex128PslldRm _ _ _ => .vex .v128 .d .var
  | .vex128PslldImm _ _ _ => .vex .v128 .d .imm
  | .vex128PsllqRm _ _ _ => .vex .v128 .q .var
  | .vex128PsllqImm _ _ _ => .vex .v128 .q .imm
  | .vex256PsllwRm _ _ _ => .vex .v256 .w .var
  | .vex256PsllwImm _ _ _ => .vex .v256 .w .imm
  | .vex256PslldRm _ _ _ => .vex .v256 .d .var
  | .vex256PslldImm _ _ _ => .vex .v256 .d .imm
  | .vex256PsllqRm _ _ _ => .vex .v256 .q .var
  | .vex256PsllqImm _ _ _ => .vex .v256 .q .imm
  | .evex128PsllwRm _ _ _ _ => .evex .v128 .w .var
  | .evex256PsllwRm _ _ _ _ => .evex .v256 .w .var
  | .evex512PsllwRm _ _ _ _ => .evex .v512 .w .var
  | .evex128PslldRm _ _ _ _ => .evex .v128 .d .var
  | .evex256PslldRm _ _ _ _ => .evex .v256 .d .var
  | .evex512PslldRm _ _ _ _ => .evex .v512 .d .var
  | .evex128PsllqRm _ _ _ _ => .evex .v128 .q .var
  | .evex256PsllqRm _ _ _ _ => .evex .v256 .q .var
  | .evex512PsllqRm _ _ _ _ => .evex .v512 .q .var
  | .evex128PsllwImm _ _ _ _ => .evex .v128 .w .imm
  | .evex256PsllwImm _ _ _ _ => .evex .v256 .w .imm
  | .evex512PsllwImm _ _ _ _ => .evex .v512 .w .imm
  | .evex128PslldImm _ _ _ _ => .evex .v128 .d .imm
  | .evex256PslldImm _ _ _ _ => .evex .v256 .d .imm
  | .evex512PslldImm _ _ _ _ => .evex .v512 .d .imm
  | .evex128PsllqImm _ _ _ _ => .evex .v128 .q .imm
  | .evex256PsllqImm _ _ _ _ => .evex .v256 .q .imm
  | .evex512PsllqImm _ _ _ _ => .evex .v512 .q .imm

end Sys2Proof
end

