-- ==== Sys2Proof/Machine/State.lean ====
section
/-! DEFINITION. The state of the machine as plain data (10_state.md R20): the tuple
`(V, MM, K, x, pc, FLAGS, MXCSR, X87, CTRL, Mem)`, the segment registers (R40), the parameters no step changes (R45),
and one field of the model's own (`ilen`, log 8). -/

namespace Sys2Proof.Machine

/-- Byte-addressed memory (10_state.md R41, 20_memory.md R60): a partial map, held as pairs of an address and its byte
with strictly rising addresses. An address that is not listed holds no byte (log 11). -/
abbrev Memory := List Host.Cell

/-- The control registers whose bits decide whether a form executes (10_state.md R38), and the privilege level. -/
structure Ctrl where
  /-- CR0: bit 0 PE, 2 EM, 3 TS, 5 NE, 18 AM. -/
  cr0 : BitVec 64
  /-- CR4: bit 9 OSFXSR, 18 OSXSAVE. -/
  cr4 : BitVec 64
  /-- XCR0: bits 1 SSE, 2 AVX, 5 opmask, 6 ZMM_Hi256, 7 Hi16_ZMM. -/
  xcr0 : BitVec 64
  /-- The current privilege level. -/
  cpl : BitVec 2
  deriving DecidableEq, Repr

/-- A segment register with its hidden fields (10_state.md R40): the base, the limit, and whether the segment may be
read (not null, and its attributes grant the read). -/
structure Segment where
  selector : BitVec 16
  base : BitVec 64
  limit : BitVec 32
  readable : Bool
  deriving DecidableEq, Repr

/-- The six segment registers (10_state.md R40). -/
structure SegFile where
  es : Segment
  cs : Segment
  ss : Segment
  ds : Segment
  fs : Segment
  gs : Segment
  deriving DecidableEq, Repr

/-- The processor features of 00_scope.md R3, present and enabled or not. -/
structure Features where
  mmx : Bool
  sse2 : Bool
  avx : Bool
  avx2 : Bool
  avx512f : Bool
  avx512bw : Bool
  avx512vl : Bool
  deriving DecidableEq, Repr

/-- Why Translate refuses a byte (20_memory.md R61): a segment or protection refusal, reported as #SS(0) or #GP(0) by
the segment of the access (60_exceptions.md R221), or a page fault with its code. -/
inductive Refused
  | segment
  | page (code : BitVec 32)
  deriving DecidableEq, Repr

/-- A range of linear addresses, both ends included, that Translate refuses while CTRL has the bits `ctrl` under `mask`
(20_memory.md R61: Translate sees CTRL; a supervisor-only page is refused at level 3, 60_exceptions.md R236). A `mask` of
zeros refuses whatever CTRL is. -/
structure RefusedRange where
  first : Qword
  last : Qword
  mask : Ctrl
  ctrl : Ctrl
  why : Refused
  deriving DecidableEq, Repr

/-- The parameters of 00_scope.md R10 that are open; no step changes them (10_state.md R45). -/
structure Params where
  /-- MODE (00_scope.md R9). -/
  mode : Mode
  /-- FEATURES (00_scope.md R3). -/
  features : Features
  /-- FaultSuppressF (20_memory.md R62). -/
  faultSuppressF : Bool
  /-- 5-level paging: which addresses are canonical (30_encoding.md R97). -/
  la57 : Bool
  /-- Translate (20_memory.md R61; log 12): the refused ranges, the first that covers an address under CTRL deciding; every
  other address is ok. -/
  refusals : List RefusedRange
  deriving DecidableEq, Repr

/-- The state of the machine (10_state.md R20). -/
structure State where
  /-- V: the vector registers (R21, R22, R24). -/
  vec : Vector Vec 32
  /-- MM: the MMX registers (R25). -/
  mm : Vector Qword 8
  /-- K: the opmask registers (R27). -/
  k : Vector Qword 8
  /-- x: the general registers, RAX RCX RDX RBX RSP RBP RSI RDI R8 to R15 (R33). -/
  x : Vector Qword 16
  /-- The address of the first byte of the instruction (R34). -/
  pc : Qword
  /-- FLAGS, RFLAGS (R36). -/
  flags : BitVec 64
  /-- MXCSR (R37). -/
  mxcsr : BitVec 32
  /-- X87 (R42). -/
  x87 : X87
  /-- CTRL (R38). -/
  ctrl : Ctrl
  /-- The segment registers (R40). -/
  segs : SegFile
  /-- The open parameters (R45). -/
  cfg : Params
  /-- Mem (R41). -/
  mem : Memory
  /-- The model's own: the length in bytes of the instruction being executed, set by `step` before the instruction's
  meaning runs (the `len` of R35 and of next_pc in 30_encoding.md R95; log 8). -/
  ilen : Nat
  deriving DecidableEq, Repr

/-- How a step ends in an exception, the `fault(X, info)` of 00_scope.md R17, or stuck. The state is the one before the
step (60_exceptions.md R230), and the run ends (R232; log 13). `pc` is the faulting instruction's address (R228). -/
inductive Fault
  /-- #UD, vector 6: an illegal encoding, or a form that is absent or not enabled (R221). Raised by `step` from the
  decoder and by every instruction. Safe: the spec's own outcome. -/
  | ud (pc : Qword)
  /-- #NM, vector 7: CR0.TS = 1 (R221). Raised by every instruction. Safe: the spec's own outcome. -/
  | nm (pc : Qword)
  /-- #SS(0), vector 12: a memory operand addressed through SS, beyond the limit, non-canonical or refused (R221).
  Raised by the forms with a memory operand. Safe: the spec's own outcome. -/
  | ss (pc : Qword)
  /-- #GP(0), vector 13: the same through another segment, a misaligned SSE128 memory count, or an instruction longer
  than 15 bytes (R221). Safe: the spec's own outcome. -/
  | gp (pc : Qword)
  /-- #PF(code), vector 14, with the faulting linear address (R221, R228). Raised by the forms with a memory operand.
  Safe: the spec's own outcome; which refused byte `addr` is, is free (log 10). -/
  | pf (code : BitVec 32) (addr : Qword) (pc : Qword)
  /-- #MF, vector 16: an unmasked x87 exception is pending (R224). Raised by the MMX forms. Safe: the spec's own outcome. -/
  | mf (pc : Qword)
  /-- #AC(0), vector 17: alignment checking and a misaligned MMX memory count (R224). Safe: the spec's own outcome. -/
  | ac (pc : Qword)
  /-- Stuck: the operand's byte at `addr` is in no ordinary memory (20_memory.md R60, R64;
  93_implementation_defined.md U4). Raised by the forms with a memory operand, for a masked-off byte too. Safe: nothing is
  provable after it. -/
  | noMemory (addr : Qword) (pc : Qword)
  deriving DecidableEq, Repr

/-- The vector number of an exception (60_exceptions.md R221); `noMemory` is not an exception of the machine. -/
def Fault.vector : Fault → Option Nat
  | .ud _ => some 6
  | .nm _ => some 7
  | .ss _ => some 12
  | .gp _ => some 13
  | .pf _ _ _ => some 14
  | .mf _ => some 16
  | .ac _ => some 17
  | .noMemory _ _ => none

/-- The error code of an exception (60_exceptions.md R221, R228): 0, the page-fault code, or none. -/
def Fault.errorCode : Fault → Option (BitVec 32)
  | .ss _ | .gp _ | .ac _ => some 0
  | .pf code _ _ => some code
  | .ud _ | .nm _ | .mf _ | .noMemory _ _ => none

/-- Why a step has no meaning, the `refuse(reason)` of 00_scope.md R17: the spec is silent. -/
inductive Refusal
  /-- An instruction the model gives no meaning yet. Raised by no arm. Safe. -/
  | notModelled (mnemonic : String)
  /-- The bytes at pc spell no form of the family (30_encoding.md R113). Raised by `step`. Safe. -/
  | notInFamily
  /-- F2 or F3 before a legacy form (30_encoding.md R112; 93_implementation_defined.md U1). Raised by `step`. Safe. -/
  | repPrefix
  /-- A VEX or EVEX register above 7 outside 64-bit mode (30_encoding.md R94; 93_implementation_defined.md U8). Raised by
  `step`. Safe. -/
  | highRegister
  /-- pc, or the end of the instruction, is outside the program text (60_exceptions.md R240). Raised by `step`. Safe. -/
  | pcOutsideText
  deriving DecidableEq, Repr

/-- A segment register of a processor out of reset: the limit FFFFH and a readable segment (PRESUMED, log 6). -/
def Segment.afterReset (selector : BitVec 16) (base : BitVec 64) : Segment := ⟨selector, base, 0xFFFF, true⟩

/-- The x87 state after reset (10_state.md R43: control word 0040H, tag word 5555H; the rest log 5, log 6). -/
def X87.afterReset : X87 :=
  { control := 0x0040, status := 0, tag := 0x5555, high := Vector.replicate 8 0, pending := false }

/-- The machine right after reset: the values of 10_state.md R43 "known from outside the source" (PRESUMED, log 5),
and the model's choices where it gives none (log 6). Straight out of reset only the MMX forms execute
(70_reset_and_hazards.md R262). -/
def State.reset : State :=
  { vec := Vector.replicate 32 0
    mm := Vector.replicate 8 0
    k := Vector.replicate 8 0
    x := Vector.replicate 16 0
    pc := 0xFFF0
    flags := 0x2
    mxcsr := 0x1F80
    x87 := X87.afterReset
    ctrl := { cr0 := 0x60000010, cr4 := 0, xcr0 := 1, cpl := 0 }
    segs := { es := .afterReset 0 0, cs := .afterReset 0xF000 0xFFFF0000, ss := .afterReset 0 0,
              ds := .afterReset 0 0, fs := .afterReset 0 0, gs := .afterReset 0 0 }
    cfg := { mode := .real, features := ⟨true, true, true, true, true, true, true⟩, faultSuppressF := true,
             la57 := false, refusals := [] }
    mem := []
    ilen := 0 }

end Sys2Proof.Machine
end

