-- ==== Sys2Proof/Machine/Flags.lean ====
section
/-! DEFINITION. FLAGS and MXCSR. No form of the family computes, writes or depends on a status flag, and none reads or
writes MXCSR ("Flags affected None.", "Numeric Exceptions None."; 10_state.md R36, R37, 40_shift_core.md R144), so there
is no flag computation. Two system flags are read by the exception checks alone (10_state.md R36). -/

namespace Sys2Proof.Machine

/-- EFLAGS.VM, bit 17 (10_state.md R38): virtual-8086 mode. -/
def State.flagVM (s : State) : Bool := bit s.flags 17

/-- EFLAGS.AC, bit 18 (10_state.md R38): alignment check. -/
def State.flagAC (s : State) : Bool := bit s.flags 18

end Sys2Proof.Machine
end

