-- ==== Sys2Proof/Machine/Memory.lean ====
section
/-! DEFINITION. Memory as a partial map from byte addresses to bytes (20_memory.md R60), in one canonical form. -/

namespace Sys2Proof.Machine

/-- The byte listed at a key, if there is one. -/
def Memory.find : Memory → Nat → Option Byte
  | [], _ => none
  | (b, v) :: cells, a => if b = a then some v else Memory.find cells a

/-- The byte at a linear address, if there is one. An unlisted address holds none (log 11). -/
def Memory.read (mem : Memory) (a : Qword) : Option Byte := Memory.find mem a.toNat

/-- The byte listed at a key becomes `v`. -/
def Memory.put : Memory → Nat → Byte → Memory
  | [], a, v => [(a, v)]
  | (b, w) :: cells, a, v =>
    if a < b then (a, v) :: (b, w) :: cells
    else if a = b then (a, v) :: cells
    else (b, w) :: Memory.put cells a v

/-- The byte at a linear address becomes `v`. No form of the family writes memory (20_memory.md R52): this serves a
launch, which places the program text and its data (70_reset_and_hazards.md R261). -/
def Memory.write (mem : Memory) (a : Qword) (v : Byte) : Memory := Memory.put mem a.toNat v

/-- Bytes at ascending addresses from `a` on (20_memory.md R50). -/
def Memory.writeList (mem : Memory) (a : Qword) : List Byte → Memory
  | [] => mem
  | v :: vs => Memory.writeList (Memory.write mem a v) (a + 1) vs

/-- The addresses are 64-bit addresses and rise strictly, each of them at least `low`. -/
def Memory.risesFrom (low : Nat) : Memory → Bool
  | [] => true
  | (a, _) :: cells => decide (low ≤ a) && decide (a < 2 ^ 64) && Memory.risesFrom (a + 1) cells

/-- The canonical form: strictly rising addresses. An unlisted address reads as no byte, so no entry can equal what an
unlisted address reads as. -/
def Memory.wf (mem : Memory) : Bool := Memory.risesFrom 0 mem

end Sys2Proof.Machine
end

