-- ==== Sys2Proof/Machine/Ops.lean ====
section
/-! DEFINITION. The named operations over the registers, and the checks every form makes before it reads an operand:
whether it is available, whether the device is ready, whether an x87 exception is pending (10_state.md R38, R39,
60_exceptions.md R222 to R226, R229). -/

namespace Sys2Proof.Machine

/-! ## Registers -/

/-- `V[i]`, all MAXVL bits (10_state.md R21). -/
def State.v (s : State) (i : VReg) : Vec := s.vec[i.val]

/-- `V[i] <- a` (10_state.md R24: no register is special). -/
def State.setV (s : State) (i : VReg) (a : Vec) : State := { s with vec := s.vec.set i.val a }

/-- `MM[i]` (10_state.md R25). -/
def State.mmr (s : State) (i : MmReg) : Qword := s.mm[i.val]

/-- `MM[i] <- a`. -/
def State.setMM (s : State) (i : MmReg) (a : Qword) : State := { s with mm := s.mm.set i.val a }

/-- `K[i]` (10_state.md R27). No form writes one (R29). -/
def State.kr (s : State) (i : Fin 8) : Qword := s.k[i.val]

/-- `x[i]` (10_state.md R33). No form writes one. -/
def State.xr (s : State) (i : GReg) : Qword := s.x[i.val]

/-- A segment register (10_state.md R40). No form writes one. -/
def SegFile.get (f : SegFile) : SegReg → Segment
  | .es => f.es
  | .cs => f.cs
  | .ss => f.ss
  | .ds => f.ds
  | .fs => f.fs
  | .gs => f.gs

/-- `next_pc = pc + len`, modulo 2^64 (10_state.md R35, 30_encoding.md R95). -/
def State.nextPc (s : State) : Qword := s.pc + BitVec.ofNat 64 s.ilen

/-- `pc <- pc + len` (10_state.md R35). -/
def State.advance (s : State) : State := { s with pc := s.nextPc }

/-- The length of the instruction that is about to execute (log 8). -/
def State.latch (s : State) (n : Nat) : State := { s with ilen := n }

/-- `X87 <- X87Effect(X87, dst)` (10_state.md R42): a free value, but that X87Pending is preserved
(60_exceptions.md R224). -/
def State.x87Effect (s : State) (dst : MmReg) : State :=
  { s with x87 := { Config.x87Effect s.x87 dst with pending := s.x87.pending } }

/-! ## Control bits (10_state.md R38) -/

/-- Real or virtual-8086 mode, by MODE, CR0.PE or EFLAGS.VM (10_state.md R38; log 4). -/
def State.realOrV86 (s : State) : Bool :=
  s.cfg.mode == .real || s.cfg.mode == .v86 || !bit s.ctrl.cr0 0 || s.flagVM

/-- CR0.EM. -/
def State.em (s : State) : Bool := bit s.ctrl.cr0 2

/-- CR4.OSFXSR. -/
def State.osfxsr (s : State) : Bool := bit s.ctrl.cr4 9

/-- CR4.OSXSAVE. -/
def State.osxsave (s : State) : Bool := bit s.ctrl.cr4 18

/-- XCR0.SSE and XCR0.AVX, XCR0[2:1] = 11b. -/
def State.xcrAvx (s : State) : Bool := bit s.ctrl.xcr0 1 && bit s.ctrl.xcr0 2

/-- XCR0.opmask, XCR0.ZMM_Hi256 and XCR0.Hi16_ZMM, XCR0[7:5] = 111b. -/
def State.xcrZmm (s : State) : Bool := bit s.ctrl.xcr0 5 && bit s.ctrl.xcr0 6 && bit s.ctrl.xcr0 7

/-- The features a form needs (00_scope.md R3). -/
def Features.has (f : Features) : Form → Bool
  | .mmx _ _ => f.mmx
  | .sse _ _ => f.sse2
  | .vex .v128 _ _ => f.avx
  | .vex _ _ _ => f.avx2
  | .evex .v512 .w _ => f.avx512bw
  | .evex _ .w _ => f.avx512bw && f.avx512vl
  | .evex .v512 _ _ => f.avx512f
  | .evex _ _ _ => f.avx512f && f.avx512vl

/-- `Avail(form)` (10_state.md R39): no #UD condition of the form's class in R38 holds (log 3). -/
def State.avail (s : State) (f : Form) : Bool :=
  s.cfg.features.has f &&
  match f with
  | .mmx _ _ => !s.em
  | .sse _ _ => !s.em && s.osfxsr
  | .vex _ _ _ => !s.realOrV86 && s.osxsave && s.xcrAvx
  | .evex _ _ _ => !s.realOrV86 && s.osxsave && s.xcrAvx && s.xcrZmm

/-- `DeviceReady`: CR0.TS = 0 (10_state.md R39). -/
def State.deviceReady (s : State) : Bool := !bit s.ctrl.cr0 3

/-- `AlignCheck`: CR0.AM = 1, EFLAGS.AC = 1, privilege level 3 (10_state.md R38, 60_exceptions.md R224). -/
def State.alignCheck (s : State) : Bool := bit s.ctrl.cr0 18 && s.flagAC && s.ctrl.cpl == 3#2

/-! ## Exceptions -/

/-- The exceptions of 60_exceptions.md R221. -/
inductive Exc
  | ud | nm | ss | gp
  | pf (code : BitVec 32) (addr : Qword)
  | mf | ac
  deriving DecidableEq, Repr

/-- Raising an exception: the outcome `fault(X, info)` with the pc of the faulting instruction (60_exceptions.md R228).
The state is the one before the step and the run ends (R230, R232): delivery to a handler is out of scope
(00_scope.md R6; log 13). -/
def State.raise (s : State) : Exc → Fault
  | .ud => .ud s.pc
  | .nm => .nm s.pc
  | .ss => .ss s.pc
  | .gp => .gp s.pc
  | .pf code addr => .pf code addr s.pc
  | .mf => .mf s.pc
  | .ac => .ac s.pc

/-- MMX forms test X87Pending (60_exceptions.md R224). -/
def isMmx : Form → Bool
  | .mmx _ _ => true
  | .sse _ _ | .vex _ _ _ | .evex _ _ _ => false

/-- The exception a form raises before it reads an operand, if any: #UD, then #NM, then #MF
(60_exceptions.md R229 items 3 to 5). -/
def State.formFault (s : State) (f : Form) : Option Fault :=
  if !s.avail f then some (s.raise .ud)
  else if !s.deviceReady then some (s.raise .nm)
  else if isMmx f && s.x87.pending then some (s.raise .mf)
  else none

end Sys2Proof.Machine
end

