-- ==== Sys2Proof/Machine/Shift.lean ====
section
/-! DEFINITION. The shift of one element, the packed shift, write-masking and broadcast (40_shift_core.md). -/

namespace Sys2Proof.Machine

/-- SHL_N(x, c) (40_shift_core.md R130): 0 when the count exceeds N-1, else `x * 2^c` cut to N bits. -/
def shl (N : Nat) (x : BitVec N) (c : Nat) : BitVec N :=
  if c > N - 1 then 0#N else BitVec.ofNat N (x.toNat * 2 ^ c)

/-- Element `j` of width N of a value (00_scope.md R11). -/
def lane {W : Nat} (N : Nat) (v : BitVec W) (j : Nat) : BitVec N := v.extractLsb' (j * N) N

/-- The W-bit value whose elements 0 .. n-1 of width N are `f 0 .. f (n-1)`, and whose other bits are 0. -/
def packLanes (W N : Nat) (f : Nat → BitVec N) : Nat → BitVec W
  | 0 => 0#W
  | n + 1 => packLanes W N f n ||| ((f n).setWidth W <<< (n * N))

/-- PSLL(W, N, src, c) (40_shift_core.md R136): every element shifted by the one count. -/
def psll (W N : Nat) (src : BitVec W) (c : Nat) : BitVec W :=
  packLanes W N (fun j => shl N (lane N src j) c) (W / N)

/-- MASKWRITE(VL, N, tmp, old, k, nomask, z) (40_shift_core.md R140). -/
def maskWrite (VL N : Nat) (tmp old : BitVec VL) (k : Qword) (nomask z : Bool) : BitVec VL :=
  packLanes VL N (fun j => if nomask || bit k j then lane N tmp j else if z then 0#N else lane N old j) (VL / N)

/-- BCAST(VL, N, e) (40_shift_core.md R146). -/
def bcast (VL N : Nat) (e : BitVec N) : BitVec VL := packLanes VL N (fun _ => e) (VL / N)

end Sys2Proof.Machine
end

