-- ==== Sys2Proof/WellFormed.lean ====
section
/-! DEFINITION. Which instruction terms some bytes can spell in a mode: register numbers in the range the encoding class
can name (10_state.md R23), VEX and EVEX forms in the modes that have them (30_encoding.md R112, R117), address
expressions that the addressing forms can spell (30_encoding.md R95, R96), and no zeroing without a writemask (R112). -/

namespace Sys2Proof

/-- 64-bit mode (00_scope.md R9). -/
def Mode.is64 : Mode → Bool
  | .mode64 => true
  | .compat32 | .prot32 | .mode16 | .real | .v86 => false

/-- The default address size of a 32-bit code segment is 32, of the 16-bit modes 16 (30_encoding.md R95, R96, R117). -/
def Mode.is32 : Mode → Bool
  | .compat32 | .prot32 => true
  | .mode64 | .mode16 | .real | .v86 => false

/-- The VEX and EVEX forms are #UD in real and virtual-8086 mode (30_encoding.md R112, R117). -/
def Mode.hasVex : Mode → Bool
  | .mode64 | .compat32 | .prot32 | .mode16 => true
  | .real | .v86 => false

/-- How many vector registers a legacy SSE or VEX form can name (10_state.md R23). -/
def Mode.vexRegs (m : Mode) : Nat := if m.is64 then 16 else 8

/-- How many vector registers an EVEX form can name (10_state.md R23). -/
def Mode.evexRegs (m : Mode) : Nat := if m.is64 then 32 else 8

/-- How many general registers an address can name (10_state.md R33). -/
def Mode.gprs (m : Mode) : Nat := if m.is64 then 16 else 8

/-- A base register that exists in the mode; RIP-relative addressing exists in 64-bit mode only (30_encoding.md R95). -/
def Base.wf (m : Mode) : Base → Bool
  | .none => true
  | .rip => m.is64
  | .gpr r => decide (r.val < m.gprs)

/-- An effective address some ModRM, SIB and displacement spell in the mode: 16-bit addressing outside 64-bit mode,
64-bit addressing in it; register 4 is never an index; no scale without an index; no index beside RIP
(30_encoding.md R95, R96). -/
def EffAddr.wf (m : Mode) : EffAddr → Bool
  | .a16 _ _ => !m.is64
  | .wide is64 base index scale _ =>
    (!is64 || m.is64) && base.wf m &&
    (match index with
     | none => scale == 0
     | some i => decide (i.val < m.gprs) && i != 4 && base != .rip)

/-- A memory operand is well formed when its effective address is. -/
def MemOp.wf (m : Mode) (a : MemOp) : Bool := a.ea.wf m

/-- An MMX count operand (10_state.md R26: any 3-bit number). -/
def RegMem.wfMm (m : Mode) : RegMem MmReg → Bool
  | .reg _ => true
  | .mem a => a.wf m

/-- A vector register or memory operand with `n` nameable registers. -/
def RegMem.wfV (m : Mode) (n : Nat) : RegMem VReg → Bool
  | .reg r => decide (r.val < n)
  | .mem a => a.wf m

/-- The data source of an EVEX VPSLLD or VPSLLQ immediate form. -/
def DataSrc.wf (m : Mode) : DataSrc → Bool
  | .reg r => decide (r.val < m.evexRegs)
  | .mem a | .bcst a => a.wf m

/-- Zeroing-masking needs a writemask: z = 1 with aaa = 000 is #UD (30_encoding.md R112). -/
def Masking.wf (k : Masking) : Bool := !(k.z && k.aaa == 0)

/-- Legacy SSE and VEX register numbers. -/
def wfVex (m : Mode) (r : VReg) : Bool := decide (r.val < m.vexRegs)

/-- EVEX register numbers. -/
def wfEvex (m : Mode) (r : VReg) : Bool := decide (r.val < m.evexRegs)

/-- The operands are ones that bytes spell in mode `m`. -/
def Instr.operandsWf (m : Mode) : Instr → Bool
  | .mmxPsllwRm _ cnt => cnt.wfMm m
  | .mmxPsllwImm _ _ => true
  | .mmxPslldRm _ cnt => cnt.wfMm m
  | .mmxPslldImm _ _ => true
  | .mmxPsllqRm _ cnt => cnt.wfMm m
  | .mmxPsllqImm _ _ => true
  | .ssePsllwRm dst cnt => wfVex m dst && cnt.wfV m m.vexRegs
  | .ssePsllwImm dst _ => wfVex m dst
  | .ssePslldRm dst cnt => wfVex m dst && cnt.wfV m m.vexRegs
  | .ssePslldImm dst _ => wfVex m dst
  | .ssePsllqRm dst cnt => wfVex m dst && cnt.wfV m m.vexRegs
  | .ssePsllqImm dst _ => wfVex m dst
  | .vex128PsllwRm dst src cnt => wfVex m dst && wfVex m src && cnt.wfV m m.vexRegs
  | .vex128PsllwImm dst src _ => wfVex m dst && wfVex m src
  | .vex128PslldRm dst src cnt => wfVex m dst && wfVex m src && cnt.wfV m m.vexRegs
  | .vex128PslldImm dst src _ => wfVex m dst && wfVex m src
  | .vex128PsllqRm dst src cnt => wfVex m dst && wfVex m src && cnt.wfV m m.vexRegs
  | .vex128PsllqImm dst src _ => wfVex m dst && wfVex m src
  | .vex256PsllwRm dst src cnt => wfVex m dst && wfVex m src && cnt.wfV m m.vexRegs
  | .vex256PsllwImm dst src _ => wfVex m dst && wfVex m src
  | .vex256PslldRm dst src cnt => wfVex m dst && wfVex m src && cnt.wfV m m.vexRegs
  | .vex256PslldImm dst src _ => wfVex m dst && wfVex m src
  | .vex256PsllqRm dst src cnt => wfVex m dst && wfVex m src && cnt.wfV m m.vexRegs
  | .vex256PsllqImm dst src _ => wfVex m dst && wfVex m src
  | .evex128PsllwRm dst msk src cnt => wfEvex m dst && msk.wf && wfEvex m src && cnt.wfV m m.evexRegs
  | .evex256PsllwRm dst msk src cnt => wfEvex m dst && msk.wf && wfEvex m src && cnt.wfV m m.evexRegs
  | .evex512PsllwRm dst msk src cnt => wfEvex m dst && msk.wf && wfEvex m src && cnt.wfV m m.evexRegs
  | .evex128PslldRm dst msk src cnt => wfEvex m dst && msk.wf && wfEvex m src && cnt.wfV m m.evexRegs
  | .evex256PslldRm dst msk src cnt => wfEvex m dst && msk.wf && wfEvex m src && cnt.wfV m m.evexRegs
  | .evex512PslldRm dst msk src cnt => wfEvex m dst && msk.wf && wfEvex m src && cnt.wfV m m.evexRegs
  | .evex128PsllqRm dst msk src cnt => wfEvex m dst && msk.wf && wfEvex m src && cnt.wfV m m.evexRegs
  | .evex256PsllqRm dst msk src cnt => wfEvex m dst && msk.wf && wfEvex m src && cnt.wfV m m.evexRegs
  | .evex512PsllqRm dst msk src cnt => wfEvex m dst && msk.wf && wfEvex m src && cnt.wfV m m.evexRegs
  | .evex128PsllwImm dst msk src _ => wfEvex m dst && msk.wf && src.wfV m m.evexRegs
  | .evex256PsllwImm dst msk src _ => wfEvex m dst && msk.wf && src.wfV m m.evexRegs
  | .evex512PsllwImm dst msk src _ => wfEvex m dst && msk.wf && src.wfV m m.evexRegs
  | .evex128PslldImm dst msk src _ => wfEvex m dst && msk.wf && src.wf m
  | .evex256PslldImm dst msk src _ => wfEvex m dst && msk.wf && src.wf m
  | .evex512PslldImm dst msk src _ => wfEvex m dst && msk.wf && src.wf m
  | .evex128PsllqImm dst msk src _ => wfEvex m dst && msk.wf && src.wf m
  | .evex256PsllqImm dst msk src _ => wfEvex m dst && msk.wf && src.wf m
  | .evex512PsllqImm dst msk src _ => wfEvex m dst && msk.wf && src.wf m

/-- The instruction term is one that bytes spell in mode `m`: its form exists there, and its operands are well formed. -/
def Instr.wf (m : Mode) (i : Instr) : Bool := (m.hasVex || i.form.isLegacy) && i.operandsWf m

end Sys2Proof
end

