-- ==== Sys2Proof/Machine/Operands.lean ====
section
/-! DEFINITION. Operands: effective and linear addresses (30_encoding.md R95 to R97), MemRead with its checks
(20_memory.md R51), the count of a variable-count form (40_shift_core.md R133, R134), and the data source of the EVEX
immediate forms (45_evex_imm.md). -/

namespace Sys2Proof.Machine

/-! ## Addresses -/

/-- The base of an effective address (30_encoding.md R95). -/
def State.baseValue (s : State) : Base → Qword
  | .none => 0
  | .rip => s.nextPc
  | .gpr r => s.xr r

/-- The scaled index of an effective address (30_encoding.md R95). -/
def State.indexValue (s : State) (scale : Fin 4) : Option GReg → Qword
  | none => 0
  | some r => s.xr r <<< scale.val

/-- The low 16 bits of a general register: AX to DI (10_state.md R33). -/
def State.xr16 (s : State) (r : GReg) : BitVec 16 := (s.xr r).setWidth 16

/-- The register part of a 16-bit effective address (30_encoding.md R96): BX is x[3], BP x[5], SI x[6], DI x[7]. -/
def State.base16Value (s : State) : Base16 → BitVec 16
  | .bxsi => s.xr16 3 + s.xr16 6
  | .bxdi => s.xr16 3 + s.xr16 7
  | .bpsi => s.xr16 5 + s.xr16 6
  | .bpdi => s.xr16 5 + s.xr16 7
  | .si => s.xr16 6
  | .di => s.xr16 7
  | .bp => s.xr16 5
  | .bx => s.xr16 3
  | .none => 0

/-- EA, zero-extended to 64 bits: a sum modulo 2^A for the address size A (30_encoding.md R95, R96). The 32-bit sum is
the low half of the 64-bit one, so reading the registers at 32 bits gives the same. -/
def State.effAddr (s : State) : EffAddr → Qword
  | .a16 base disp => (s.base16Value base + disp).setWidth 64
  | .wide is64 base index scale disp =>
    let sum := s.baseValue base + s.indexValue scale index + disp.signExtend 64
    if is64 then sum else (sum.setWidth 32).setWidth 64

/-- The base a segment contributes: in 64-bit mode only FS and GS contribute one (30_encoding.md R97). -/
def State.segBase (s : State) (g : SegReg) : Qword :=
  if s.cfg.mode.is64 then
    match g with
    | .fs | .gs => (s.segs.get g).base
    | .es | .cs | .ss | .ds => 0
  else (s.segs.get g).base

/-- Linear addresses are 64 bits in 64-bit mode and 32 bits otherwise (10_state.md R41). -/
def State.linearCut (s : State) (a : Qword) : Qword := if s.cfg.mode.is64 then a else (a.setWidth 32).setWidth 64

/-- The linear address of byte `off` of a memory operand: segment base + EA + off (30_encoding.md R97, 20_memory.md R51). -/
def State.linear (s : State) (m : MemOp) (off : Nat) : Qword :=
  s.linearCut (s.segBase m.seg + s.effAddr m.ea + BitVec.ofNat 64 off)

/-- Canonical form: bits 63:48 equal bit 47, or with 5-level paging bits 63:57 equal bit 56 (30_encoding.md R97). -/
def canonical (la57 : Bool) (a : Qword) : Bool :=
  if la57 then (a.extractLsb' 0 57).signExtend 64 == a else (a.extractLsb' 0 48).signExtend 64 == a

/-- The segment and canonical-address check of byte `off` (30_encoding.md R97): a canonical address in 64-bit mode; the
limit and the right to read outside it (log 16). -/
def State.segmentOk (s : State) (m : MemOp) (off : Nat) : Bool :=
  if s.cfg.mode.is64 then canonical s.cfg.la57 (s.linear m off)
  else
    let g := s.segs.get m.seg
    g.readable && decide ((s.effAddr m.ea).toNat + off ≤ g.limit.toNat)

/-! ## MemRead (20_memory.md R51) -/

/-- The bits of CTRL under a mask. -/
def Ctrl.under (c mask : Ctrl) : Ctrl := ⟨c.cr0 &&& mask.cr0, c.cr4 &&& mask.cr4, c.xcr0 &&& mask.xcr0, c.cpl &&& mask.cpl⟩

/-- A refused range covers a linear address under CTRL. -/
def RefusedRange.covers (r : RefusedRange) (c : Ctrl) (a : Qword) : Bool :=
  decide (r.first ≤ a) && decide (a ≤ r.last) && c.under r.mask == r.ctrl

/-- Translate for the byte at a linear address, with CTRL: `none` is ok (20_memory.md R61; log 12). -/
def State.translate (s : State) (a : Qword) : Option Refused :=
  (s.cfg.refusals.find? fun r => r.covers s.ctrl a).map RefusedRange.why

/-- Whether Translate refuses the byte for its segment or protection (#SS or #GP). -/
def State.translateSegment (s : State) (a : Qword) : Bool :=
  match s.translate a with
  | some .segment => true
  | some (.page _) | none => false

/-- The code of the page fault that Translate gives the byte, if it gives one. -/
def State.translatePage (s : State) (a : Qword) : Option (BitVec 32) :=
  match s.translate a with
  | some (.page c) => some c
  | some .segment | none => none

/-- The page-fault code of a data read: W/R (bit 1) and I/D (bit 4) are 0, U/S (bit 2) is 1 at privilege level 3; the
other bits are Translate's (60_exceptions.md R228). -/
def State.pageFaultCode (s : State) (c : BitVec 32) : BitVec 32 :=
  (c &&& ~~~(0x16#32)) ||| (if s.ctrl.cpl == 3#2 then 0x4#32 else 0#32)

/-- The alignment rule of a class (20_memory.md R56, R57, R58). -/
inductive AlignRule
  /-- No requirement: the VEX and EVEX forms. -/
  | any
  /-- A multiple of 16, else #GP(0): SSE128. -/
  | sse16
  /-- A multiple of 8 when AlignCheck holds, else #AC(0): MMX. -/
  | mmx8
  deriving DecidableEq, Repr

/-- The bytes of the operand that Translate answers with a page fault, as addresses. -/
def State.faultingBytes (s : State) (m : MemOp) (offs : List Nat) : List Qword :=
  (offs.map (s.linear m)).filter fun a => (s.translatePage a).isSome

/-- The #PF of an operand with a refused byte: the reported address is a free one of the refused bytes
(60_exceptions.md R228; log 10), the code is Translate's for it. -/
def State.pageFault (s : State) (bytes : List Qword) : Fault :=
  let a := bytes.getD (Config.pageFaultByte bytes % bytes.length) 0
  s.raise (.pf (s.pageFaultCode ((s.translatePage a).getD 0)) a)

/-- Segment checks, failing: #SS(0) through SS, else #GP(0) (60_exceptions.md R221). -/
def State.segmentFault (s : State) (m : MemOp) : Fault := s.raise (if m.seg = .ss then .ss else .gp)

/-- The checks of MemRead on the bytes `offs` of an operand, in the order of 60_exceptions.md R229 item 6 (log 14):
the segment and canonical checks, the 16-byte alignment of SSE128, #PF, #AC; then the presence of the bytes
(20_memory.md R64). In real mode a byte of an SSE128 operand beyond offset FFFFH is #GP(0) (R222; log 15).
With no byte to access there is no check. -/
def State.accessFault (s : State) (m : MemOp) (rule : AlignRule) (offs : List Nat) : Option Fault :=
  if rule = .sse16 ∧ s.cfg.mode = .real ∧ offs.any (fun o => decide (0xFFFF < (s.effAddr m.ea).toNat + o)) then
    some (s.raise .gp)
  else if offs.any (fun o => !s.segmentOk m o || s.translateSegment (s.linear m o)) then some (s.segmentFault m)
  else if rule = .sse16 ∧ (s.linear m 0).toNat % 16 ≠ 0 then some (s.raise .gp)
  else match s.faultingBytes m offs with
  | b :: bs => some (s.pageFault (b :: bs))
  | [] =>
    if rule = .mmx8 ∧ s.alignCheck ∧ (s.linear m 0).toNat % 8 ≠ 0 then some (s.raise .ac)
    else (offs.find? fun o => (s.mem.read (s.linear m o)).isNone).map fun o => .noMemory (s.linear m o) s.pc

/-- Byte `off` of an operand lies in no ordinary memory, and nothing refuses it (20_memory.md R64; log 11). -/
def State.outsideMem (s : State) (m : MemOp) (off : Nat) : Bool :=
  s.segmentOk m off && (s.translate (s.linear m off)).isNone && (s.mem.read (s.linear m off)).isNone

/-- An operand of `n` bytes of which some byte, accessed or not, lies in no ordinary memory is stuck: masked-off elements
may or may not be read (20_memory.md R64; 93_implementation_defined.md U4; log 11). -/
def State.stuck (s : State) (m : MemOp) (n : Nat) : Option Fault :=
  ((List.range n).find? (s.outsideMem m)).map fun o => .noMemory (s.linear m o) s.pc

/-- Byte `off` of an operand in memory. -/
def State.operandByte (s : State) (m : MemOp) (off : Nat) : Byte := (s.mem.read (s.linear m off)).getD 0

/-- The little-endian value of the first `n` bytes of an operand (20_memory.md R50, R51). -/
def State.operandValue (s : State) (W : Nat) (m : MemOp) (n : Nat) : BitVec W := packLanes W 8 (s.operandByte m) n

/-- `MemRead(addr, n)` as a W-bit value, W = 8n. -/
def State.memRead (s : State) (W : Nat) (m : MemOp) (rule : AlignRule) (n : Nat) : Except Fault (BitVec W) :=
  match s.accessFault m rule (List.range n) with
  | some x => .error x
  | none => .ok (s.operandValue W m n)

/-! ## The count -/

/-- COUNT of an MMX variable-count form: all 64 bits (40_shift_core.md R133). -/
def State.mmxCount (s : State) : RegMem MmReg → Except Fault Nat
  | .reg r => .ok (s.mmr r).toNat
  | .mem m => (s.memRead 64 m .mmx8 8).map BitVec.toNat

/-- COUNT_SRC[63:0] (40_shift_core.md R134). -/
def countOf {W : Nat} (src : BitVec W) : Nat := (src.extractLsb' 0 64).toNat

/-- COUNT of an SSE128, VEX or EVEX variable-count form: the low 64 bits of the 128-bit operand, of which all 16 bytes
are loaded when it is in memory (40_shift_core.md R134, 20_memory.md R54). -/
def State.xmmCount (s : State) (rule : AlignRule) : RegMem VReg → Except Fault Nat
  | .reg r => .ok (countOf (s.v r))
  | .mem m => (s.memRead 128 m rule 16).map countOf

/-- COUNT of an immediate-count form: zext_64(imm8) (40_shift_core.md R135). -/
def immCount (imm : Byte) : Nat := imm.toNat

/-! ## Masking and the data source of the EVEX forms -/

/-- `act(j)`: element `j` is written, nomask or k[j] = 1 (45_evex_imm.md). K[0] is not read when aaa = 000
(10_state.md R28). -/
def State.active (s : State) (k : Masking) (j : Nat) : Bool := k.aaa == 0 || bit (s.kr k.aaa) j

/-- The bytes of a full-width memory source that are accessed: all of them without fault suppression, else those of the
elements that are written (20_memory.md R62, 45_evex_imm.md). -/
def State.fullOffsets (s : State) (VL N : Nat) (k : Masking) : List Nat :=
  (List.range (VL / 8)).filter fun o => !s.cfg.faultSuppressF || s.active k (o / (N / 8))

/-- The bytes of a broadcast element that are accessed: none when no element is written and faults are suppressed
(60_exceptions.md R226). -/
def State.bcstOffsets (s : State) (VL N : Nat) (k : Masking) : List Nat :=
  if !s.cfg.faultSuppressF || (List.range (VL / N)).any (s.active k) then List.range (N / 8) else []

/-- The data source of a row F form (45_evex_imm.md): a register, a full vector in memory, or one element broadcast.
Only the accessed bytes are checked for faults; the whole operand has to be ordinary memory where nothing refuses it.
An element that is not accessed reads as 0; the value is never used. -/
def State.dataSource (s : State) (VL N : Nat) (k : Masking) : DataSrc → Except Fault (BitVec VL)
  | .reg r => .ok ((s.v r).setWidth VL)
  | .mem m =>
    let offs := s.fullOffsets VL N k
    match (s.accessFault m .any offs).or (s.stuck m (VL / 8)) with
    | some x => .error x
    | none => .ok (packLanes VL 8 (fun o => if offs.contains o then s.operandByte m o else 0) (VL / 8))
  | .bcst m =>
    let offs := s.bcstOffsets VL N k
    match (s.accessFault m .any offs).or (s.stuck m (N / 8)) with
    | some x => .error x
    | none => .ok (bcast VL N (packLanes N 8 (fun o => if offs.contains o then s.operandByte m o else 0) (N / 8)))

/-- The data source of a row E form (VPSLLW immediate): a register, or the whole vector in memory whatever the mask
(20_memory.md R62). -/
def State.wholeSource (s : State) (VL : Nat) : RegMem VReg → Except Fault (BitVec VL)
  | .reg r => .ok ((s.v r).setWidth VL)
  | .mem m => s.memRead VL m .any (VL / 8)

end Sys2Proof.Machine
end

