-- ==== Sys2Proof/Machine/Vector.lean ====
section
/-! DEFINITION. What the forms of one class share: the class pseudocode of 41_mmx.md to 45_evex_imm.md, with the element
width N, the operand width W or VL and the form as arguments. Each makes the checks of 60_exceptions.md R229, reads its
operands, and then writes the destination and pc (20_memory.md R71). -/

namespace Sys2Proof.Machine

/-- The outcomes of one instruction. -/
abbrev Result := Host.Outcome State Fault Refusal

/-- Runs `body` on what the operand reads gave, unless a check or a read raises an exception. -/
def State.withOperand {α : Type} (s : State) (f : Form) (operand : Except Fault α) (body : α → State) : Result :=
  match s.formFault f with
  | some x => .fault x
  | none =>
    match operand with
    | .error x => .fault x
    | .ok a => .next (body a)

/-! ## The writes -/

/-- MMX: `MM[dst] <- a`, `X87 <- X87Effect(X87, dst)`, `pc <- pc + len` (40_shift_core.md R143, 41_mmx.md). -/
def State.writeMmx (s : State) (dst : MmReg) (a : Qword) : State := ((s.setMM dst a).x87Effect dst).advance

/-- SSE128: bits 127:0 are written, bits MAXVL-1:128 kept (40_shift_core.md R141). -/
def State.writeSse (s : State) (dst : VReg) (a : BitVec 128) : State :=
  (s.setV dst (((s.v dst).extractLsb' 128 384 ++ a : BitVec (384 + 128)))).advance

/-- VEX and EVEX: bits W-1:0 are written, bits MAXVL-1:W zeroed (40_shift_core.md R142). -/
def State.writeZeroUpper (s : State) {W : Nat} (dst : VReg) (a : BitVec W) : State := (s.setV dst (a.setWidth 512)).advance

/-- EVEX: the masked result of `tmp` over the old destination (40_shift_core.md R140), bits MAXVL-1:VL zeroed. -/
def State.writeMasked (s : State) (VL N : Nat) (dst : VReg) (k : Masking) (tmp : BitVec VL) : State :=
  s.writeZeroUpper dst (maskWrite VL N tmp ((s.v dst).setWidth VL) (s.kr k.aaa) (k.aaa == 0) k.z)

/-! ## The classes -/

/-- MMX, with the count given by `count` (41_mmx.md R150 to R155). -/
def mmxShift (N : Nat) (f : Form) (dst : MmReg) (count : State → Except Fault Nat) (s : State) : Result :=
  s.withOperand f (count s) fun c => s.writeMmx dst (psll 64 N (s.mmr dst) c)

/-- SSE128 (42_sse128.md R160 to R165). -/
def sseShift (N : Nat) (f : Form) (dst : VReg) (count : State → Except Fault Nat) (s : State) : Result :=
  s.withOperand f (count s) fun c => s.writeSse dst (psll 128 N ((s.v dst).setWidth 128) c)

/-- VEX.128 and VEX.256 (43_vex.md R170 to R181). -/
def vexShift (W N : Nat) (f : Form) (dst src : VReg) (count : State → Except Fault Nat) (s : State) : Result :=
  s.withOperand f (count s) fun c => s.writeZeroUpper dst (psll W N ((s.v src).setWidth W) c)

/-- EVEX variable count (44_evex_var.md R190 to R198). -/
def evexShift (VL N : Nat) (f : Form) (dst : VReg) (k : Masking) (src : VReg) (cnt : RegMem VReg) (s : State) : Result :=
  s.withOperand f (s.xmmCount .any cnt) fun c => s.writeMasked VL N dst k (psll VL N ((s.v src).setWidth VL) c)

/-- EVEX immediate count, with the data source given by `source` (45_evex_imm.md R205 to R213). -/
def evexImmShift (VL N : Nat) (f : Form) (dst : VReg) (k : Masking) (source : State → Except Fault (BitVec VL)) (imm : Byte)
    (s : State) : Result :=
  s.withOperand f (source s) fun src => s.writeMasked VL N dst k (psll VL N src (immCount imm))

end Sys2Proof.Machine
end

