-- ==== Sys2Proof/Machine/EvexImm.lean ====
section
/-! DEFINITION. The EVEX-encoded immediate-count forms (45_evex_imm.md): write-masked; the data may be in memory. -/

namespace Sys2Proof.Machine

/-- VPSLLW xmm1 {k1}{z}, xmm2/m128, imm8 (45_evex_imm.md R205). -/
def execEvex128PsllwImm (dst : VReg) (msk : Masking) (src : RegMem VReg) (imm : Byte) (s : State) : Result :=
  evexImmShift 128 16 (.evex .v128 .w .imm) dst msk (fun s => s.wholeSource 128 src) imm s

/-- VPSLLW ymm1 {k1}{z}, ymm2/m256, imm8 (45_evex_imm.md R206). -/
def execEvex256PsllwImm (dst : VReg) (msk : Masking) (src : RegMem VReg) (imm : Byte) (s : State) : Result :=
  evexImmShift 256 16 (.evex .v256 .w .imm) dst msk (fun s => s.wholeSource 256 src) imm s

/-- VPSLLW zmm1 {k1}{z}, zmm2/m512, imm8 (45_evex_imm.md R207). -/
def execEvex512PsllwImm (dst : VReg) (msk : Masking) (src : RegMem VReg) (imm : Byte) (s : State) : Result :=
  evexImmShift 512 16 (.evex .v512 .w .imm) dst msk (fun s => s.wholeSource 512 src) imm s

/-- VPSLLD xmm1 {k1}{z}, xmm2/m128/m32bcst, imm8 (45_evex_imm.md R208). -/
def execEvex128PslldImm (dst : VReg) (msk : Masking) (src : DataSrc) (imm : Byte) (s : State) : Result :=
  evexImmShift 128 32 (.evex .v128 .d .imm) dst msk (fun s => s.dataSource 128 32 msk src) imm s

/-- VPSLLD ymm1 {k1}{z}, ymm2/m256/m32bcst, imm8 (45_evex_imm.md R209). -/
def execEvex256PslldImm (dst : VReg) (msk : Masking) (src : DataSrc) (imm : Byte) (s : State) : Result :=
  evexImmShift 256 32 (.evex .v256 .d .imm) dst msk (fun s => s.dataSource 256 32 msk src) imm s

/-- VPSLLD zmm1 {k1}{z}, zmm2/m512/m32bcst, imm8 (45_evex_imm.md R210). -/
def execEvex512PslldImm (dst : VReg) (msk : Masking) (src : DataSrc) (imm : Byte) (s : State) : Result :=
  evexImmShift 512 32 (.evex .v512 .d .imm) dst msk (fun s => s.dataSource 512 32 msk src) imm s

/-- VPSLLQ xmm1 {k1}{z}, xmm2/m128/m64bcst, imm8 (45_evex_imm.md R211). -/
def execEvex128PsllqImm (dst : VReg) (msk : Masking) (src : DataSrc) (imm : Byte) (s : State) : Result :=
  evexImmShift 128 64 (.evex .v128 .q .imm) dst msk (fun s => s.dataSource 128 64 msk src) imm s

/-- VPSLLQ ymm1 {k1}{z}, ymm2/m256/m64bcst, imm8 (45_evex_imm.md R212). -/
def execEvex256PsllqImm (dst : VReg) (msk : Masking) (src : DataSrc) (imm : Byte) (s : State) : Result :=
  evexImmShift 256 64 (.evex .v256 .q .imm) dst msk (fun s => s.dataSource 256 64 msk src) imm s

/-- VPSLLQ zmm1 {k1}{z}, zmm2/m512/m64bcst, imm8 (45_evex_imm.md R213). -/
def execEvex512PsllqImm (dst : VReg) (msk : Masking) (src : DataSrc) (imm : Byte) (s : State) : Result :=
  evexImmShift 512 64 (.evex .v512 .q .imm) dst msk (fun s => s.dataSource 512 64 msk src) imm s

end Sys2Proof.Machine
end

