-- ==== Sys2Proof/Machine/EvexVar.lean ====
section
/-! DEFINITION. The EVEX-encoded variable-count forms (44_evex_var.md): write-masked, bits above the vector length zeroed. -/

namespace Sys2Proof.Machine

/-- VPSLLW xmm1 {k1}{z}, xmm2, xmm3/m128 (44_evex_var.md R190). -/
def execEvex128PsllwRm (dst : VReg) (msk : Masking) (src : VReg) (cnt : RegMem VReg) (s : State) : Result :=
  evexShift 128 16 (.evex .v128 .w .var) dst msk src cnt s

/-- VPSLLW ymm1 {k1}{z}, ymm2, xmm3/m128 (44_evex_var.md R191). -/
def execEvex256PsllwRm (dst : VReg) (msk : Masking) (src : VReg) (cnt : RegMem VReg) (s : State) : Result :=
  evexShift 256 16 (.evex .v256 .w .var) dst msk src cnt s

/-- VPSLLW zmm1 {k1}{z}, zmm2, xmm3/m128 (44_evex_var.md R192). -/
def execEvex512PsllwRm (dst : VReg) (msk : Masking) (src : VReg) (cnt : RegMem VReg) (s : State) : Result :=
  evexShift 512 16 (.evex .v512 .w .var) dst msk src cnt s

/-- VPSLLD xmm1 {k1}{z}, xmm2, xmm3/m128 (44_evex_var.md R193). -/
def execEvex128PslldRm (dst : VReg) (msk : Masking) (src : VReg) (cnt : RegMem VReg) (s : State) : Result :=
  evexShift 128 32 (.evex .v128 .d .var) dst msk src cnt s

/-- VPSLLD ymm1 {k1}{z}, ymm2, xmm3/m128 (44_evex_var.md R194). -/
def execEvex256PslldRm (dst : VReg) (msk : Masking) (src : VReg) (cnt : RegMem VReg) (s : State) : Result :=
  evexShift 256 32 (.evex .v256 .d .var) dst msk src cnt s

/-- VPSLLD zmm1 {k1}{z}, zmm2, xmm3/m128 (44_evex_var.md R195). -/
def execEvex512PslldRm (dst : VReg) (msk : Masking) (src : VReg) (cnt : RegMem VReg) (s : State) : Result :=
  evexShift 512 32 (.evex .v512 .d .var) dst msk src cnt s

/-- VPSLLQ xmm1 {k1}{z}, xmm2, xmm3/m128 (44_evex_var.md R196). -/
def execEvex128PsllqRm (dst : VReg) (msk : Masking) (src : VReg) (cnt : RegMem VReg) (s : State) : Result :=
  evexShift 128 64 (.evex .v128 .q .var) dst msk src cnt s

/-- VPSLLQ ymm1 {k1}{z}, ymm2, xmm3/m128 (44_evex_var.md R197). -/
def execEvex256PsllqRm (dst : VReg) (msk : Masking) (src : VReg) (cnt : RegMem VReg) (s : State) : Result :=
  evexShift 256 64 (.evex .v256 .q .var) dst msk src cnt s

/-- VPSLLQ zmm1 {k1}{z}, zmm2, xmm3/m128 (44_evex_var.md R198). -/
def execEvex512PsllqRm (dst : VReg) (msk : Masking) (src : VReg) (cnt : RegMem VReg) (s : State) : Result :=
  evexShift 512 64 (.evex .v512 .q .var) dst msk src cnt s

end Sys2Proof.Machine
end

