-- ==== Sys2Proof/Machine/Mmx.lean ====
section
/-! DEFINITION. The MMX forms (41_mmx.md): a 64-bit operand, the destination also the data. -/

namespace Sys2Proof.Machine

/-- PSLLW mm, mm/m64 (41_mmx.md R150). -/
def execMmxPsllwRm (dst : MmReg) (cnt : RegMem MmReg) (s : State) : Result :=
  mmxShift 16 (.mmx .w .var) dst (fun s => s.mmxCount cnt) s

/-- PSLLW mm, imm8 (41_mmx.md R151). -/
def execMmxPsllwImm (dst : MmReg) (imm : Byte) (s : State) : Result :=
  mmxShift 16 (.mmx .w .imm) dst (fun _ => .ok (immCount imm)) s

/-- PSLLD mm, mm/m64 (41_mmx.md R152). -/
def execMmxPslldRm (dst : MmReg) (cnt : RegMem MmReg) (s : State) : Result :=
  mmxShift 32 (.mmx .d .var) dst (fun s => s.mmxCount cnt) s

/-- PSLLD mm, imm8 (41_mmx.md R153). -/
def execMmxPslldImm (dst : MmReg) (imm : Byte) (s : State) : Result :=
  mmxShift 32 (.mmx .d .imm) dst (fun _ => .ok (immCount imm)) s

/-- PSLLQ mm, mm/m64 (41_mmx.md R154). -/
def execMmxPsllqRm (dst : MmReg) (cnt : RegMem MmReg) (s : State) : Result :=
  mmxShift 64 (.mmx .q .var) dst (fun s => s.mmxCount cnt) s

/-- PSLLQ mm, imm8 (41_mmx.md R155). -/
def execMmxPsllqImm (dst : MmReg) (imm : Byte) (s : State) : Result :=
  mmxShift 64 (.mmx .q .imm) dst (fun _ => .ok (immCount imm)) s

end Sys2Proof.Machine
end

