-- ==== Sys2Proof/Machine/Sse128.lean ====
section
/-! DEFINITION. The legacy SSE 128-bit forms (42_sse128.md): the destination also the data, bits MAXVL-1:128 kept. -/

namespace Sys2Proof.Machine

/-- PSLLW xmm1, xmm2/m128 (42_sse128.md R160). -/
def execSsePsllwRm (dst : VReg) (cnt : RegMem VReg) (s : State) : Result :=
  sseShift 16 (.sse .w .var) dst (fun s => s.xmmCount .sse16 cnt) s

/-- PSLLW xmm1, imm8 (42_sse128.md R161). -/
def execSsePsllwImm (dst : VReg) (imm : Byte) (s : State) : Result :=
  sseShift 16 (.sse .w .imm) dst (fun _ => .ok (immCount imm)) s

/-- PSLLD xmm1, xmm2/m128 (42_sse128.md R162). -/
def execSsePslldRm (dst : VReg) (cnt : RegMem VReg) (s : State) : Result :=
  sseShift 32 (.sse .d .var) dst (fun s => s.xmmCount .sse16 cnt) s

/-- PSLLD xmm1, imm8 (42_sse128.md R163). -/
def execSsePslldImm (dst : VReg) (imm : Byte) (s : State) : Result :=
  sseShift 32 (.sse .d .imm) dst (fun _ => .ok (immCount imm)) s

/-- PSLLQ xmm1, xmm2/m128 (42_sse128.md R164). -/
def execSsePsllqRm (dst : VReg) (cnt : RegMem VReg) (s : State) : Result :=
  sseShift 64 (.sse .q .var) dst (fun s => s.xmmCount .sse16 cnt) s

/-- PSLLQ xmm1, imm8 (42_sse128.md R165). -/
def execSsePsllqImm (dst : VReg) (imm : Byte) (s : State) : Result :=
  sseShift 64 (.sse .q .imm) dst (fun _ => .ok (immCount imm)) s

end Sys2Proof.Machine
end

