-- ==== Sys2Proof/Machine/Vex.lean ====
section
/-! DEFINITION. The VEX-encoded forms (43_vex.md): three operands, bits above the vector length zeroed. -/

namespace Sys2Proof.Machine

/-- VPSLLW xmm1, xmm2, xmm3/m128 (43_vex.md R170). -/
def execVex128PsllwRm (dst src : VReg) (cnt : RegMem VReg) (s : State) : Result :=
  vexShift 128 16 (.vex .v128 .w .var) dst src (fun s => s.xmmCount .any cnt) s

/-- VPSLLW xmm1, xmm2, imm8 (43_vex.md R171). -/
def execVex128PsllwImm (dst src : VReg) (imm : Byte) (s : State) : Result :=
  vexShift 128 16 (.vex .v128 .w .imm) dst src (fun _ => .ok (immCount imm)) s

/-- VPSLLD xmm1, xmm2, xmm3/m128 (43_vex.md R172). -/
def execVex128PslldRm (dst src : VReg) (cnt : RegMem VReg) (s : State) : Result :=
  vexShift 128 32 (.vex .v128 .d .var) dst src (fun s => s.xmmCount .any cnt) s

/-- VPSLLD xmm1, xmm2, imm8 (43_vex.md R173). -/
def execVex128PslldImm (dst src : VReg) (imm : Byte) (s : State) : Result :=
  vexShift 128 32 (.vex .v128 .d .imm) dst src (fun _ => .ok (immCount imm)) s

/-- VPSLLQ xmm1, xmm2, xmm3/m128 (43_vex.md R174). -/
def execVex128PsllqRm (dst src : VReg) (cnt : RegMem VReg) (s : State) : Result :=
  vexShift 128 64 (.vex .v128 .q .var) dst src (fun s => s.xmmCount .any cnt) s

/-- VPSLLQ xmm1, xmm2, imm8 (43_vex.md R175). -/
def execVex128PsllqImm (dst src : VReg) (imm : Byte) (s : State) : Result :=
  vexShift 128 64 (.vex .v128 .q .imm) dst src (fun _ => .ok (immCount imm)) s

/-- VPSLLW ymm1, ymm2, xmm3/m128 (43_vex.md R176). -/
def execVex256PsllwRm (dst src : VReg) (cnt : RegMem VReg) (s : State) : Result :=
  vexShift 256 16 (.vex .v256 .w .var) dst src (fun s => s.xmmCount .any cnt) s

/-- VPSLLW ymm1, ymm2, imm8 (43_vex.md R177). -/
def execVex256PsllwImm (dst src : VReg) (imm : Byte) (s : State) : Result :=
  vexShift 256 16 (.vex .v256 .w .imm) dst src (fun _ => .ok (immCount imm)) s

/-- VPSLLD ymm1, ymm2, xmm3/m128 (43_vex.md R178). -/
def execVex256PslldRm (dst src : VReg) (cnt : RegMem VReg) (s : State) : Result :=
  vexShift 256 32 (.vex .v256 .d .var) dst src (fun s => s.xmmCount .any cnt) s

/-- VPSLLD ymm1, ymm2, imm8 (43_vex.md R179). -/
def execVex256PslldImm (dst src : VReg) (imm : Byte) (s : State) : Result :=
  vexShift 256 32 (.vex .v256 .d .imm) dst src (fun _ => .ok (immCount imm)) s

/-- VPSLLQ ymm1, ymm2, xmm3/m128 (43_vex.md R180). -/
def execVex256PsllqRm (dst src : VReg) (cnt : RegMem VReg) (s : State) : Result :=
  vexShift 256 64 (.vex .v256 .q .var) dst src (fun s => s.xmmCount .any cnt) s

/-- VPSLLQ ymm1, ymm2, imm8 (43_vex.md R181). -/
def execVex256PsllqImm (dst src : VReg) (imm : Byte) (s : State) : Result :=
  vexShift 256 64 (.vex .v256 .q .imm) dst src (fun _ => .ok (immCount imm)) s

end Sys2Proof.Machine
end

