-- ==== Sys2Proof/Machine/Dispatch.lean ====
section
/-! DEFINITION. One arm per constructor of `Instr`: the meaning of each instruction. -/

namespace Sys2Proof.Machine

def exec (i : Instr) (s : State) : Host.Outcome State Fault Refusal :=
  match i with
  | .mmxPsllwRm dst cnt => Sys2Proof.Machine.execMmxPsllwRm dst cnt s
  | .mmxPsllwImm dst imm => Sys2Proof.Machine.execMmxPsllwImm dst imm s
  | .mmxPslldRm dst cnt => Sys2Proof.Machine.execMmxPslldRm dst cnt s
  | .mmxPslldImm dst imm => Sys2Proof.Machine.execMmxPslldImm dst imm s
  | .mmxPsllqRm dst cnt => Sys2Proof.Machine.execMmxPsllqRm dst cnt s
  | .mmxPsllqImm dst imm => Sys2Proof.Machine.execMmxPsllqImm dst imm s
  | .ssePsllwRm dst cnt => Sys2Proof.Machine.execSsePsllwRm dst cnt s
  | .ssePsllwImm dst imm => Sys2Proof.Machine.execSsePsllwImm dst imm s
  | .ssePslldRm dst cnt => Sys2Proof.Machine.execSsePslldRm dst cnt s
  | .ssePslldImm dst imm => Sys2Proof.Machine.execSsePslldImm dst imm s
  | .ssePsllqRm dst cnt => Sys2Proof.Machine.execSsePsllqRm dst cnt s
  | .ssePsllqImm dst imm => Sys2Proof.Machine.execSsePsllqImm dst imm s
  | .vex128PsllwRm dst src cnt => Sys2Proof.Machine.execVex128PsllwRm dst src cnt s
  | .vex128PsllwImm dst src imm => Sys2Proof.Machine.execVex128PsllwImm dst src imm s
  | .vex128PslldRm dst src cnt => Sys2Proof.Machine.execVex128PslldRm dst src cnt s
  | .vex128PslldImm dst src imm => Sys2Proof.Machine.execVex128PslldImm dst src imm s
  | .vex128PsllqRm dst src cnt => Sys2Proof.Machine.execVex128PsllqRm dst src cnt s
  | .vex128PsllqImm dst src imm => Sys2Proof.Machine.execVex128PsllqImm dst src imm s
  | .vex256PsllwRm dst src cnt => Sys2Proof.Machine.execVex256PsllwRm dst src cnt s
  | .vex256PsllwImm dst src imm => Sys2Proof.Machine.execVex256PsllwImm dst src imm s
  | .vex256PslldRm dst src cnt => Sys2Proof.Machine.execVex256PslldRm dst src cnt s
  | .vex256PslldImm dst src imm => Sys2Proof.Machine.execVex256PslldImm dst src imm s
  | .vex256PsllqRm dst src cnt => Sys2Proof.Machine.execVex256PsllqRm dst src cnt s
  | .vex256PsllqImm dst src imm => Sys2Proof.Machine.execVex256PsllqImm dst src imm s
  | .evex128PsllwRm dst msk src cnt => Sys2Proof.Machine.execEvex128PsllwRm dst msk src cnt s
  | .evex256PsllwRm dst msk src cnt => Sys2Proof.Machine.execEvex256PsllwRm dst msk src cnt s
  | .evex512PsllwRm dst msk src cnt => Sys2Proof.Machine.execEvex512PsllwRm dst msk src cnt s
  | .evex128PslldRm dst msk src cnt => Sys2Proof.Machine.execEvex128PslldRm dst msk src cnt s
  | .evex256PslldRm dst msk src cnt => Sys2Proof.Machine.execEvex256PslldRm dst msk src cnt s
  | .evex512PslldRm dst msk src cnt => Sys2Proof.Machine.execEvex512PslldRm dst msk src cnt s
  | .evex128PsllqRm dst msk src cnt => Sys2Proof.Machine.execEvex128PsllqRm dst msk src cnt s
  | .evex256PsllqRm dst msk src cnt => Sys2Proof.Machine.execEvex256PsllqRm dst msk src cnt s
  | .evex512PsllqRm dst msk src cnt => Sys2Proof.Machine.execEvex512PsllqRm dst msk src cnt s
  | .evex128PsllwImm dst msk src imm => Sys2Proof.Machine.execEvex128PsllwImm dst msk src imm s
  | .evex256PsllwImm dst msk src imm => Sys2Proof.Machine.execEvex256PsllwImm dst msk src imm s
  | .evex512PsllwImm dst msk src imm => Sys2Proof.Machine.execEvex512PsllwImm dst msk src imm s
  | .evex128PslldImm dst msk src imm => Sys2Proof.Machine.execEvex128PslldImm dst msk src imm s
  | .evex256PslldImm dst msk src imm => Sys2Proof.Machine.execEvex256PslldImm dst msk src imm s
  | .evex512PslldImm dst msk src imm => Sys2Proof.Machine.execEvex512PslldImm dst msk src imm s
  | .evex128PsllqImm dst msk src imm => Sys2Proof.Machine.execEvex128PsllqImm dst msk src imm s
  | .evex256PsllqImm dst msk src imm => Sys2Proof.Machine.execEvex256PsllqImm dst msk src imm s
  | .evex512PsllqImm dst msk src imm => Sys2Proof.Machine.execEvex512PsllqImm dst msk src imm s

end Sys2Proof.Machine
end

