-- ==== Sys2Proof/Decode.lean ====
section
/-! DEFINITION. The decoder (30_encoding.md R122, total on any bytes), then the encoder, both written from the encoding
tables of 30_encoding.md; and the 24-bit keys of spec/opcode_table.json (R108). -/

namespace Sys2Proof

/-! ## Outcomes of decoding that are no instruction -/

/-- Why bytes give no instruction (30_encoding.md R112, R113, R122). The first two are exceptions of the machine; the
others are refusals: the spec gives the bytes no meaning. -/
inductive Reject
  /-- #UD: an illegal encoding (R112). -/
  | ud
  /-- #GP(0): the instruction is longer than 15 bytes (R116). -/
  | gpLength
  /-- The bytes spell another instruction, or none (R113). -/
  | notInFamily
  /-- F2 or F3 before a legacy form (R112; 93_implementation_defined.md U1). -/
  | repPrefix
  /-- A VEX or EVEX register number above 7 outside 64-bit mode (R94; 92_eei_decisions.md D3; 93_implementation_defined.md
  U8). -/
  | highRegister
  /-- The bytes end before the instruction does. -/
  | truncated
  deriving DecidableEq, Repr

/-! ## Prefixes (R82, R83) -/

/-- What the prefixes before the opcode said. -/
structure Prefixes where
  /-- 66 was seen. -/
  opsize : Bool := false
  /-- F2 or F3 was seen. -/
  rep : Bool := false
  /-- F0 was seen. -/
  lock : Bool := false
  /-- 67 was seen. -/
  asize : Bool := false
  /-- The last segment override. -/
  seg : Option SegReg := none
  /-- The REX byte that stands immediately before the opcode. -/
  rex : Option Byte := none
  deriving DecidableEq, Repr

/-- The segment-override bytes (R82). -/
def segOfByte (b : Byte) : Option SegReg :=
  if b = 0x2E#8 then some .cs
  else if b = 0x36#8 then some .ss
  else if b = 0x3E#8 then some .ds
  else if b = 0x26#8 then some .es
  else if b = 0x64#8 then some .fs
  else if b = 0x65#8 then some .gs
  else none

/-- One legacy prefix byte, or `none` if `b` is not one. A REX prefix before it is ignored (R83). -/
def Prefixes.add (p : Prefixes) (b : Byte) : Option Prefixes :=
  if b = 0x66#8 then some { p with opsize := true, rex := none }
  else if b = 0xF2#8 ∨ b = 0xF3#8 then some { p with rep := true, rex := none }
  else if b = 0xF0#8 then some { p with lock := true, rex := none }
  else if b = 0x67#8 then some { p with asize := true, rex := none }
  else match segOfByte b with
    | some g => some { p with seg := some g, rex := none }
    | none => none

/-- A byte 40 to 4F (R83). -/
def isRex (b : Byte) : Bool := b.extractLsb' 4 4 == 4#4

/-- Steps 1 and 2 of R122: the prefixes, and the bytes from the first that is none on. REX is a prefix in 64-bit mode only. -/
def scanPrefixes (is64 : Bool) : Prefixes → List Byte → Prefixes × List Byte
  | p, [] => (p, [])
  | p, b :: bs =>
    match p.add b with
    | some p' => scanPrefixes is64 p' bs
    | none => if is64 && isRex b && p.rex.isNone then scanPrefixes is64 { p with rex := some b } bs else (p, b :: bs)

/-- A bit of the REX byte: 2 is R, 1 is X, 0 is B (R83). -/
def Prefixes.rexBit (p : Prefixes) (i : Nat) : Bool :=
  match p.rex with
  | some b => bit b i
  | none => false

/-- 66, F2, F3, F0 or REX: #UD before a VEX or EVEX prefix (R112, R122 step 4). -/
def Prefixes.clash (p : Prefixes) : Bool := p.opsize || p.rep || p.lock || p.rex.isSome

/-! ## ModRM, SIB, displacement (R85, R86, R87) -/

/-- The fields of the ModRM byte (R85). -/
structure ModRM where
  mod : BitVec 2
  reg : BitVec 3
  rm : BitVec 3
  deriving DecidableEq, Repr

/-- The ModRM fields of a byte. -/
def ModRM.ofByte (b : Byte) : ModRM := ⟨b.extractLsb' 6 2, b.extractLsb' 3 3, b.extractLsb' 0 3⟩

/-- The byte of the ModRM fields. -/
def ModRM.toByte (r : ModRM) : Byte := r.mod ++ r.reg ++ r.rm

/-- A register number from its extension bits and the three bits of ModRM or SIB (R92, R93, R94). -/
def vregOf (hi1 hi0 : Bool) (low : BitVec 3) : VReg := (BitVec.ofBool hi1 ++ BitVec.ofBool hi0 ++ low).toFin

/-- A general register number from its extension bit and three bits (R95). -/
def gregOf (hi : Bool) (low : BitVec 3) : GReg := (BitVec.ofBool hi ++ low).toFin

/-- An MMX register number: three bits, never extended (R92; 10_state.md R26). -/
def mmregOf (low : BitVec 3) : MmReg := low.toFin

/-- Address sizes. -/
inductive AddrSize
  | a16 | a32 | a64
  deriving DecidableEq, Repr

/-- The address size: 64 in 64-bit mode (32 with prefix 67), 32 in a 32-bit code segment (16 with 67), 16 in the 16-bit
modes (32 with 67) (R95, R96, R117). -/
def addrSize (m : Mode) (asize : Bool) : AddrSize :=
  if m.is64 then (if asize then .a32 else .a64)
  else if m.is32 then (if asize then .a16 else .a32)
  else (if asize then .a32 else .a16)

/-- The default segment: SS when the base register is RSP, RBP or BP, DS otherwise (R97). -/
def EffAddr.defaultSeg : EffAddr → SegReg
  | .a16 .bpsi _ | .a16 .bpdi _ | .a16 .bp _ => .ss
  | .a16 _ _ => .ds
  | .wide _ (.gpr r) _ _ _ => if r = 4 ∨ r = 5 then .ss else .ds
  | .wide _ _ _ _ _ => .ds

/-- A little-endian 32-bit displacement (R87). -/
def readLe32 : List Byte → Except Reject (BitVec 32 × List Byte)
  | b0 :: b1 :: b2 :: b3 :: bs => .ok (b3 ++ b2 ++ b1 ++ b0, bs)
  | _ => .error .truncated

/-- A little-endian 16-bit displacement (R87). -/
def readLe16 : List Byte → Except Reject (BitVec 16 × List Byte)
  | b0 :: b1 :: bs => .ok (b1 ++ b0, bs)
  | _ => .error .truncated

/-- disp8, sign-extended to `w` bits and multiplied by `n` (R87, R98; `n` is 1 outside the EVEX forms). -/
def disp8 (w n : Nat) (b : Byte) : BitVec w := b.signExtend w * BitVec.ofNat w n

/-- The displacement that mod calls for with a base register: none, disp8 or disp32 (R87). -/
def readDisp (n : Nat) (mod : BitVec 2) (bs : List Byte) : Except Reject (BitVec 32 × List Byte) :=
  if mod = 0#2 then .ok (0#32, bs)
  else if mod = 1#2 then
    match bs with
    | b :: bs => .ok (disp8 32 n b, bs)
    | [] => .error .truncated
  else readLe32 bs

/-- The index of a SIB byte; the 4-bit number 0100 is "no index" (R95). -/
def indexOf (xext : Bool) (field : BitVec 3) : Option GReg :=
  let r := gregOf xext field
  if r = 4 then none else some r

/-- The effective address of R95: `xext`, `bext` are the extension bits, `n` the factor of R98. -/
def readWide (m : Mode) (is64 xext bext : Bool) (n : Nat) (r : ModRM) (bs : List Byte) :
    Except Reject (EffAddr × List Byte) :=
  if r.rm = 4#3 then
    match bs with
    | [] => .error .truncated
    | sib :: bs =>
      let index := indexOf xext (sib.extractLsb' 3 3)
      let scale : Fin 4 := if index.isNone then 0 else (sib.extractLsb' 6 2).toFin
      if sib.extractLsb' 0 3 = 5#3 ∧ r.mod = 0#2 then
        (readLe32 bs).map fun (d, bs) => (.wide is64 .none index scale d, bs)
      else
        (readDisp n r.mod bs).map fun (d, bs) => (.wide is64 (.gpr (gregOf bext (sib.extractLsb' 0 3))) index scale d, bs)
  else if r.mod = 0#2 ∧ r.rm = 5#3 then
    (readLe32 bs).map fun (d, bs) => (.wide is64 (if m.is64 then .rip else .none) none 0 d, bs)
  else
    (readDisp n r.mod bs).map fun (d, bs) => (.wide is64 (.gpr (gregOf bext r.rm)) none 0 d, bs)

/-- The register part of R96's table for mod = 01 and 10. -/
def base16Of (rm : BitVec 3) : Base16 :=
  if rm = 0#3 then .bxsi
  else if rm = 1#3 then .bxdi
  else if rm = 2#3 then .bpsi
  else if rm = 3#3 then .bpdi
  else if rm = 4#3 then .si
  else if rm = 5#3 then .di
  else if rm = 6#3 then .bp
  else .bx

/-- The effective address of R96. -/
def readA16 (n : Nat) (r : ModRM) (bs : List Byte) : Except Reject (EffAddr × List Byte) :=
  if r.mod = 0#2 then
    if r.rm = 6#3 then (readLe16 bs).map fun (d, bs) => (.a16 .none d, bs)
    else .ok (.a16 (base16Of r.rm) 0#16, bs)
  else if r.mod = 1#2 then
    match bs with
    | b :: bs => .ok (.a16 (base16Of r.rm) (disp8 16 n b), bs)
    | [] => .error .truncated
  else (readLe16 bs).map fun (d, bs) => (.a16 (base16Of r.rm) d, bs)

/-- The memory operand of ModRM with mod ≠ 11: the effective address and the segment that is used (R95, R96, R97). -/
def readMem (m : Mode) (p : Prefixes) (xext bext : Bool) (n : Nat) (r : ModRM) (bs : List Byte) :
    Except Reject (MemOp × List Byte) :=
  Except.map (fun x : EffAddr × List Byte => (⟨p.seg.getD x.1.defaultSeg, x.1⟩, x.2)) <|
    match addrSize m p.asize with
    | .a16 => readA16 n r bs
    | .a32 => readWide m false xext bext n r bs
    | .a64 => readWide m true xext bext n r bs

/-- The r/m operand: the register `reg`, or memory (R85). -/
def readRm {α : Type} (m : Mode) (p : Prefixes) (xext bext : Bool) (n : Nat) (r : ModRM) (reg : α) (bs : List Byte) :
    Except Reject (RegMem α × List Byte) :=
  if r.mod = 3#2 then .ok (.reg reg, bs)
  else (readMem m p xext bext n r bs).map fun (a, bs) => (.mem a, bs)

/-- The immediate byte, the last byte of the instruction (R88). -/
def readImm : List Byte → Except Reject (Byte × List Byte)
  | b :: bs => .ok (b, bs)
  | [] => .error .truncated

/-! ## The opcode map (R107, R108) -/

/-- The encoding class with what selects a row in it: the 66 prefix, L, or L'L (R108, R109, R111). -/
inductive EncClass
  | legacy (p66 : Bool)
  | vex (l : Bool)
  | evex (l : VLen)
  deriving DecidableEq, Repr

/-- The opcode bytes of the family (R84): element width and count kind. -/
def opcodeOf (b : Byte) : Option (Elem × CountKind) :=
  if b = 0xF1#8 then some (.w, .var)
  else if b = 0xF2#8 then some (.d, .var)
  else if b = 0xF3#8 then some (.q, .var)
  else if b = 0x71#8 then some (.w, .imm)
  else if b = 0x72#8 then some (.d, .imm)
  else if b = 0x73#8 then some (.q, .imm)
  else none

/-- The form of a class, element width and count kind (R107). -/
def EncClass.form : EncClass → Elem → CountKind → Form
  | .legacy false, e, c => .mmx e c
  | .legacy true, e, c => .sse e c
  | .vex false, e, c => .vex .v128 e c
  | .vex true, e, c => .vex .v256 e c
  | .evex l, e, c => .evex l e c

/-- The classes whose immediate forms take a register r/m operand only (R101, R103). -/
def EncClass.immRegOnly : EncClass → Bool
  | .legacy _ | .vex _ => true
  | .evex _ => false

/-- Step 5 of R122: the row of the opcode map, by class, opcode and ModRM. -/
def selectForm (c : EncClass) (op : Byte) (r : ModRM) : Option Form :=
  match opcodeOf op with
  | none => none
  | some (e, .var) => some (c.form e .var)
  | some (e, .imm) => if r.reg = 6#3 ∧ (c.immRegOnly → r.mod = 3#2) then some (c.form e .imm) else none

/-- No row fits: #UD for an immediate form with a memory operand in a class that has none (R112), else another
instruction (R113). -/
def noRow (c : EncClass) (op : Byte) (r : ModRM) : Reject :=
  match opcodeOf op with
  | some (_, .imm) => if c.immRegOnly ∧ r.reg = 6#3 ∧ r.mod ≠ 3#2 then .ud else .notInFamily
  | _ => .notInFamily

/-- Step 7 of R122: the length, #GP(0) over 15 bytes (R115, R116). -/
def finish (total : Nat) (rest : List Byte) (i : Except Reject Instr) : Except Reject (Instr × Nat) :=
  if 15 < total - rest.length then .error .gpLength
  else i.map fun i => (i, total - rest.length)

/-! ## Instructions from their form and operands -/

/-- MMX variable-count (R100). -/
def mmxRm : Elem → MmReg → RegMem MmReg → Instr
  | .w, a, c => .mmxPsllwRm a c
  | .d, a, c => .mmxPslldRm a c
  | .q, a, c => .mmxPsllqRm a c

/-- MMX immediate (R101). -/
def mmxImm : Elem → MmReg → Byte → Instr
  | .w, a, i => .mmxPsllwImm a i
  | .d, a, i => .mmxPslldImm a i
  | .q, a, i => .mmxPsllqImm a i

/-- SSE128 variable-count (R100). -/
def sseRm : Elem → VReg → RegMem VReg → Instr
  | .w, a, c => .ssePsllwRm a c
  | .d, a, c => .ssePslldRm a c
  | .q, a, c => .ssePsllqRm a c

/-- SSE128 immediate (R101). -/
def sseImm : Elem → VReg → Byte → Instr
  | .w, a, i => .ssePsllwImm a i
  | .d, a, i => .ssePslldImm a i
  | .q, a, i => .ssePsllqImm a i

/-- VEX variable-count (R102); the first argument is L. -/
def vexRm : Bool → Elem → VReg → VReg → RegMem VReg → Instr
  | false, .w, a, v, c => .vex128PsllwRm a v c
  | false, .d, a, v, c => .vex128PslldRm a v c
  | false, .q, a, v, c => .vex128PsllqRm a v c
  | true, .w, a, v, c => .vex256PsllwRm a v c
  | true, .d, a, v, c => .vex256PslldRm a v c
  | true, .q, a, v, c => .vex256PsllqRm a v c

/-- VEX immediate (R103); the first argument is L. -/
def vexImm : Bool → Elem → VReg → VReg → Byte → Instr
  | false, .w, a, v, i => .vex128PsllwImm a v i
  | false, .d, a, v, i => .vex128PslldImm a v i
  | false, .q, a, v, i => .vex128PsllqImm a v i
  | true, .w, a, v, i => .vex256PsllwImm a v i
  | true, .d, a, v, i => .vex256PslldImm a v i
  | true, .q, a, v, i => .vex256PsllqImm a v i

/-- EVEX variable-count (R106). -/
def evexRm : VLen → Elem → VReg → Masking → VReg → RegMem VReg → Instr
  | .v128, .w, a, k, v, c => .evex128PsllwRm a k v c
  | .v128, .d, a, k, v, c => .evex128PslldRm a k v c
  | .v128, .q, a, k, v, c => .evex128PsllqRm a k v c
  | .v256, .w, a, k, v, c => .evex256PsllwRm a k v c
  | .v256, .d, a, k, v, c => .evex256PslldRm a k v c
  | .v256, .q, a, k, v, c => .evex256PsllqRm a k v c
  | .v512, .w, a, k, v, c => .evex512PsllwRm a k v c
  | .v512, .d, a, k, v, c => .evex512PslldRm a k v c
  | .v512, .q, a, k, v, c => .evex512PsllqRm a k v c

/-- EVEX VPSLLW immediate (R104). -/
def evexImmW : VLen → VReg → Masking → RegMem VReg → Byte → Instr
  | .v128, a, k, c, i => .evex128PsllwImm a k c i
  | .v256, a, k, c, i => .evex256PsllwImm a k c i
  | .v512, a, k, c, i => .evex512PsllwImm a k c i

/-- EVEX VPSLLD immediate (R105). -/
def evexImmD : VLen → VReg → Masking → DataSrc → Byte → Instr
  | .v128, a, k, c, i => .evex128PslldImm a k c i
  | .v256, a, k, c, i => .evex256PslldImm a k c i
  | .v512, a, k, c, i => .evex512PslldImm a k c i

/-- EVEX VPSLLQ immediate (R105). -/
def evexImmQ : VLen → VReg → Masking → DataSrc → Byte → Instr
  | .v128, a, k, c, i => .evex128PsllqImm a k c i
  | .v256, a, k, c, i => .evex256PsllqImm a k c i
  | .v512, a, k, c, i => .evex512PsllqImm a k c i

/-! ## The legacy class (R100, R101) -/

/-- The bytes after 0F. -/
def decodeLegacy (m : Mode) (p : Prefixes) (total : Nat) : List Byte → Except Reject (Instr × Nat)
  | [] => .error .truncated
  | op :: bs =>
    if (opcodeOf op).isNone then .error .notInFamily
    else match bs with
    | [] => .error .truncated
    | mb :: bs =>
      let r := ModRM.ofByte mb
      match selectForm (.legacy p.opsize) op r with
      | none => .error (noRow (.legacy p.opsize) op r)
      | some f =>
        if p.rep then .error .repPrefix
        else if p.lock then .error .ud
        else match f with
        | .mmx e .var => do
          let (c, rest) ← readRm m p (p.rexBit 1) (p.rexBit 0) 1 r (mmregOf r.rm) bs
          finish total rest (.ok (mmxRm e (mmregOf r.reg) c))
        | .mmx e .imm => do
          let (i, rest) ← readImm bs
          finish total rest (.ok (mmxImm e (mmregOf r.rm) i))
        | .sse e .var => do
          let (c, rest) ← readRm m p (p.rexBit 1) (p.rexBit 0) 1 r (vregOf false (p.rexBit 0) r.rm) bs
          finish total rest (.ok (sseRm e (vregOf false (p.rexBit 2) r.reg) c))
        | .sse e .imm => do
          let (i, rest) ← readImm bs
          finish total rest (.ok (sseImm e (vregOf false (p.rexBit 0) r.rm) i))
        | _ => .error .notInFamily

/-! ## Register numbers outside 64-bit mode -/

/-- Outside 64-bit mode a register number above 7 is refused (R94; 92_eei_decisions.md D3;
93_implementation_defined.md U8; log 20, log 21). -/
def lowOnly (m : Mode) (rs : List VReg) (i : Instr) : Except Reject Instr :=
  if !m.is64 && rs.any (fun r => decide (8 ≤ r.val)) then .error .highRegister else .ok i

/-- The register an r/m operand names, as a list of none or one. -/
def RegMem.regs : RegMem VReg → List VReg
  | .reg r => [r]
  | .mem _ => []

/-! ## The VEX class (R89, R90, R93, R102, R103) -/

/-- The fields of a VEX prefix, the inverted ones already complemented. W is ignored by the family (R110). -/
structure VexFields where
  r : Bool
  x : Bool
  b : Bool
  map : BitVec 5
  vvvv : BitVec 4
  l : Bool
  pp : BitVec 2
  deriving DecidableEq, Repr

/-- Two-byte VEX (R89): X, B = 0 and map 0F are implied. -/
def vex2Fields (p1 : Byte) : VexFields :=
  ⟨!bit p1 7, false, false, 1#5, ~~~(p1.extractLsb' 3 4), bit p1 2, p1.extractLsb' 0 2⟩

/-- Three-byte VEX (R90). -/
def vex3Fields (p1 p2 : Byte) : VexFields :=
  ⟨!bit p1 7, !bit p1 6, !bit p1 5, p1.extractLsb' 0 5, ~~~(p2.extractLsb' 3 4), bit p2 2, p2.extractLsb' 0 2⟩

/-- The register in vvvv (R93). -/
def vvvvReg (hi : Bool) (v : BitVec 4) : VReg := (BitVec.ofBool hi ++ v).toFin

/-- Outside 64-bit mode C4, C5 and 62 are prefixes only when the top two bits of the next byte are 11 (R93, R117). -/
def otherInstruction (m : Mode) (next : Byte) : Bool := !m.is64 && next.extractLsb' 6 2 != 3#2

/-- The bytes after the VEX prefix. A form of the family is #UD in real and virtual-8086 mode (R112, R117; log 35); the
extension bits of a base or index are 0 outside 64-bit mode (R95). -/
def decodeVex (m : Mode) (p : Prefixes) (total : Nat) (v : VexFields) : List Byte → Except Reject (Instr × Nat)
  | bs =>
    if p.clash then .error .ud
    else if v.map ≠ 1#5 ∨ v.pp ≠ 1#2 then .error .notInFamily
    else match bs with
    | [] => .error .truncated
    | op :: bs =>
      if (opcodeOf op).isNone then .error .notInFamily
      else match bs with
      | [] => .error .truncated
      | mb :: bs =>
        let r := ModRM.ofByte mb
        match selectForm (.vex v.l) op r with
        | none => .error (noRow (.vex v.l) op r)
        | some (.vex _ e c) =>
          if !m.hasVex then .error .ud
          else match c with
          | .var => do
            let (o, rest) ← readRm m p (m.is64 && v.x) (m.is64 && v.b) 1 r (vregOf false v.b r.rm) bs
            let dst := vregOf false v.r r.reg
            let src := vvvvReg false v.vvvv
            finish total rest (lowOnly m (dst :: src :: o.regs) (vexRm v.l e dst src o))
          | .imm => do
            let (i, rest) ← readImm bs
            let dst := vvvvReg false v.vvvv
            let src := vregOf false v.b r.rm
            finish total rest (lowOnly m [dst, src] (vexImm v.l e dst src i))
        | some _ => .error .notInFamily

/-! ## The EVEX class (R91, R94, R104 to R106, R110 to R112) -/

/-- The fields of an EVEX prefix, the inverted ones already complemented. -/
structure EvexFields where
  r : Bool
  x : Bool
  b : Bool
  r' : Bool
  fixed0 : Bool
  map : BitVec 3
  w : Bool
  vvvv : BitVec 4
  fixed1 : Bool
  pp : BitVec 2
  z : Bool
  ll : BitVec 2
  bc : Bool
  v' : Bool
  aaa : BitVec 3
  deriving DecidableEq, Repr

/-- The EVEX payload bytes P0, P1, P2 (R91). -/
def evexFields (p0 p1 p2 : Byte) : EvexFields :=
  { r := !bit p0 7, x := !bit p0 6, b := !bit p0 5, r' := !bit p0 4, fixed0 := bit p0 3, map := p0.extractLsb' 0 3,
    w := bit p1 7, vvvv := ~~~(p1.extractLsb' 3 4), fixed1 := bit p1 2, pp := p1.extractLsb' 0 2,
    z := bit p2 7, ll := p2.extractLsb' 5 2, bc := bit p2 4, v' := !bit p2 3, aaa := p2.extractLsb' 0 3 }

/-- L'L: 00, 01, 10 are 128, 256, 512; 11 is reserved (R91, R111). -/
def vlenOf (ll : BitVec 2) : Option VLen :=
  if ll = 0#2 then some .v128
  else if ll = 1#2 then some .v256
  else if ll = 2#2 then some .v512
  else none

/-- The W an EVEX form needs: ignored for words, 0 for VPSLLD, 1 for VPSLLQ (R110). -/
def evexWBad (e : Elem) (w : Bool) : Bool :=
  match e with
  | .w => false
  | .d => w
  | .q => !w

/-- The tests of R112 on b: a broadcast exists only for VPSLLD and VPSLLQ immediate forms with a memory source
(row F; rows E and G are `.nb`). -/
def evexBBad (e : Elem) (c : CountKind) (bc : Bool) (r : ModRM) : Bool :=
  bc && (c == .var || e == .w || r.mod == 3#2)

/-- The factor of the compressed displacement (R98). -/
def disp8Factor (l : VLen) (e : Elem) (c : CountKind) (bc : Bool) : Nat :=
  match c with
  | .var => 16
  | .imm => if bc then e.bits / 8 else l.bits / 8

/-- The data source of row F: memory with b = 1 is a broadcast (R105). -/
def dataSrcOf (bc : Bool) : RegMem VReg → DataSrc
  | .reg r => .reg r
  | .mem a => if bc then .bcst a else .mem a

/-- The bytes after the three EVEX payload bytes. -/
def decodeEvex (m : Mode) (p : Prefixes) (total : Nat) (v : EvexFields) (bs : List Byte) : Except Reject (Instr × Nat) :=
  if p.clash then .error .ud
  else if v.map ≠ 1#3 ∨ v.pp ≠ 1#2 then .error .notInFamily
  else if v.fixed0 ∨ !v.fixed1 then .error .ud
  else match vlenOf v.ll with
  | none => .error .ud
  | some l => match bs with
    | [] => .error .truncated
    | op :: bs =>
      if (opcodeOf op).isNone then .error .notInFamily
      else match bs with
      | [] => .error .truncated
      | mb :: bs =>
        let r := ModRM.ofByte mb
        match selectForm (.evex l) op r with
        | none => .error (noRow (.evex l) op r)
        | some (.evex _ e c) =>
          if !m.hasVex || evexWBad e v.w || evexBBad e c v.bc r || (v.z && v.aaa == 0#3) then .error .ud
          else do
            let (o, rest) ← readRm m p (m.is64 && v.x) (m.is64 && v.b) (disp8Factor l e c v.bc) r (vregOf v.x v.b r.rm) bs
            let k : Masking := ⟨v.aaa.toFin, v.z⟩
            let vr := vvvvReg v.v' v.vvvv
            match c with
            | .var =>
              let dst := vregOf v.r' v.r r.reg
              finish total rest (lowOnly m (dst :: vr :: o.regs) (evexRm l e dst k vr o))
            | .imm => do
              let (i, rest) ← readImm rest
              finish total rest (lowOnly m (vr :: o.regs)
                (match e with
                 | .w => evexImmW l vr k o i
                 | .d => evexImmD l vr k (dataSrcOf v.bc o) i
                 | .q => evexImmQ l vr k (dataSrcOf v.bc o) i))
        | some _ => .error .notInFamily

/-! ## The decoder (R122) -/

/-- Step 3 of R122: the class by the first byte that is no prefix. -/
def decodeClass (m : Mode) (p : Prefixes) (total : Nat) : List Byte → Except Reject (Instr × Nat)
  | [] => .error .truncated
  | b :: bs =>
    if b = 0x0F#8 then decodeLegacy m p total bs
    else if b = 0xC5#8 then
      match bs with
      | [] => .error .truncated
      | p1 :: bs => if otherInstruction m p1 then .error .notInFamily else decodeVex m p total (vex2Fields p1) bs
    else if b = 0xC4#8 then
      match bs with
      | [] => .error .truncated
      | p1 :: bs =>
        if otherInstruction m p1 then .error .notInFamily
        else match bs with
        | [] => .error .truncated
        | p2 :: bs => decodeVex m p total (vex3Fields p1 p2) bs
    else if b = 0x62#8 then
      match bs with
      | [] => .error .truncated
      | p0 :: bs =>
        if otherInstruction m p0 then .error .notInFamily
        else match bs with
        | p1 :: p2 :: bs => decodeEvex m p total (evexFields p0 p1 p2) bs
        | _ => .error .truncated
    else .error .notInFamily

/-- The decoder of R122: the first instruction of a byte string and its length, or why there is none. The bytes after
the instruction are not read. -/
def decode (m : Mode) (bs : List Byte) : Except Reject (Instr × Nat) :=
  let (p, rest) := scanPrefixes m.is64 {} bs
  decodeClass m p bs.length rest

/-! ## The encoder

One spelling of each well-formed instruction (log 31): prefixes in the order 67, segment, 66, REX; the shortest
displacement; the two-byte VEX prefix where it reaches; W = 0 where W is ignored. -/

/-- The low three bits of a register number. -/
def low3 (n : Nat) : BitVec 3 := BitVec.ofNat 3 n

/-- Bit `i` of a register number. -/
def regBit (n i : Nat) : Bool := n.testBit i

/-- An encoded r/m operand: prefixes it needs, extension bits, ModRM.mod and rm, and the SIB and displacement bytes. -/
structure EncRm where
  pre : List Byte := []
  x : Bool := false
  b : Bool := false
  mod : BitVec 2
  rm : BitVec 3
  tail : List Byte := []
  deriving DecidableEq, Repr

/-- The little-endian bytes of a 32-bit displacement. -/
def le32 (d : BitVec 32) : List Byte :=
  [d.extractLsb' 0 8, d.extractLsb' 8 8, d.extractLsb' 16 8, d.extractLsb' 24 8]

/-- The little-endian bytes of a 16-bit displacement. -/
def le16 (d : BitVec 16) : List Byte := [d.extractLsb' 0 8, d.extractLsb' 8 8]

/-- The displacement byte that stands for `d` at factor `n`, if it does (R98). -/
def disp8For {w : Nat} (n : Nat) (d : BitVec w) : Byte := BitVec.ofInt 8 (d.toInt / n)

/-- mod and the displacement bytes beside a base register. `needDisp`: mod = 00 means something else for this base. -/
def encDisp (n : Nat) (needDisp : Bool) (d : BitVec 32) : BitVec 2 × List Byte :=
  if d = 0#32 ∧ needDisp = false then (0#2, [])
  else if disp8 32 n (disp8For n d) = d then (1#2, [disp8For n d])
  else (2#2, le32 d)

/-- The SIB byte (R86). -/
def sibByte (scale : Fin 4) (index base : BitVec 3) : Byte := BitVec.ofNat 2 scale.val ++ index ++ base

/-- The index field: 100 without an index (R95). -/
def indexField : Option GReg → BitVec 3
  | none => 4#3
  | some r => low3 r.val

/-- The index extension bit. -/
def indexExt : Option GReg → Bool
  | none => false
  | some r => regBit r.val 3

/-- The ModRM, SIB and displacement of a 32-bit or 64-bit effective address (R95). -/
def encWide (n : Nat) (base : Base) (index : Option GReg) (scale : Fin 4) (d : BitVec 32) : EncRm :=
  match base with
  | .rip => { mod := 0#2, rm := 5#3, tail := le32 d }
  | .none => { mod := 0#2, rm := 4#3, x := indexExt index, tail := sibByte scale (indexField index) 5#3 :: le32 d }
  | .gpr r =>
    let (mod, db) := encDisp n (low3 r.val == 5#3) d
    if index.isSome ∨ low3 r.val = 4#3 then
      { mod := mod, rm := 4#3, x := indexExt index, b := regBit r.val 3,
        tail := sibByte scale (indexField index) (low3 r.val) :: db }
    else { mod := mod, rm := low3 r.val, b := regBit r.val 3, tail := db }

/-- rm of a 16-bit effective address (R96). -/
def rm16 : Base16 → BitVec 3
  | .bxsi => 0#3
  | .bxdi => 1#3
  | .bpsi => 2#3
  | .bpdi => 3#3
  | .si => 4#3
  | .di => 5#3
  | .bp | .none => 6#3
  | .bx => 7#3

/-- The ModRM and displacement of a 16-bit effective address (R96). -/
def encA16 (n : Nat) (base : Base16) (d : BitVec 16) : EncRm :=
  if base = .none then { mod := 0#2, rm := 6#3, tail := le16 d }
  else if d = 0#16 ∧ base ≠ .bp then { mod := 0#2, rm := rm16 base }
  else if disp8 16 n (disp8For n d) = d then { mod := 1#2, rm := rm16 base, tail := [disp8For n d] }
  else { mod := 2#2, rm := rm16 base, tail := le16 d }

/-- The address-size prefix, when the address size is not the mode's default (R95, R96). -/
def asizePrefix (m : Mode) : EffAddr → List Byte
  | .a16 _ _ => if addrSize m false = .a16 then [] else [0x67#8]
  | .wide false _ _ _ _ => if addrSize m false = .a32 then [] else [0x67#8]
  | .wide true _ _ _ _ => if addrSize m false = .a64 then [] else [0x67#8]

/-- The byte of a segment override (R82). -/
def byteOfSeg : SegReg → Byte
  | .cs => 0x2E#8
  | .ss => 0x36#8
  | .ds => 0x3E#8
  | .es => 0x26#8
  | .fs => 0x64#8
  | .gs => 0x65#8

/-- The segment override, when the segment is not the default (R97). -/
def segPrefix (a : MemOp) : List Byte := if a.seg = a.ea.defaultSeg then [] else [byteOfSeg a.seg]

/-- A memory operand; `n` is the factor of R98. -/
def encMem (m : Mode) (n : Nat) (a : MemOp) : EncRm :=
  let e := match a.ea with
    | .a16 base d => encA16 n base d
    | .wide _ base index scale d => encWide n base index scale d
  { e with pre := asizePrefix m a.ea ++ segPrefix a }

/-- A vector register r/m operand: bit 4 goes to X, bit 3 to B (R92, R93, R94). -/
def encVreg (r : VReg) : EncRm := { mod := 3#2, rm := low3 r.val, x := regBit r.val 4, b := regBit r.val 3 }

/-- An MMX register r/m operand (R92). -/
def encMmreg (r : MmReg) : EncRm := { mod := 3#2, rm := low3 r.val }

/-- A count operand in an MMX register or memory. -/
def encMmRm (m : Mode) : RegMem MmReg → EncRm
  | .reg r => encMmreg r
  | .mem a => encMem m 1 a

/-- A vector register or memory operand. -/
def encVRm (m : Mode) (n : Nat) : RegMem VReg → EncRm
  | .reg r => encVreg r
  | .mem a => encMem m n a

/-- The opcode byte (R84, R107). -/
def opByte : Elem → CountKind → Byte
  | .w, .var => 0xF1#8
  | .d, .var => 0xF2#8
  | .q, .var => 0xF3#8
  | .w, .imm => 0x71#8
  | .d, .imm => 0x72#8
  | .q, .imm => 0x73#8

/-- The REX prefix, when some extension bit is set (R83). -/
def rexPrefix (r x b : Bool) : List Byte :=
  if r || x || b then [4#4 ++ 0#1 ++ BitVec.ofBool r ++ BitVec.ofBool x ++ BitVec.ofBool b] else []

/-- A legacy form: `reg` is ModRM.reg with its extension `r` (R100, R101). -/
def encLegacy (p66 : Bool) (op : Byte) (r : Bool) (reg : BitVec 3) (o : EncRm) (imm : List Byte) : List Byte :=
  o.pre ++ (if p66 then [0x66#8] else []) ++ rexPrefix r o.x o.b
    ++ [0x0F#8, op, (ModRM.mk o.mod reg o.rm).toByte] ++ o.tail ++ imm

/-- The VEX prefix: two bytes when X and B are clear (R89), else three (R90). -/
def vexPrefix (r x b : Bool) (vvvv : BitVec 4) (l : Bool) : List Byte :=
  if x || b then
    [0xC4#8, BitVec.ofBool (!r) ++ BitVec.ofBool (!x) ++ BitVec.ofBool (!b) ++ 1#5,
     0#1 ++ ~~~vvvv ++ BitVec.ofBool l ++ 1#2]
  else [0xC5#8, BitVec.ofBool (!r) ++ ~~~vvvv ++ BitVec.ofBool l ++ 1#2]

/-- A VEX form (R102, R103). -/
def encVex (l : Bool) (op : Byte) (r : Bool) (reg : BitVec 3) (vvvv : VReg) (o : EncRm) (imm : List Byte) : List Byte :=
  o.pre ++ vexPrefix r o.x o.b (BitVec.ofNat 4 vvvv.val) l ++ [op, (ModRM.mk o.mod reg o.rm).toByte] ++ o.tail ++ imm

/-- L'L (R91). -/
def llOf : VLen → BitVec 2
  | .v128 => 0#2
  | .v256 => 1#2
  | .v512 => 2#2

/-- The W bit an EVEX form is written with (R110). -/
def evexW : Elem → Bool
  | .q => true
  | .w | .d => false

/-- An EVEX form (R104 to R106). -/
def encEvex (l : VLen) (e : Elem) (c : CountKind) (k : Masking) (bc : Bool) (r' r : Bool) (reg : BitVec 3) (vvvv : VReg)
    (o : EncRm) (imm : List Byte) : List Byte :=
  o.pre ++
    [0x62#8,
     BitVec.ofBool (!r) ++ BitVec.ofBool (!o.x) ++ BitVec.ofBool (!o.b) ++ BitVec.ofBool (!r') ++ 0#1 ++ 1#3,
     BitVec.ofBool (evexW e) ++ ~~~(BitVec.ofNat 4 vvvv.val) ++ 1#1 ++ 1#2,
     BitVec.ofBool k.z ++ llOf l ++ BitVec.ofBool bc ++ BitVec.ofBool (!regBit vvvv.val 4) ++ BitVec.ofNat 3 k.aaa.val,
     opByte e c, (ModRM.mk o.mod reg o.rm).toByte] ++ o.tail ++ imm

/-- An MMX variable-count form. -/
def encMmxRm (m : Mode) (e : Elem) (dst : MmReg) (cnt : RegMem MmReg) : List Byte :=
  encLegacy false (opByte e .var) false (low3 dst.val) (encMmRm m cnt) []

/-- An MMX immediate form. -/
def encMmxImm (e : Elem) (dst : MmReg) (imm : Byte) : List Byte :=
  encLegacy false (opByte e .imm) false 6#3 (encMmreg dst) [imm]

/-- An SSE128 variable-count form. -/
def encSseRm (m : Mode) (e : Elem) (dst : VReg) (cnt : RegMem VReg) : List Byte :=
  encLegacy true (opByte e .var) (regBit dst.val 3) (low3 dst.val) (encVRm m 1 cnt) []

/-- An SSE128 immediate form. -/
def encSseImm (e : Elem) (dst : VReg) (imm : Byte) : List Byte :=
  encLegacy true (opByte e .imm) false 6#3 (encVreg dst) [imm]

/-- A VEX variable-count form. -/
def encVexRm (m : Mode) (l : Bool) (e : Elem) (dst src : VReg) (cnt : RegMem VReg) : List Byte :=
  encVex l (opByte e .var) (regBit dst.val 3) (low3 dst.val) src (encVRm m 1 cnt) []

/-- A VEX immediate form: the destination is in vvvv, the source in ModRM.r/m (R80 items 1 and 2). -/
def encVexImm (l : Bool) (e : Elem) (dst src : VReg) (imm : Byte) : List Byte :=
  encVex l (opByte e .imm) false 6#3 dst (encVreg src) [imm]

/-- An EVEX variable-count form. -/
def encEvexRm (m : Mode) (l : VLen) (e : Elem) (dst : VReg) (k : Masking) (src : VReg) (cnt : RegMem VReg) : List Byte :=
  encEvex l e .var k false (regBit dst.val 4) (regBit dst.val 3) (low3 dst.val) src (encVRm m 16 cnt) []

/-- An EVEX VPSLLW immediate form. -/
def encEvexImmW (m : Mode) (l : VLen) (dst : VReg) (k : Masking) (src : RegMem VReg) (imm : Byte) : List Byte :=
  encEvex l .w .imm k false false false 6#3 dst (encVRm m (l.bits / 8) src) [imm]

/-- An EVEX VPSLLD or VPSLLQ immediate form. -/
def encEvexImm (m : Mode) (l : VLen) (e : Elem) (dst : VReg) (k : Masking) (src : DataSrc) (imm : Byte) : List Byte :=
  match src with
  | .reg r => encEvex l e .imm k false false false 6#3 dst (encVreg r) [imm]
  | .mem a => encEvex l e .imm k false false false 6#3 dst (encMem m (l.bits / 8) a) [imm]
  | .bcst a => encEvex l e .imm k true false false 6#3 dst (encMem m (e.bits / 8) a) [imm]

/-- The bytes of a well-formed instruction in mode `m`. -/
def encode (m : Mode) : Instr → List Byte
  | .mmxPsllwRm dst cnt => encMmxRm m .w dst cnt
  | .mmxPsllwImm dst imm => encMmxImm .w dst imm
  | .mmxPslldRm dst cnt => encMmxRm m .d dst cnt
  | .mmxPslldImm dst imm => encMmxImm .d dst imm
  | .mmxPsllqRm dst cnt => encMmxRm m .q dst cnt
  | .mmxPsllqImm dst imm => encMmxImm .q dst imm
  | .ssePsllwRm dst cnt => encSseRm m .w dst cnt
  | .ssePsllwImm dst imm => encSseImm .w dst imm
  | .ssePslldRm dst cnt => encSseRm m .d dst cnt
  | .ssePslldImm dst imm => encSseImm .d dst imm
  | .ssePsllqRm dst cnt => encSseRm m .q dst cnt
  | .ssePsllqImm dst imm => encSseImm .q dst imm
  | .vex128PsllwRm dst src cnt => encVexRm m false .w dst src cnt
  | .vex128PsllwImm dst src imm => encVexImm false .w dst src imm
  | .vex128PslldRm dst src cnt => encVexRm m false .d dst src cnt
  | .vex128PslldImm dst src imm => encVexImm false .d dst src imm
  | .vex128PsllqRm dst src cnt => encVexRm m false .q dst src cnt
  | .vex128PsllqImm dst src imm => encVexImm false .q dst src imm
  | .vex256PsllwRm dst src cnt => encVexRm m true .w dst src cnt
  | .vex256PsllwImm dst src imm => encVexImm true .w dst src imm
  | .vex256PslldRm dst src cnt => encVexRm m true .d dst src cnt
  | .vex256PslldImm dst src imm => encVexImm true .d dst src imm
  | .vex256PsllqRm dst src cnt => encVexRm m true .q dst src cnt
  | .vex256PsllqImm dst src imm => encVexImm true .q dst src imm
  | .evex128PsllwRm dst msk src cnt => encEvexRm m .v128 .w dst msk src cnt
  | .evex256PsllwRm dst msk src cnt => encEvexRm m .v256 .w dst msk src cnt
  | .evex512PsllwRm dst msk src cnt => encEvexRm m .v512 .w dst msk src cnt
  | .evex128PslldRm dst msk src cnt => encEvexRm m .v128 .d dst msk src cnt
  | .evex256PslldRm dst msk src cnt => encEvexRm m .v256 .d dst msk src cnt
  | .evex512PslldRm dst msk src cnt => encEvexRm m .v512 .d dst msk src cnt
  | .evex128PsllqRm dst msk src cnt => encEvexRm m .v128 .q dst msk src cnt
  | .evex256PsllqRm dst msk src cnt => encEvexRm m .v256 .q dst msk src cnt
  | .evex512PsllqRm dst msk src cnt => encEvexRm m .v512 .q dst msk src cnt
  | .evex128PsllwImm dst msk src imm => encEvexImmW m .v128 dst msk src imm
  | .evex256PsllwImm dst msk src imm => encEvexImmW m .v256 dst msk src imm
  | .evex512PsllwImm dst msk src imm => encEvexImmW m .v512 dst msk src imm
  | .evex128PslldImm dst msk src imm => encEvexImm m .v128 .d dst msk src imm
  | .evex256PslldImm dst msk src imm => encEvexImm m .v256 .d dst msk src imm
  | .evex512PslldImm dst msk src imm => encEvexImm m .v512 .d dst msk src imm
  | .evex128PsllqImm dst msk src imm => encEvexImm m .v128 .q dst msk src imm
  | .evex256PsllqImm dst msk src imm => encEvexImm m .v256 .q dst msk src imm
  | .evex512PsllqImm dst msk src imm => encEvexImm m .v512 .q dst msk src imm

/-! ## The keys of spec/opcode_table.json (R108) -/

/-- One row of the table: `(key &&& mask) = value` selects it. -/
structure TableRow where
  value : BitVec 24
  mask : BitVec 24
  form : Form
  deriving DecidableEq, Repr

/-- Rows 1 to 6 of spec/opcode_table.json. -/
def tableRowsMmx : List TableRow :=
  [⟨0x00F100#24, 0xF1FF00#24, .mmx .w .var⟩,
   ⟨0x0071F0#24, 0xF1FFF8#24, .mmx .w .imm⟩,
   ⟨0x00F200#24, 0xF1FF00#24, .mmx .d .var⟩,
   ⟨0x0072F0#24, 0xF1FFF8#24, .mmx .d .imm⟩,
   ⟨0x00F300#24, 0xF1FF00#24, .mmx .q .var⟩,
   ⟨0x0073F0#24, 0xF1FFF8#24, .mmx .q .imm⟩]

/-- Rows 7 to 12 of spec/opcode_table.json. -/
def tableRowsSse : List TableRow :=
  [⟨0x01F100#24, 0xF1FF00#24, .sse .w .var⟩,
   ⟨0x0171F0#24, 0xF1FFF8#24, .sse .w .imm⟩,
   ⟨0x01F200#24, 0xF1FF00#24, .sse .d .var⟩,
   ⟨0x0172F0#24, 0xF1FFF8#24, .sse .d .imm⟩,
   ⟨0x01F300#24, 0xF1FF00#24, .sse .q .var⟩,
   ⟨0x0173F0#24, 0xF1FFF8#24, .sse .q .imm⟩]

/-- Rows 13 to 24 of spec/opcode_table.json. -/
def tableRowsVex : List TableRow :=
  [⟨0x41F100#24, 0xF1FF00#24, .vex .v128 .w .var⟩,
   ⟨0x4171F0#24, 0xF1FFF8#24, .vex .v128 .w .imm⟩,
   ⟨0x41F200#24, 0xF1FF00#24, .vex .v128 .d .var⟩,
   ⟨0x4172F0#24, 0xF1FFF8#24, .vex .v128 .d .imm⟩,
   ⟨0x41F300#24, 0xF1FF00#24, .vex .v128 .q .var⟩,
   ⟨0x4173F0#24, 0xF1FFF8#24, .vex .v128 .q .imm⟩,
   ⟨0x51F100#24, 0xF1FF00#24, .vex .v256 .w .var⟩,
   ⟨0x5171F0#24, 0xF1FFF8#24, .vex .v256 .w .imm⟩,
   ⟨0x51F200#24, 0xF1FF00#24, .vex .v256 .d .var⟩,
   ⟨0x5172F0#24, 0xF1FFF8#24, .vex .v256 .d .imm⟩,
   ⟨0x51F300#24, 0xF1FF00#24, .vex .v256 .q .var⟩,
   ⟨0x5173F0#24, 0xF1FFF8#24, .vex .v256 .q .imm⟩]

/-- Rows 25 to 33 of spec/opcode_table.json. -/
def tableRowsEvexRm : List TableRow :=
  [⟨0x81F100#24, 0xF1FF00#24, .evex .v128 .w .var⟩,
   ⟨0x91F100#24, 0xF1FF00#24, .evex .v256 .w .var⟩,
   ⟨0xA1F100#24, 0xF1FF00#24, .evex .v512 .w .var⟩,
   ⟨0x81F200#24, 0xF1FF00#24, .evex .v128 .d .var⟩,
   ⟨0x91F200#24, 0xF1FF00#24, .evex .v256 .d .var⟩,
   ⟨0xA1F200#24, 0xF1FF00#24, .evex .v512 .d .var⟩,
   ⟨0x81F300#24, 0xF1FF00#24, .evex .v128 .q .var⟩,
   ⟨0x91F300#24, 0xF1FF00#24, .evex .v256 .q .var⟩,
   ⟨0xA1F300#24, 0xF1FF00#24, .evex .v512 .q .var⟩]

/-- Rows 34 to 42 of spec/opcode_table.json. -/
def tableRowsEvexImm : List TableRow :=
  [⟨0x817130#24, 0xF1FF38#24, .evex .v128 .w .imm⟩,
   ⟨0x917130#24, 0xF1FF38#24, .evex .v256 .w .imm⟩,
   ⟨0xA17130#24, 0xF1FF38#24, .evex .v512 .w .imm⟩,
   ⟨0x817230#24, 0xF1FF38#24, .evex .v128 .d .imm⟩,
   ⟨0x917230#24, 0xF1FF38#24, .evex .v256 .d .imm⟩,
   ⟨0xA17230#24, 0xF1FF38#24, .evex .v512 .d .imm⟩,
   ⟨0x817330#24, 0xF1FF38#24, .evex .v128 .q .imm⟩,
   ⟨0x917330#24, 0xF1FF38#24, .evex .v256 .q .imm⟩,
   ⟨0xA17330#24, 0xF1FF38#24, .evex .v512 .q .imm⟩]

/-- The 42 rows of spec/opcode_table.json, in its order. -/
def opcodeTable : List TableRow :=
  tableRowsMmx ++ tableRowsSse ++ tableRowsVex ++ tableRowsEvexRm ++ tableRowsEvexImm

/-- The form whose row fits a key. -/
def formOfKey (key : BitVec 24) : Option Form :=
  (opcodeTable.find? fun r => key &&& r.mask == r.value).map TableRow.form

/-- The prefix-state byte S of R108. -/
def EncClass.stateByte : EncClass → Byte
  | .legacy p66 => 0#7 ++ BitVec.ofBool p66
  | .vex l => 1#2 ++ 0#1 ++ BitVec.ofBool l ++ 0#3 ++ 1#1
  | .evex l => 2#2 ++ llOf l ++ 0#3 ++ 1#1

/-- The key of R108: S, opcode byte, ModRM byte. -/
def keyOf (c : EncClass) (op modrm : Byte) : BitVec 24 := c.stateByte ++ op ++ modrm

/-- Instruction bytes that have a given key (log 24): the prefixes that S stands for, with the register fields outside
the key naming register 0, no writemask, and the W the opcode needs; `none` for an S that no prefixes have. -/
def keyPrefix (key : BitVec 24) : Option (List Byte) :=
  let enc := key.extractLsb' 22 2
  let ll := key.extractLsb' 20 2
  let p := key.extractLsb' 16 1
  let w := key.extractLsb' 8 8 == 0xF3#8 || key.extractLsb' 8 8 == 0x73#8
  if enc = 0#2 then (if ll = 0#2 then some ((if p = 1#1 then [0x66#8] else []) ++ [0x0F#8]) else none)
  else if enc = 1#2 then
    (if bit ll 1 then none else some [0xC5#8, 1#1 ++ 15#4 ++ BitVec.ofBool (bit ll 0) ++ 0#1 ++ p])
  else if enc = 2#2 then
    some [0x62#8, 0xF1#8, BitVec.ofBool w ++ 15#4 ++ 1#1 ++ 0#1 ++ p, 0#1 ++ ll ++ 0#1 ++ 1#1 ++ 0#3]
  else none

/-- The longest instruction: 15 bytes (R81, R116). -/
def maxLength : Nat := 15

/-- The instruction bytes of a table word: its low 24 bits are the key of R108; every byte after ModRM is 0, up to
the longest instruction. -/
def tableBytes (nbits w : Nat) : Option (List Byte) :=
  let key := BitVec.ofNat 24 (w % 2 ^ nbits)
  (keyPrefix key).map fun pre =>
    (pre ++ [key.extractLsb' 8 8, key.extractLsb' 0 8] ++ List.replicate maxLength 0#8).take maxLength

/-- The instruction the decoder reads from a table word, in 64-bit mode. -/
def decodeTableWord (nbits w : Nat) : Option Instr :=
  match tableBytes nbits w with
  | none => none
  | some bs =>
    match decode .mode64 bs with
    | .ok (i, _) => some i
    | .error _ => none

end Sys2Proof
end

