-- ==== Sys2Proof/Machine/Fetch.lean ====
section
/-! DEFINITION. Fetching an instruction's bytes (10_state.md R34, 60_exceptions.md R240), what `step` does when they spell
none (30_encoding.md R112, R113, R122), and the launch that places a program (70_reset_and_hazards.md R261, R263, R264). -/

namespace Sys2Proof.Machine

/-! ## Fetch -/

/-- The linear address of the byte `off` bytes after pc: pc in 64-bit mode, CS base + pc in the low 32 bits outside it
(30_encoding.md R97, 10_state.md R41; log 17). -/
def State.fetchAddr (s : State) (off : Nat) : Qword :=
  if s.cfg.mode.is64 then s.pc + BitVec.ofNat 64 off
  else ((s.segs.cs.base + s.pc + BitVec.ofNat 64 off).setWidth 32).setWidth 64

/-- The instruction byte `off` bytes after pc, if the program text has it: a listed byte at a canonical address, or
within the limit of CS outside 64-bit mode. The model raises no fetch fault (60_exceptions.md R240; log 17). -/
def State.fetchByte (s : State) (off : Nat) : Option Byte :=
  if s.cfg.mode.is64 then
    if (s.fetchAddr off).extractLsb' 0 (if s.cfg.la57 then 57 else 48) |>.signExtend 64 |> (· == s.fetchAddr off) then
      s.mem.read (s.fetchAddr off)
    else none
  else if s.pc.toNat + off ≤ s.segs.cs.limit.toNat then s.mem.read (s.fetchAddr off)
  else none

/-- The program text from `off` bytes after pc on, up to its first gap and to `fuel` bytes. -/
def State.fetchFrom (s : State) : Nat → Nat → List Byte
  | 0, _ => []
  | fuel + 1, off =>
    match s.fetchByte off with
    | some b => b :: s.fetchFrom fuel (off + 1)
    | none => []

/-- The program text from pc on: all of it that stands without a gap. -/
def State.fetchBytes (s : State) : List Byte := s.fetchFrom s.mem.length 0

/-- The outcome for bytes that give no instruction (30_encoding.md R112, R122): an exception, or a refusal. -/
def State.rejected (s : State) : Reject → Host.Outcome State Fault Refusal
  | .ud => .fault (s.raise .ud)
  | .gpLength => .fault (s.raise .gp)
  | .notInFamily => .refused .notInFamily
  | .repPrefix => .refused .repPrefix
  | .highRegister => .refused .highRegister
  | .truncated => .refused .pcOutsideText

/-! ## Launch -/

/-- A word with bit `i` set. -/
def setBit {w : Nat} (v : BitVec w) (i : Nat) : BitVec w := v ||| BitVec.twoPow w i

/-- A word with bit `i` clear. -/
def clearBit {w : Nat} (v : BitVec w) (i : Nat) : BitVec w := v &&& ~~~(BitVec.twoPow w i)

/-- CTRL after the enabling steps of 70_reset_and_hazards.md R264: CR0.PE set, CR0.EM and CR0.TS clear, CR4.OSFXSR and
CR4.OSXSAVE set, XCR0 bits 1, 2, 5, 6, 7 set. -/
def Ctrl.enabled (c : Ctrl) : Ctrl :=
  { c with
    cr0 := clearBit (clearBit (setBit c.cr0 0) 2) 3
    cr4 := setBit (setBit c.cr4 9) 18
    xcr0 := setBit (setBit (setBit (setBit (setBit c.xcr0 1) 2) 5) 6) 7 }

/-- What software must have done before the rules hold (70_reset_and_hazards.md R263, R264): 64-bit mode with every form
enabled, no x87 exception pending. It stands for instructions that are not in the family (log 25). -/
def State.launch (s : State) : State :=
  { s with
    ctrl := s.ctrl.enabled
    flags := clearBit s.flags 17
    x87 := { s.x87 with pending := false }
    cfg := { s.cfg with mode := .mode64 } }

/-- A program and its data placed in memory (70_reset_and_hazards.md R261): the instruction bytes where the next step
fetches, zeros for what follows them, and zeros at the first 64 addresses, the operand bytes of an address made of
registers that hold 0 (log 25). -/
def State.place (s : State) (bs : List Byte) : State :=
  { s with
    mem := ((s.mem.writeList 0 (List.replicate 64 0#8)).writeList (s.fetchAddr 0) (bs ++ List.replicate 64 0#8)) }

end Sys2Proof.Machine
end

