-- ==== Sys2Proof/Machine/Step.lean ====
section
/-! DEFINITION. One step: fetch, decode, execute (00_scope.md R17, 30_encoding.md R122). -/

namespace Sys2Proof.Machine

/-- One step of the machine: the instruction that the bytes at pc spell runs with its length latched; bytes that spell
none give the decoder's exception or a refusal. -/
def step (s : State) : Host.Outcome State Fault Refusal :=
  match decode s.cfg.mode s.fetchBytes with
  | .ok (i, n) => exec i (s.latch n)
  | .error r => s.rejected r

/-- The state with the instruction of a table word where `step` fetches its next one, launched so that the next step
runs it (log 24, log 25). -/
def State.withFetchWord (s : State) (nbits w : Nat) : State :=
  s.launch.place ((tableBytes nbits w).getD [])

end Sys2Proof.Machine
end

