-- ==== Sys2Proof/Safety.lean ====
section
/-! DEFINITION. The terms the statements use: what an instruction names (its form, destination and memory operand), when
a state is ready to run a form and its operands can be read, what a completed form leaves unchanged, and the values of the
spec's rules written on natural numbers. -/

namespace Sys2Proof

/-! ## What an instruction names -/

/-- A destination register (00_scope.md R18, DEST). -/
inductive Dest
  | mm (r : MmReg)
  | v (r : VReg)
  deriving DecidableEq, Repr

/-- The destination register of an instruction. -/
def Instr.dest : Instr → Dest
  | .mmxPsllwRm dst _ => .mm dst
  | .mmxPsllwImm dst _ => .mm dst
  | .mmxPslldRm dst _ => .mm dst
  | .mmxPslldImm dst _ => .mm dst
  | .mmxPsllqRm dst _ => .mm dst
  | .mmxPsllqImm dst _ => .mm dst
  | .ssePsllwRm dst _ => .v dst
  | .ssePsllwImm dst _ => .v dst
  | .ssePslldRm dst _ => .v dst
  | .ssePslldImm dst _ => .v dst
  | .ssePsllqRm dst _ => .v dst
  | .ssePsllqImm dst _ => .v dst
  | .vex128PsllwRm dst _ _ => .v dst
  | .vex128PsllwImm dst _ _ => .v dst
  | .vex128PslldRm dst _ _ => .v dst
  | .vex128PslldImm dst _ _ => .v dst
  | .vex128PsllqRm dst _ _ => .v dst
  | .vex128PsllqImm dst _ _ => .v dst
  | .vex256PsllwRm dst _ _ => .v dst
  | .vex256PsllwImm dst _ _ => .v dst
  | .vex256PslldRm dst _ _ => .v dst
  | .vex256PslldImm dst _ _ => .v dst
  | .vex256PsllqRm dst _ _ => .v dst
  | .vex256PsllqImm dst _ _ => .v dst
  | .evex128PsllwRm dst _ _ _ => .v dst
  | .evex256PsllwRm dst _ _ _ => .v dst
  | .evex512PsllwRm dst _ _ _ => .v dst
  | .evex128PslldRm dst _ _ _ => .v dst
  | .evex256PslldRm dst _ _ _ => .v dst
  | .evex512PslldRm dst _ _ _ => .v dst
  | .evex128PsllqRm dst _ _ _ => .v dst
  | .evex256PsllqRm dst _ _ _ => .v dst
  | .evex512PsllqRm dst _ _ _ => .v dst
  | .evex128PsllwImm dst _ _ _ => .v dst
  | .evex256PsllwImm dst _ _ _ => .v dst
  | .evex512PsllwImm dst _ _ _ => .v dst
  | .evex128PslldImm dst _ _ _ => .v dst
  | .evex256PslldImm dst _ _ _ => .v dst
  | .evex512PslldImm dst _ _ _ => .v dst
  | .evex128PsllqImm dst _ _ _ => .v dst
  | .evex256PsllqImm dst _ _ _ => .v dst
  | .evex512PsllqImm dst _ _ _ => .v dst

/-- The memory operand of a register or memory operand. -/
def RegMem.memOp? {α : Type} : RegMem α → Option MemOp
  | .reg _ => none
  | .mem m => some m

/-- The memory operand of a data source. -/
def DataSrc.memOp? : DataSrc → Option MemOp
  | .reg _ => none
  | .mem m | .bcst m => some m

/-- The memory operand of an instruction, if it has one (20_memory.md R53). -/
def Instr.memOp? : Instr → Option MemOp
  | .mmxPsllwRm _ cnt => cnt.memOp?
  | .mmxPsllwImm _ _ => none
  | .mmxPslldRm _ cnt => cnt.memOp?
  | .mmxPslldImm _ _ => none
  | .mmxPsllqRm _ cnt => cnt.memOp?
  | .mmxPsllqImm _ _ => none
  | .ssePsllwRm _ cnt => cnt.memOp?
  | .ssePsllwImm _ _ => none
  | .ssePslldRm _ cnt => cnt.memOp?
  | .ssePslldImm _ _ => none
  | .ssePsllqRm _ cnt => cnt.memOp?
  | .ssePsllqImm _ _ => none
  | .vex128PsllwRm _ _ cnt => cnt.memOp?
  | .vex128PsllwImm _ _ _ => none
  | .vex128PslldRm _ _ cnt => cnt.memOp?
  | .vex128PslldImm _ _ _ => none
  | .vex128PsllqRm _ _ cnt => cnt.memOp?
  | .vex128PsllqImm _ _ _ => none
  | .vex256PsllwRm _ _ cnt => cnt.memOp?
  | .vex256PsllwImm _ _ _ => none
  | .vex256PslldRm _ _ cnt => cnt.memOp?
  | .vex256PslldImm _ _ _ => none
  | .vex256PsllqRm _ _ cnt => cnt.memOp?
  | .vex256PsllqImm _ _ _ => none
  | .evex128PsllwRm _ _ _ cnt => cnt.memOp?
  | .evex256PsllwRm _ _ _ cnt => cnt.memOp?
  | .evex512PsllwRm _ _ _ cnt => cnt.memOp?
  | .evex128PslldRm _ _ _ cnt => cnt.memOp?
  | .evex256PslldRm _ _ _ cnt => cnt.memOp?
  | .evex512PslldRm _ _ _ cnt => cnt.memOp?
  | .evex128PsllqRm _ _ _ cnt => cnt.memOp?
  | .evex256PsllqRm _ _ _ cnt => cnt.memOp?
  | .evex512PsllqRm _ _ _ cnt => cnt.memOp?
  | .evex128PsllwImm _ _ src _ => src.memOp?
  | .evex256PsllwImm _ _ src _ => src.memOp?
  | .evex512PsllwImm _ _ src _ => src.memOp?
  | .evex128PslldImm _ _ src _ => src.memOp?
  | .evex256PslldImm _ _ src _ => src.memOp?
  | .evex512PslldImm _ _ src _ => src.memOp?
  | .evex128PsllqImm _ _ src _ => src.memOp?
  | .evex256PsllqImm _ _ src _ => src.memOp?
  | .evex512PsllqImm _ _ src _ => src.memOp?

/-- The memory operand that is accessed whole, whatever the count and the mask turn out to be, and its length in bytes
(20_memory.md R53, R54, R62, R72): every one but the data source of an EVEX VPSLLD or VPSLLQ immediate form. -/
def Instr.wholeOperand? (i : Instr) : Option (MemOp × Nat) :=
  i.memOp?.bind fun m =>
    match i.form with
    | .mmx _ .var => some (m, 8)
    | .sse _ .var | .vex _ _ .var | .evex _ _ .var => some (m, 16)
    | .evex l .w .imm => some (m, l.bits / 8)
    | .mmx _ .imm | .sse _ .imm | .vex _ _ .imm | .evex _ .d .imm | .evex _ .q .imm => none

/-- A register or memory source as a data source. -/
def RegMem.toData : RegMem VReg → DataSrc
  | .reg r => .reg r
  | .mem m => .mem m

end Sys2Proof

namespace Sys2Proof.Machine

/-! ## Values on natural numbers -/

/-- SHL_N(x, c) of 40_shift_core.md R130. -/
def natShift (N x c : Nat) : Nat := if c > N - 1 then 0 else x * 2 ^ c % 2 ^ N

/-- Element `j` of width N of a value, as an unsigned number (00_scope.md R11, R12). -/
def natLane (N : Nat) {W : Nat} (v : BitVec W) (j : Nat) : Nat := v.toNat / 2 ^ (j * N) % 2 ^ N

/-- The value of `n` bytes, the byte at the lowest address the least significant (20_memory.md R50). -/
def leNat (f : Nat → Byte) : Nat → Nat
  | 0 => 0
  | n + 1 => leNat f n + (f n).toNat * 256 ^ n

/-- COUNT of an MMX variable-count form (40_shift_core.md R133). -/
def State.mmxCountNat (s : State) : RegMem MmReg → Nat
  | .reg r => (s.mmr r).toNat
  | .mem m => leNat (s.operandByte m) 8

/-- COUNT of the other variable-count forms: the low 64 bits of the operand (40_shift_core.md R134). -/
def State.xmmCountNat (s : State) : RegMem VReg → Nat
  | .reg r => (s.v r).toNat % 2 ^ 64
  | .mem m => leNat (s.operandByte m) 8

/-- Element `j` of the data source of an EVEX immediate form (45_evex_imm.md). -/
def State.srcLane (s : State) (N : Nat) : DataSrc → Nat → Nat
  | .reg r, j => natLane N (s.v r) j
  | .mem m, j => leNat (fun o => s.operandByte m (j * (N / 8) + o)) (N / 8)
  | .bcst m, _ => leNat (s.operandByte m) (N / 8)

/-- What write-masking makes of element `j` with the unmasked result `x` (40_shift_core.md R140). -/
def State.maskedLane (s : State) (N : Nat) (dst : VReg) (k : Masking) (j x : Nat) : Nat :=
  if s.active k j then x else if k.z then 0 else natLane N (s.v dst) j

/-! ## When a form completes -/

/-- The launch premises of 70_reset_and_hazards.md R263 for a form, other than those on its operands. -/
def State.ready (s : State) (f : Form) : Bool := s.avail f && s.deviceReady && !(isMmx f && s.x87.pending)

/-- One byte of an operand can be read: segment and canonical checks pass, Translate answers ok, and memory holds it
(20_memory.md R51). -/
def State.byteReadable (s : State) (m : MemOp) (o : Nat) : Bool :=
  s.segmentOk m o && (s.translate (s.linear m o)).isNone && (s.mem.read (s.linear m o)).isSome

/-- The first `n` bytes of an operand can be read. -/
def State.bytesReadable (s : State) (m : MemOp) (n : Nat) : Bool := (List.range n).all (s.byteReadable m)

/-- The count of an MMX form can be read (20_memory.md R53, R58). -/
def State.mmxCountReadable (s : State) : RegMem MmReg → Bool
  | .reg _ => true
  | .mem m => s.bytesReadable m 8 && (!s.alignCheck || (s.linear m 0).toNat % 8 == 0)

/-- The count of an SSE128 form can be read (20_memory.md R54, R56; 60_exceptions.md R222 for real mode). -/
def State.sseCountReadable (s : State) : RegMem VReg → Bool
  | .reg _ => true
  | .mem m => s.bytesReadable m 16 && (s.linear m 0).toNat % 16 == 0 &&
      !(s.cfg.mode == .real && decide (0xFFFF < (s.effAddr m.ea).toNat + 15))

/-- The count of a VEX or EVEX form can be read (20_memory.md R54, R57). -/
def State.xmmCountReadable (s : State) : RegMem VReg → Bool
  | .reg _ => true
  | .mem m => s.bytesReadable m 16

/-- The data source of an EVEX VPSLLW immediate form can be read: all of it, whatever the mask (20_memory.md R62). -/
def State.wholeReadable (s : State) (VL : Nat) : RegMem VReg → Bool
  | .reg _ => true
  | .mem m => s.bytesReadable m (VL / 8)

/-- The data source of an EVEX VPSLLD or VPSLLQ immediate form can be read: with FaultSuppressF only the bytes of the
elements that are written need to be (20_memory.md R62, 60_exceptions.md R226), and of the others none lies in no
ordinary memory (20_memory.md R64). -/
def State.dataReadable (s : State) (VL N : Nat) (k : Masking) : DataSrc → Bool
  | .reg _ => true
  | .mem m => (List.range (VL / 8)).all fun o => s.byteReadable m o ||
      (s.cfg.faultSuppressF && !s.active k (o / (N / 8)) && !s.outsideMem m o)
  | .bcst m => s.bytesReadable m (N / 8) || (s.cfg.faultSuppressF && ((List.range (VL / N)).all fun j => !s.active k j) &&
      (List.range (N / 8)).all fun o => !s.outsideMem m o)

/-- Instruction `i` accesses byte `o` of its memory operand `m`: a byte of an operand that is accessed whole, or, in a
VPSLLD or VPSLLQ immediate form, a byte that masking does not suppress (20_memory.md R53, R55, R62). -/
def State.accesses (s : State) (i : Instr) (m : MemOp) (o : Nat) : Prop :=
  (∃ n, i.wholeOperand? = some (m, n) ∧ o < n) ∨
  ∃ (l : VLen) (dst : VReg) (k : Masking) (imm : Byte),
    (i = evexImmD l dst k (.mem m) imm ∧ o ∈ s.fullOffsets l.bits 32 k) ∨
    (i = evexImmD l dst k (.bcst m) imm ∧ o ∈ s.bcstOffsets l.bits 32 k) ∨
    (i = evexImmQ l dst k (.mem m) imm ∧ o ∈ s.fullOffsets l.bits 64 k) ∨
    (i = evexImmQ l dst k (.bcst m) imm ∧ o ∈ s.bcstOffsets l.bits 64 k)

/-! ## What a completed form leaves unchanged (10_state.md R31, R44) -/

/-- What no form writes: the opmask and general registers, FLAGS, MXCSR, CTRL, the segment registers, the parameters,
every byte of memory, and the model's latch. -/
def State.keepsRest (s t : State) : Prop :=
  (∀ r, t.kr r = s.kr r) ∧ (∀ r, t.xr r = s.xr r) ∧ t.flags = s.flags ∧ t.mxcsr = s.mxcsr ∧ t.ctrl = s.ctrl ∧
  t.segs = s.segs ∧ t.cfg = s.cfg ∧ (∀ a, t.mem.read a = s.mem.read a) ∧ t.ilen = s.ilen

/-- Beside pc, nothing but the destination register changes; an MMX form also writes X87, of which X87Pending is kept. -/
def State.keepsBut (s t : State) : Dest → Prop
  | .mm dst => s.keepsRest t ∧ (∀ r, t.v r = s.v r) ∧ (∀ r, r ≠ dst → t.mmr r = s.mmr r) ∧
      t.x87.pending = s.x87.pending
  | .v dst => s.keepsRest t ∧ (∀ r, t.mmr r = s.mmr r) ∧ (∀ r, r ≠ dst → t.v r = s.v r) ∧ t.x87 = s.x87

/-! ## Faults and runs -/

/-- The pc a fault records (60_exceptions.md R228). -/
def Fault.pc : Fault → Qword
  | .ud pc | .nm pc | .ss pc | .gp pc | .pf _ _ pc | .mf pc | .ac pc | .noMemory _ pc => pc

/-- A result with its next state changed. -/
def Result.mapNext (f : State → State) : Result → Result
  | .next s => .next (f s)
  | .fault x => .fault x
  | .refused r => .refused r

/-- The invariant of the model: memory is in its canonical form, no x87 exception is pending and the device is ready, so
that every MMX form that is present and not emulated can run; and the latched length is that of an instruction. -/
def State.inv (s : State) : Bool :=
  s.mem.wf && s.ready (.mmx .w .var) && decide (s.ilen ≤ maxLength)

/-- A run that is safe for `k` steps: no fault and no refusal. -/
def State.runsSafely (s : State) (k : Nat) : Prop := ∃ t, Sys2Proof.core.run k s = .next t

end Sys2Proof.Machine
end

