-- ==== Sys2Proof/Certificates/Slice0/Obligations.lean ====
section
/-! DEFINITION. The statements for the provers. Their vocabulary is in Sys2Proof/Safety.lean; each statement's docstring
names the rules of spec/ it comes from. A statement about an instruction lists its constructors, or names the function of
Sys2Proof/Decode.lean that gives them. -/

open Sys2Proof Sys2Proof.Machine

/-! ## The shift, the packed shift, write-masking, broadcast (40_shift_core.md) -/

/-- R130: the shift of one element, as a number and bit by bit. -/
def Obligations.ShiftOfOneElement : Prop :=
  ∀ N ∈ [16, 32, 64], ∀ (x : BitVec N) (c : Nat),
    (shl N x c).toNat = (if c > N - 1 then 0 else x.toNat * 2 ^ c % 2 ^ N) ∧
    (c ≤ N - 1 → ∀ i, i < N → (shl N x c).getLsbD i = (decide (c ≤ i) && x.getLsbD (i - c)))

/-- R131: a count above N-1 gives 0, it is not reduced modulo N; the count N-1 keeps bit 0 alone, in bit N-1. -/
def Obligations.ShiftThresholds : Prop :=
  ∀ N ∈ [16, 32, 64], ∀ x : BitVec N,
    (∀ c, c > N - 1 → shl N x c = 0#N) ∧
    shl N x (N - 1) = if x.getLsbD 0 then BitVec.twoPow N (N - 1) else 0#N

/-- R132 (a) to (g): the laws of SHL_N. -/
def Obligations.ShiftLaws : Prop :=
  ∀ N ∈ [16, 32, 64], ∀ (x : BitVec N) (c a b : Nat),
    (shl N x c).toNat = x.toNat * 2 ^ c % 2 ^ N ∧
    shl N x 0 = x ∧
    shl N 0#N c = 0#N ∧
    shl N (shl N x a) b = shl N x (a + b) ∧
    shl N x 1 = x + x ∧
    (0 < c → c ≤ N - 1 → (shl N x c).extractLsb' 0 c = 0#c ∧
      (shl N x c).extractLsb' c (N - c) = x.extractLsb' 0 (N - c)) ∧
    shl N x c = BitVec.ofInt N (x.toInt * 2 ^ c)

/-- R136: the elements of the packed shift, how many they are, that they determine it, and that it is 0 above the
threshold. -/
def Obligations.PackedShiftElements : Prop :=
  ∀ p ∈ [(64, 16, 4), (64, 32, 2), (64, 64, 1), (128, 16, 8), (128, 32, 4), (128, 64, 2), (256, 16, 16), (256, 32, 8),
      (256, 64, 4), (512, 16, 32), (512, 32, 16), (512, 64, 8)],
    p.1 / p.2.1 = p.2.2 ∧
    ∀ (src : BitVec p.1) (c : Nat),
      (∀ j, j < p.2.2 → natLane p.2.1 (psll p.1 p.2.1 src c) j = natShift p.2.1 (natLane p.2.1 src j) c) ∧
      (∀ v : BitVec p.1, (∀ j, j < p.2.2 → natLane p.2.1 v j = natShift p.2.1 (natLane p.2.1 src j) c) →
        v = psll p.1 p.2.1 src c) ∧
      (c > p.2.1 - 1 → psll p.1 p.2.1 src c = 0#p.1)

/-- R139: two halves shifted by one count are the whole shifted by it. -/
def Obligations.PackedShiftOfHalves : Prop :=
  ∀ N ∈ [16, 32, 64], ∀ c : Nat,
    (∀ a b : BitVec 256, psll 512 N (a ++ b : BitVec (256 + 256)) c = (psll 256 N a c ++ psll 256 N b c : BitVec (256 + 256))) ∧
    (∀ a b : BitVec 128, psll 256 N (a ++ b : BitVec (128 + 128)) c = (psll 128 N a c ++ psll 128 N b c : BitVec (128 + 128)))

/-- R132 (b), (d) lifted to every packed shift: a shift by 0 is the identity, two shifts are one by the sum of the counts. -/
def Obligations.PackedShiftsCompose : Prop :=
  ∀ W ∈ [64, 128, 256, 512], ∀ N ∈ [16, 32, 64], ∀ (src : BitVec W) (a b : Nat),
    psll W N src 0 = src ∧ psll W N (psll W N src a) b = psll W N src (a + b)

/-- R140, R146: each element of MASKWRITE; the mask bits at and above KL are ignored; with no writemask the mask and z are.
Each element of BCAST is the one element, and the packed shift of a broadcast is the broadcast of the shift. -/
def Obligations.MaskWriteAndBroadcastElements : Prop :=
  ∀ VL ∈ [128, 256, 512], ∀ N ∈ [16, 32, 64],
    (∀ (tmp old : BitVec VL) (k k' : Qword) (nomask z z' : Bool),
      (∀ j, j < VL / N → natLane N (maskWrite VL N tmp old k nomask z) j =
        if nomask = true ∨ k.getLsbD j = true then natLane N tmp j else if z then 0 else natLane N old j) ∧
      ((∀ j, j < VL / N → k.getLsbD j = k'.getLsbD j) →
        maskWrite VL N tmp old k nomask z = maskWrite VL N tmp old k' nomask z) ∧
      maskWrite VL N tmp old k true z = tmp ∧ maskWrite VL N tmp old k' true z' = tmp) ∧
    ∀ (e : BitVec N) (c : Nat),
      (∀ j, j < VL / N → natLane N (bcast VL N e) j = e.toNat) ∧
      psll VL N (bcast VL N e) c = bcast VL N (shl N e c)

/-! ## What each form does when it completes (41_mmx.md to 45_evex_imm.md)

The hypotheses are on the state and the operands alone: the form is ready (70_reset_and_hazards.md R263) and its memory
operand, if it has one, can be read. Each conclusion is that the instruction completes, what it leaves unchanged
(10_state.md R31, R44), the new pc (R35) and every element of the destination, from the values before the instruction
(40_shift_core.md R145), whichever registers are the same. -/

/-- R150, R152, R154: PSLLW, PSLLD, PSLLQ mm, mm/m64. -/
def Obligations.MmxVariableCountForms : Prop :=
  ∀ (s : State) (dst : MmReg) (cnt : RegMem MmReg),
    ∀ p ∈ [(Instr.mmxPsllwRm dst cnt, 16), (Instr.mmxPslldRm dst cnt, 32), (Instr.mmxPsllqRm dst cnt, 64)],
      s.ready p.1.form = true → s.mmxCountReadable cnt = true →
      ∃ t, exec p.1 s = .next t ∧ s.keepsBut t (.mm dst) ∧ t.pc = s.pc + BitVec.ofNat 64 s.ilen ∧
        t.x87 = { Config.x87Effect s.x87 dst with pending := s.x87.pending } ∧
        ∀ j, j < 64 / p.2 →
          natLane p.2 (t.mmr dst) j = natShift p.2 (natLane p.2 (s.mmr dst) j) (s.mmxCountNat cnt)

/-- R151, R153, R155: PSLLW, PSLLD, PSLLQ mm, imm8. -/
def Obligations.MmxImmediateForms : Prop :=
  ∀ (s : State) (dst : MmReg) (imm : Byte),
    ∀ p ∈ [(Instr.mmxPsllwImm dst imm, 16), (Instr.mmxPslldImm dst imm, 32), (Instr.mmxPsllqImm dst imm, 64)],
      s.ready p.1.form = true →
      ∃ t, exec p.1 s = .next t ∧ s.keepsBut t (.mm dst) ∧ t.pc = s.pc + BitVec.ofNat 64 s.ilen ∧
        t.x87 = { Config.x87Effect s.x87 dst with pending := s.x87.pending } ∧
        ∀ j, j < 64 / p.2 → natLane p.2 (t.mmr dst) j = natShift p.2 (natLane p.2 (s.mmr dst) j) imm.toNat

/-- R160, R162, R164: PSLLW, PSLLD, PSLLQ xmm1, xmm2/m128. Bits 511:128 of the destination are kept (R141). -/
def Obligations.SseVariableCountForms : Prop :=
  ∀ (s : State) (dst : VReg) (cnt : RegMem VReg),
    ∀ p ∈ [(Instr.ssePsllwRm dst cnt, 16), (Instr.ssePslldRm dst cnt, 32), (Instr.ssePsllqRm dst cnt, 64)],
      s.ready p.1.form = true → s.sseCountReadable cnt = true →
      ∃ t, exec p.1 s = .next t ∧ s.keepsBut t (.v dst) ∧ t.pc = s.pc + BitVec.ofNat 64 s.ilen ∧
        (t.v dst).toNat / 2 ^ 128 = (s.v dst).toNat / 2 ^ 128 ∧
        ∀ j, j < 128 / p.2 → natLane p.2 (t.v dst) j = natShift p.2 (natLane p.2 (s.v dst) j) (s.xmmCountNat cnt)

/-- R161, R163, R165: PSLLW, PSLLD, PSLLQ xmm1, imm8. -/
def Obligations.SseImmediateForms : Prop :=
  ∀ (s : State) (dst : VReg) (imm : Byte),
    ∀ p ∈ [(Instr.ssePsllwImm dst imm, 16), (Instr.ssePslldImm dst imm, 32), (Instr.ssePsllqImm dst imm, 64)],
      s.ready p.1.form = true →
      ∃ t, exec p.1 s = .next t ∧ s.keepsBut t (.v dst) ∧ t.pc = s.pc + BitVec.ofNat 64 s.ilen ∧
        (t.v dst).toNat / 2 ^ 128 = (s.v dst).toNat / 2 ^ 128 ∧
        ∀ j, j < 128 / p.2 → natLane p.2 (t.v dst) j = natShift p.2 (natLane p.2 (s.v dst) j) imm.toNat

/-- R170, R172, R174, R176, R178, R180: VPSLLW, VPSLLD, VPSLLQ xmm1, xmm2, xmm3/m128 and ymm1, ymm2, xmm3/m128. The bits
above the operand are 0 (R142). -/
def Obligations.VexVariableCountForms : Prop :=
  ∀ (s : State) (dst src : VReg) (cnt : RegMem VReg),
    ∀ p ∈ [(Instr.vex128PsllwRm dst src cnt, 128, 16), (Instr.vex128PslldRm dst src cnt, 128, 32),
        (Instr.vex128PsllqRm dst src cnt, 128, 64), (Instr.vex256PsllwRm dst src cnt, 256, 16),
        (Instr.vex256PslldRm dst src cnt, 256, 32), (Instr.vex256PsllqRm dst src cnt, 256, 64)],
      s.ready p.1.form = true → s.xmmCountReadable cnt = true →
      ∃ t, exec p.1 s = .next t ∧ s.keepsBut t (.v dst) ∧ t.pc = s.pc + BitVec.ofNat 64 s.ilen ∧
        (t.v dst).toNat < 2 ^ p.2.1 ∧
        ∀ j, j < p.2.1 / p.2.2 →
          natLane p.2.2 (t.v dst) j = natShift p.2.2 (natLane p.2.2 (s.v src) j) (s.xmmCountNat cnt)

/-- R171, R173, R175, R177, R179, R181: VPSLLW, VPSLLD, VPSLLQ xmm1, xmm2, imm8 and ymm1, ymm2, imm8. -/
def Obligations.VexImmediateForms : Prop :=
  ∀ (s : State) (dst src : VReg) (imm : Byte),
    ∀ p ∈ [(Instr.vex128PsllwImm dst src imm, 128, 16), (Instr.vex128PslldImm dst src imm, 128, 32),
        (Instr.vex128PsllqImm dst src imm, 128, 64), (Instr.vex256PsllwImm dst src imm, 256, 16),
        (Instr.vex256PslldImm dst src imm, 256, 32), (Instr.vex256PsllqImm dst src imm, 256, 64)],
      s.ready p.1.form = true →
      ∃ t, exec p.1 s = .next t ∧ s.keepsBut t (.v dst) ∧ t.pc = s.pc + BitVec.ofNat 64 s.ilen ∧
        (t.v dst).toNat < 2 ^ p.2.1 ∧
        ∀ j, j < p.2.1 / p.2.2 → natLane p.2.2 (t.v dst) j = natShift p.2.2 (natLane p.2.2 (s.v src) j) imm.toNat

/-- R190, R193, R196: VPSLLW, VPSLLD, VPSLLQ xmm1 {k1}{z}, xmm2, xmm3/m128. Each element is what write-masking makes of
the shifted one (R140); the bits above the vector length are 0 (R142). -/
def Obligations.Evex128VariableCountForms : Prop :=
  ∀ (s : State) (dst src : VReg) (k : Masking) (cnt : RegMem VReg),
    ∀ p ∈ [(Instr.evex128PsllwRm dst k src cnt, 16), (Instr.evex128PslldRm dst k src cnt, 32),
        (Instr.evex128PsllqRm dst k src cnt, 64)],
      s.ready p.1.form = true → s.xmmCountReadable cnt = true →
      ∃ t, exec p.1 s = .next t ∧ s.keepsBut t (.v dst) ∧ t.pc = s.pc + BitVec.ofNat 64 s.ilen ∧
        (t.v dst).toNat < 2 ^ 128 ∧
        ∀ j, j < 128 / p.2 → natLane p.2 (t.v dst) j =
          s.maskedLane p.2 dst k j (natShift p.2 (natLane p.2 (s.v src) j) (s.xmmCountNat cnt))

/-- R191, R194, R197: VPSLLW, VPSLLD, VPSLLQ ymm1 {k1}{z}, ymm2, xmm3/m128. -/
def Obligations.Evex256VariableCountForms : Prop :=
  ∀ (s : State) (dst src : VReg) (k : Masking) (cnt : RegMem VReg),
    ∀ p ∈ [(Instr.evex256PsllwRm dst k src cnt, 16), (Instr.evex256PslldRm dst k src cnt, 32),
        (Instr.evex256PsllqRm dst k src cnt, 64)],
      s.ready p.1.form = true → s.xmmCountReadable cnt = true →
      ∃ t, exec p.1 s = .next t ∧ s.keepsBut t (.v dst) ∧ t.pc = s.pc + BitVec.ofNat 64 s.ilen ∧
        (t.v dst).toNat < 2 ^ 256 ∧
        ∀ j, j < 256 / p.2 → natLane p.2 (t.v dst) j =
          s.maskedLane p.2 dst k j (natShift p.2 (natLane p.2 (s.v src) j) (s.xmmCountNat cnt))

/-- R192, R195, R198: VPSLLW, VPSLLD, VPSLLQ zmm1 {k1}{z}, zmm2, xmm3/m128. -/
def Obligations.Evex512VariableCountForms : Prop :=
  ∀ (s : State) (dst src : VReg) (k : Masking) (cnt : RegMem VReg),
    ∀ p ∈ [(Instr.evex512PsllwRm dst k src cnt, 16), (Instr.evex512PslldRm dst k src cnt, 32),
        (Instr.evex512PsllqRm dst k src cnt, 64)],
      s.ready p.1.form = true → s.xmmCountReadable cnt = true →
      ∃ t, exec p.1 s = .next t ∧ s.keepsBut t (.v dst) ∧ t.pc = s.pc + BitVec.ofNat 64 s.ilen ∧
        ∀ j, j < 512 / p.2 → natLane p.2 (t.v dst) j =
          s.maskedLane p.2 dst k j (natShift p.2 (natLane p.2 (s.v src) j) (s.xmmCountNat cnt))

/-- R205, R206, R207: VPSLLW xmm1/ymm1/zmm1 {k1}{z}, register or memory source, imm8. The whole memory operand has to be
readable whatever the mask is (20_memory.md R62). -/
def Obligations.EvexImmediateWordForms : Prop :=
  ∀ (s : State) (dst : VReg) (k : Masking) (src : RegMem VReg) (imm : Byte),
    ∀ p ∈ [(Instr.evex128PsllwImm dst k src imm, 128), (Instr.evex256PsllwImm dst k src imm, 256),
        (Instr.evex512PsllwImm dst k src imm, 512)],
      s.ready p.1.form = true → s.wholeReadable p.2 src = true →
      ∃ t, exec p.1 s = .next t ∧ s.keepsBut t (.v dst) ∧ t.pc = s.pc + BitVec.ofNat 64 s.ilen ∧
        (t.v dst).toNat < 2 ^ p.2 ∧
        ∀ j, j < p.2 / 16 → natLane 16 (t.v dst) j =
          s.maskedLane 16 dst k j (natShift 16 (s.srcLane 16 src.toData j) imm.toNat)

/-- R208 to R213: VPSLLD and VPSLLQ xmm1/ymm1/zmm1 {k1}{z}, register, memory or broadcast source, imm8. With FaultSuppressF
only the bytes of the elements that are written have to be readable (20_memory.md R62), and of the others none lies in no
ordinary memory (20_memory.md R64, log 11). -/
def Obligations.EvexImmediateDoubleAndQuadForms : Prop :=
  ∀ (s : State) (dst : VReg) (k : Masking) (src : DataSrc) (imm : Byte),
    ∀ p ∈ [(Instr.evex128PslldImm dst k src imm, 128, 32), (Instr.evex256PslldImm dst k src imm, 256, 32),
        (Instr.evex512PslldImm dst k src imm, 512, 32), (Instr.evex128PsllqImm dst k src imm, 128, 64),
        (Instr.evex256PsllqImm dst k src imm, 256, 64), (Instr.evex512PsllqImm dst k src imm, 512, 64)],
      s.ready p.1.form = true → s.dataReadable p.2.1 p.2.2 k src = true →
      ∃ t, exec p.1 s = .next t ∧ s.keepsBut t (.v dst) ∧ t.pc = s.pc + BitVec.ofNat 64 s.ilen ∧
        (t.v dst).toNat < 2 ^ p.2.1 ∧
        ∀ j, j < p.2.1 / p.2.2 → natLane p.2.2 (t.v dst) j =
          s.maskedLane p.2.2 dst k j (natShift p.2.2 (s.srcLane p.2.2 src j) imm.toNat)

/-! ## Upper bits, masks, and forms that agree -/

/-- R141, R142: a completed SSE128 form keeps bits 511:128 of its destination; a completed VEX or EVEX form leaves the bits
above its vector length 0, whatever the mask. -/
def Obligations.BitsAboveTheOperand : Prop :=
  ∀ (i : Instr) (s t : State) (dst : VReg), exec i s = .next t → i.dest = .v dst →
    (∀ e c, i.form = .sse e c → (t.v dst).toNat / 2 ^ 128 = (s.v dst).toNat / 2 ^ 128) ∧
    (∀ l e c, i.form = .vex l e c → (t.v dst).toNat < 2 ^ l.bits) ∧
    (∀ l e c, i.form = .evex l e c → (t.v dst).toNat < 2 ^ l.bits)

/-- R140, R142: an EVEX form under an all-zero writemask leaves V[dst] = 0 with zeroing; with merging it keeps the low VL
bits and zeroes the rest. -/
def Obligations.AllZeroMask : Prop :=
  ∀ (s t : State) (l : VLen) (dst src : VReg) (k : Masking) (cnt : RegMem VReg) (d : DataSrc) (imm : Byte),
    k.aaa ≠ 0 →
    ∀ p ∈ [(evexRm l .w dst k src cnt, 16), (evexRm l .d dst k src cnt, 32), (evexRm l .q dst k src cnt, 64),
        (evexImmW l dst k cnt imm, 16), (evexImmD l dst k d imm, 32), (evexImmQ l dst k d imm, 64)],
      (∀ j, j < l.bits / p.2 → (s.kr k.aaa).getLsbD j = false) → exec p.1 s = .next t →
      (t.v dst).toNat = if k.z then 0 else (s.v dst).toNat % 2 ^ l.bits

/-- R140: a writemask whose bits KL-1:0 are all 1 gives what no writemask gives, the faults included. -/
def Obligations.AllOnesMaskIsNoMask : Prop :=
  ∀ (s : State) (l : VLen) (dst src : VReg) (k : Masking) (cnt : RegMem VReg) (d : DataSrc) (imm : Byte),
    let nomask : Masking := ⟨0, false⟩
    (∀ e, (∀ j, j < l.bits / e.bits → (s.kr k.aaa).getLsbD j = true) →
      exec (evexRm l e dst k src cnt) s = exec (evexRm l e dst nomask src cnt) s) ∧
    ((∀ j, j < l.bits / 16 → (s.kr k.aaa).getLsbD j = true) →
      exec (evexImmW l dst k cnt imm) s = exec (evexImmW l dst nomask cnt imm) s) ∧
    ((∀ j, j < l.bits / 32 → (s.kr k.aaa).getLsbD j = true) →
      exec (evexImmD l dst k d imm) s = exec (evexImmD l dst nomask d imm) s) ∧
    ((∀ j, j < l.bits / 64 → (s.kr k.aaa).getLsbD j = true) →
      exec (evexImmQ l dst k d imm) s = exec (evexImmQ l dst nomask d imm) s)

/-- R133, R134, R135: a variable-count form with a register count does what the immediate form of its class, element width
and length does with that count, in every class and whatever the outcome. -/
def Obligations.VariableCountAgreesWithImmediate : Prop :=
  ∀ (s : State) (e : Elem) (l : VLen) (wide : Bool) (mdst mcnt : MmReg) (dst src cnt : VReg) (k : Masking) (imm : Byte),
    ((s.mmr mcnt).toNat = imm.toNat → exec (mmxRm e mdst (.reg mcnt)) s = exec (mmxImm e mdst imm) s) ∧
    ((s.v cnt).toNat % 2 ^ 64 = imm.toNat →
      exec (sseRm e dst (.reg cnt)) s = exec (sseImm e dst imm) s ∧
      exec (vexRm wide e dst src (.reg cnt)) s = exec (vexImm wide e dst src imm) s ∧
      exec (evexRm l .w dst k src (.reg cnt)) s = exec (evexImmW l dst k (.reg src) imm) s ∧
      exec (evexRm l .d dst k src (.reg cnt)) s = exec (evexImmD l dst k (.reg src) imm) s ∧
      exec (evexRm l .q dst k src (.reg cnt)) s = exec (evexImmQ l dst k (.reg src) imm) s)

/-! ## Faults (60_exceptions.md) -/

/-- 10_state.md R38: which bits decide that a form is available. (That it is computed from them is the model's, log 3; that
MODE, CR0.PE and EFLAGS.VM can each say real or virtual-8086 mode, log 4.) -/
def Obligations.AvailabilityBits : Prop :=
  ∀ (s : State) (e : Elem) (c : CountKind) (l : VLen),
    let protectedMode := s.cfg.mode ≠ .real ∧ s.cfg.mode ≠ .v86 ∧ s.ctrl.cr0.getLsbD 0 = true ∧ s.flags.getLsbD 17 = false
    let avxEnabled := s.ctrl.cr4.getLsbD 18 = true ∧ s.ctrl.xcr0.getLsbD 1 = true ∧ s.ctrl.xcr0.getLsbD 2 = true
    let zmmEnabled := s.ctrl.xcr0.getLsbD 5 = true ∧ s.ctrl.xcr0.getLsbD 6 = true ∧ s.ctrl.xcr0.getLsbD 7 = true
    (s.avail (.mmx e c) = true ↔ s.cfg.features.mmx = true ∧ s.ctrl.cr0.getLsbD 2 = false) ∧
    (s.avail (.sse e c) = true ↔
      s.cfg.features.sse2 = true ∧ s.ctrl.cr0.getLsbD 2 = false ∧ s.ctrl.cr4.getLsbD 9 = true) ∧
    (s.avail (.vex .v128 e c) = true ↔ s.cfg.features.avx = true ∧ protectedMode ∧ avxEnabled) ∧
    (s.avail (.vex .v256 e c) = true ↔ s.cfg.features.avx2 = true ∧ protectedMode ∧ avxEnabled) ∧
    (s.avail (.evex l e c) = true ↔
      (if e = .w then s.cfg.features.avx512bw else s.cfg.features.avx512f) = true ∧
      (l = .v512 ∨ s.cfg.features.avx512vl = true) ∧ protectedMode ∧ avxEnabled ∧ zmmEnabled) ∧
    (s.deviceReady = true ↔ s.ctrl.cr0.getLsbD 3 = false)

/-- R229 items 3 to 5: a form raises #UD exactly when it is not available, #NM exactly when it is available and the device
is not ready, #MF exactly when it is an MMX form that is available with the device ready and an x87 exception pending.
That #MF goes ahead of every operand fault is the spec's own choice ("The relative order inside step 6, and of step 5
against step 6, is not fixed by anything this spec's writer knows", R229), and that CR0.NE is not tested is the model's
(log 26). -/
def Obligations.ChecksBeforeTheOperands : Prop :=
  ∀ (i : Instr) (s : State),
    (exec i s = .fault (.ud s.pc) ↔ s.avail i.form = false) ∧
    (exec i s = .fault (.nm s.pc) ↔ s.avail i.form = true ∧ s.deviceReady = false) ∧
    (exec i s = .fault (.mf s.pc) ↔
      s.avail i.form = true ∧ s.deviceReady = true ∧ isMmx i.form = true ∧ s.x87.pending = true)

/-- 20_memory.md R56: a memory count of an SSE128 form at an address that is not a multiple of 16 is #GP(0), whatever the
alignment-check setting. That the segment checks come first (they pass here) and #PF after is the order inside item 6 of
60_exceptions.md R229 (R51 of 20_memory.md; log 14), which the spec marks as its own: "The relative order inside step 6, and
of step 5 against step 6, is not fixed by anything this spec's writer knows beyond "segment checks precede paging"; it is
this spec's choice." -/
def Obligations.MisalignedSseCount : Prop :=
  ∀ (s : State) (dst : VReg) (m : MemOp),
    ∀ i ∈ [Instr.ssePsllwRm dst (.mem m), Instr.ssePslldRm dst (.mem m), Instr.ssePsllqRm dst (.mem m)],
      s.ready i.form = true → (∀ o, o < 16 → s.segmentOk m o = true ∧ s.translateSegment (s.linear m o) = false) →
      (s.linear m 0).toNat % 16 ≠ 0 → exec i s = .fault (.gp s.pc)

/-- 20_memory.md R58: an MMX memory count needs no alignment, but with CR0.AM = 1, EFLAGS.AC = 1 and privilege level 3 an
address that is not a multiple of 8 is #AC(0). -/
def Obligations.MisalignedMmxCount : Prop :=
  ∀ (s : State) (dst : MmReg) (m : MemOp),
    ∀ i ∈ [Instr.mmxPsllwRm dst (.mem m), Instr.mmxPslldRm dst (.mem m), Instr.mmxPsllqRm dst (.mem m)],
      s.ready i.form = true → s.bytesReadable m 8 = true → (s.linear m 0).toNat % 8 ≠ 0 →
      if s.ctrl.cr0.getLsbD 18 = true ∧ s.flags.getLsbD 18 = true ∧ s.ctrl.cpl = 3#2 then
        exec i s = .fault (.ac s.pc)
      else ∃ t, exec i s = .next t

/-- 30_encoding.md R97, 60_exceptions.md R221: a byte of an operand that fails the segment or canonical check is #SS(0)
through SS and #GP(0) otherwise, ahead of every other memory fault. (That it goes ahead of the SSE128 alignment is the order
that R229 marks as the spec's choice, log 14; an SSE128 operand in real mode can raise the #GP(0) of R222 first, whatever the
segment, log 15; that the check is made on every byte, log 16.) -/
def Obligations.SegmentCheckFault : Prop :=
  ∀ (s : State) (i : Instr) (m : MemOp) (n o : Nat), i.wholeOperand? = some (m, n) → s.ready i.form = true →
    (∀ e c, i.form = .sse e c → s.cfg.mode ≠ .real) → o < n → s.segmentOk m o = false →
    exec i s = .fault (if m.seg = .ss then .ss s.pc else .gp s.pc)

/-- R228: a #PF reports the linear address of an accessed byte of the memory operand that Translate refuses, with Translate's
code but W/R and I/D clear and U/S saying whether the privilege level is 3 (log 32). Which of them it is stays free (log 10). -/
def Obligations.PageFaultReport : Prop :=
  ∀ (i : Instr) (s : State) (code : BitVec 32) (a pc : Qword), exec i s = .fault (.pf code a pc) →
    pc = s.pc ∧ ∃ m o c, i.memOp? = some m ∧ s.accesses i m o ∧ a = s.linear m o ∧ s.translatePage a = some c ∧
      code.getLsbD 1 = false ∧ code.getLsbD 4 = false ∧ code.getLsbD 2 = decide (s.ctrl.cpl = 3#2) ∧
      ∀ b, b < 32 → b ≠ 1 → b ≠ 2 → b ≠ 4 → code.getLsbD b = c.getLsbD b

/-- 20_memory.md R54, R62, R72: an operand that is accessed whole faults when any one of its bytes cannot be read, the
ignored upper bytes of a count among them, whatever the count and the writemask. (For a byte that memory does not hold the
fault is the model's, log 11.) -/
def Obligations.EveryByteOfAWholeOperandIsChecked : Prop :=
  ∀ (s : State) (i : Instr) (m : MemOp) (n o : Nat), i.wholeOperand? = some (m, n) → o < n →
    s.byteReadable m o = false → ∃ x, exec i s = .fault x

/-- 20_memory.md R62, 60_exceptions.md R226: fault suppression in the VPSLLD and VPSLLQ immediate forms. With it, a form
that writes no element completes whatever refuses the bytes of its memory operand; an element that is written still faults
on a byte that cannot be read. Without it, every byte of a full-width or broadcast operand is checked. With or without it,
an operand of which a byte lies in no ordinary memory, though nothing refuses it, is stuck (20_memory.md R64,
93_implementation_defined.md U4). The fault for a byte that memory does not hold is the model's (log 11). -/
def Obligations.FaultSuppression : Prop :=
  ∀ (s : State) (l : VLen) (dst : VReg) (k : Masking) (m : MemOp) (imm : Byte),
    ∀ p ∈ [(fun d => evexImmD l dst k d imm, 32), (fun d => evexImmQ l dst k d imm, 64)],
      (s.cfg.faultSuppressF = true → (∀ j, j < l.bits / p.2 → s.active k j = false) →
        (∀ o, o < l.bits / 8 → s.outsideMem m o = false) → s.ready (p.1 (.mem m)).form = true →
        (∃ t, exec (p.1 (.mem m)) s = .next t) ∧ ∃ t, exec (p.1 (.bcst m)) s = .next t) ∧
      (∀ j o, s.cfg.faultSuppressF = true → j < l.bits / p.2 → s.active k j = true → o < p.2 / 8 →
        (s.byteReadable m (j * (p.2 / 8) + o) = false → ∃ x, exec (p.1 (.mem m)) s = .fault x) ∧
        (s.byteReadable m o = false → ∃ x, exec (p.1 (.bcst m)) s = .fault x)) ∧
      (∀ o, s.cfg.faultSuppressF = false → s.byteReadable m o = false →
        (o < l.bits / 8 → ∃ x, exec (p.1 (.mem m)) s = .fault x) ∧
        (o < p.2 / 8 → ∃ x, exec (p.1 (.bcst m)) s = .fault x)) ∧
      ∀ o, s.outsideMem m o = true →
        (o < l.bits / 8 → ∃ x, exec (p.1 (.mem m)) s = .fault x) ∧
        (o < p.2 / 8 → ∃ x, exec (p.1 (.bcst m)) s = .fault x)

/-- R57, R222 to R228: no instruction is refused; every fault carries the pc of the instruction; #MF and #AC are faults of
the MMX forms alone; an instruction with no memory operand raises no fault but #UD, #NM and #MF. -/
def Obligations.FaultKinds : Prop :=
  ∀ (i : Instr) (s : State),
    (∀ r, exec i s ≠ .refused r) ∧
    ∀ x, exec i s = .fault x → x.pc = s.pc ∧
      (x = .mf s.pc ∨ x = .ac s.pc → isMmx i.form = true) ∧
      (i.memOp? = none → x = .ud s.pc ∨ x = .nm s.pc ∨ x = .mf s.pc)

/-! ## What a form does not depend on -/

/-- 10_state.md R36, R37: MXCSR is neither read nor written, and of FLAGS only VM and AC can matter, to the checks. -/
def Obligations.FlagsAndMxcsrDoNotMatter : Prop :=
  ∀ (i : Instr) (s : State) (f : BitVec 64) (w : BitVec 32),
    f.getLsbD 17 = s.flags.getLsbD 17 → f.getLsbD 18 = s.flags.getLsbD 18 →
    exec i { s with flags := f, mxcsr := w } = Result.mapNext (fun t => { t with flags := f, mxcsr := w }) (exec i s)

/-- 10_state.md R27, R28: K[0] is not read, nor are the mask bits at and above KL, nor any mask by a form that is not EVEX. -/
def Obligations.MaskBitsThatAreNotRead : Prop :=
  ∀ (i : Instr) (s : State) (k : Vector Qword 8),
    (∀ l e c, i.form = .evex l e c → ∀ r : Fin 8, r ≠ 0 → ∀ j, j < l.bits / e.bits →
      (k[r.val]).getLsbD j = (s.kr r).getLsbD j) →
    exec i { s with k := k } = Result.mapNext (fun t => { t with k := k }) (exec i s)

/-- 10_state.md R25, R42: an MMX form neither reads nor writes V; the others neither read nor write MM and X87. -/
def Obligations.RegisterFilesAreSeparate : Prop :=
  ∀ (i : Instr) (s : State) (v : Vector Vec 32) (mm : Vector Qword 8) (y : X87),
    (isMmx i.form = true → exec i { s with vec := v } = Result.mapNext (fun t => { t with vec := v }) (exec i s)) ∧
    (isMmx i.form = false →
      exec i { s with mm := mm, x87 := y } = Result.mapNext (fun t => { t with mm := mm, x87 := y }) (exec i s))

/-- 10_state.md R31, R33, R40: without a memory operand an instruction reads no general register, no segment register and
no memory. -/
def Obligations.RegisterFormsReadNoAddress : Prop :=
  ∀ (i : Instr) (s : State) (x : Vector Qword 16) (g : SegFile) (mem : Memory), i.memOp? = none →
    exec i { s with x := x, segs := g, mem := mem } =
      Result.mapNext (fun t => { t with x := x, segs := g, mem := mem }) (exec i s)

/-- 60_exceptions.md R236: an instruction that completes at one privilege level completes at another with the same result,
where the two places through which privilege reaches it do not tell the levels apart: Translate answers alike for the bytes
of the memory operand, and alignment checking does not stop an MMX form with a memory count. -/
def Obligations.PrivilegeLevelDoesNotMatter : Prop :=
  ∀ (i : Instr) (s t : State) (c : BitVec 2),
    let s' : State := { s with ctrl := { s.ctrl with cpl := c } }
    exec i s = .next t → (s'.alignCheck = false ∨ isMmx i.form = false ∨ i.memOp? = none) →
    (∀ m, i.memOp? = some m → ∀ o, o < 64 → s'.translate (s.linear m o) = s.translate (s.linear m o)) →
    exec i s' = .next { t with ctrl := { t.ctrl with cpl := c } }

/-! ## The machine -/

/-- When the program text at pc decodes to a well-formed instruction, a step runs it with its length latched (log 8). -/
def Obligations.StepRunsTheDecodedInstruction : Prop :=
  ∀ (s : State) (i : Instr) (n : Nat), decode s.cfg.mode s.fetchBytes = .ok (i, n) → i.wf s.cfg.mode = true →
    step s = exec i (s.latch n)

/-- 10_state.md R34, 30_encoding.md R122: when the bytes that encode a well-formed instruction stand at pc, whatever follows
them, a step runs that instruction. -/
def Obligations.StepRunsTheEncodedInstruction : Prop :=
  ∀ (s : State) (i : Instr), i.wf s.cfg.mode = true →
    (∀ j, j < (encode s.cfg.mode i).length → s.fetchByte j = (encode s.cfg.mode i)[j]?) →
    step s = exec i (s.latch (encode s.cfg.mode i).length)

/-- 10_state.md R44: the frame of every step that completes. Nothing but pc and the destination register of the decoded
instruction changes, and X87 in an MMX form; of the destination of an SSE128 form bits 511:128 do not. No form writes
memory (20_memory.md R52) or an opmask register (10_state.md R29). -/
def Obligations.FrameOfEveryStep : Prop :=
  ∀ s t : State, step s = .next t →
    ∃ i n, decode s.cfg.mode s.fetchBytes = .ok (i, n) ∧ (s.latch n).keepsBut t i.dest ∧ t.mem = s.mem ∧ t.k = s.k ∧
      ∀ dst e c, i.dest = .v dst → i.form = .sse e c → (t.v dst).toNat / 2 ^ 128 = (s.v dst).toNat / 2 ^ 128

/-- 10_state.md R35: a step that completes adds the length of the instruction to pc, modulo 2^64 (92_eei_decisions.md D11,
log 30); a step that faults reports the unchanged pc. -/
def Obligations.StepAdvancesPc : Prop :=
  ∀ s : State,
    (∀ t, step s = .next t → ∃ i n, decode s.cfg.mode s.fetchBytes = .ok (i, n) ∧ 3 ≤ n ∧ n ≤ 15 ∧
      t.pc.toNat = (s.pc.toNat + n) % 2 ^ 64) ∧
    ∀ x, step s = .fault x → x.pc = s.pc

/-- Every step keeps the invariant: the memory's canonical form, the readiness of the MMX forms (10_state.md R39,
60_exceptions.md R224), and a latched length no longer than an instruction (30_encoding.md R116). And no step changes
whether a form is ready, the control and segment registers, or a parameter (10_state.md R39, R45). -/
def Obligations.StepKeepsTheInvariant : Prop :=
  ∀ s t : State, step s = .next t →
    (s.inv = true → t.inv = true) ∧ (∀ f, t.ready f = s.ready f) ∧ t.ctrl = s.ctrl ∧ t.segs = s.segs ∧ t.cfg = s.cfg

/-- The invariant holds at reset. The reset state is the model's choice where the spec gives none (log 5, log 6). -/
def Obligations.InvariantAtReset : Prop := State.reset.inv = true

/-- R224: from a state with no x87 exception pending, no run of any length ends in #MF. -/
def Obligations.NoMfInAnyRun : Prop :=
  ∀ (k : Nat) (s : State) (pc : Qword), s.x87.pending = false →
    Host.Core.run Sys2Proof.core k s ≠ Host.Outcome.fault (Fault.mf pc)

/-- 70_reset_and_hazards.md R262: with the control values out of reset (CR0 = 60000010H, CR4 = 0, real mode) the MMX forms
can run, and the SSE128, VEX and EVEX forms raise #UD. (That availability is computed from these bits, where R262 takes it
as given, is the model's, log 3.) -/
def Obligations.ControlValuesOutOfReset : Prop :=
  ∀ (s : State) (i : Instr), s.ctrl.cr0 = 0x60000010#64 → s.ctrl.cr4 = 0#64 → s.cfg.mode = .real →
    (isMmx i.form = true → s.cfg.features.mmx = true → s.x87.pending = false →
      s.ready i.form = true ∧ (i.memOp? = none → ∃ t, exec i s = .next t)) ∧
    (isMmx i.form = false → exec i s = .fault (.ud s.pc))

/-- The reset state holds the values of the last column of 10_state.md R43, and 0 in every register of the files. The spec
relies on none of them: they are the model's choice (PRESUMED, log 5; x[2] and the x87 status word log 6). -/
def Obligations.ResetValues : Prop :=
  (∀ r, State.reset.v r = 0) ∧ (∀ r, State.reset.mmr r = 0) ∧ (∀ r, State.reset.kr r = 0) ∧
  (∀ r, State.reset.xr r = 0) ∧ State.reset.pc = 0xFFF0#64 ∧ State.reset.segs.cs.base = 0xFFFF0000#64 ∧
  State.reset.flags = 2#64 ∧ State.reset.mxcsr = 0x1F80#32 ∧ State.reset.x87.control = 0x0040#16 ∧
  State.reset.x87.status = 0#16 ∧ State.reset.x87.tag = 0x5555#16 ∧ State.reset.ctrl.cr0 = 0x60000010#64 ∧
  State.reset.ctrl.cr4 = 0#64 ∧ State.reset.ctrl.xcr0 = 1#64 ∧ State.reset.ctrl.cpl = 0#2 ∧ State.reset.cfg.mode = .real ∧ State.reset.mem = []

/-! ## Addresses and memory (30_encoding.md R95 to R97, 20_memory.md R50) -/

/-- R95, R96: effective addresses as sums modulo 2^A for the address sizes 64, 32 and 16: every combination of base, scaled
index and displacement, RIP-relative and absolute addresses, and every row of the 16-bit table. -/
def Obligations.EffectiveAddresses : Prop :=
  ∀ (s : State) (b i : GReg) (scale : Fin 4) (d : BitVec 32) (d16 : BitVec 16),
    let x := fun r : GReg => ((s.xr r).toNat : Int)
    let y := fun r : GReg => (((s.xr r).toNat % 2 ^ 32 : Nat) : Int)
    let z := fun r : GReg => (((s.xr r).toNat % 2 ^ 16 : Nat) : Int)
    let ea := fun e : EffAddr => ((s.effAddr e).toNat : Int)
    ea (.wide true (.gpr b) (some i) scale d) = (x b + x i * 2 ^ scale.val + d.toInt) % 2 ^ 64 ∧
    ea (.wide true (.gpr b) none 0 d) = (x b + d.toInt) % 2 ^ 64 ∧
    ea (.wide true .none (some i) scale d) = (x i * 2 ^ scale.val + d.toInt) % 2 ^ 64 ∧
    ea (.wide true .none none 0 d) = d.toInt % 2 ^ 64 ∧
    ea (.wide true .rip none 0 d) = (s.pc.toNat + s.ilen + d.toInt) % 2 ^ 64 ∧
    ea (.wide false (.gpr b) (some i) scale d) = (y b + y i * 2 ^ scale.val + d.toInt) % 2 ^ 32 ∧
    ea (.wide false (.gpr b) none 0 d) = (y b + d.toInt) % 2 ^ 32 ∧
    ea (.wide false .none (some i) scale d) = (y i * 2 ^ scale.val + d.toInt) % 2 ^ 32 ∧
    ea (.wide false .none none 0 d) = d.toInt % 2 ^ 32 ∧
    ea (.wide false .rip none 0 d) = (s.pc.toNat + s.ilen + d.toInt) % 2 ^ 32 ∧
    ea (.a16 .bxsi d16) = (z 3 + z 6 + d16.toInt) % 2 ^ 16 ∧ ea (.a16 .bxdi d16) = (z 3 + z 7 + d16.toInt) % 2 ^ 16 ∧
    ea (.a16 .bpsi d16) = (z 5 + z 6 + d16.toInt) % 2 ^ 16 ∧ ea (.a16 .bpdi d16) = (z 5 + z 7 + d16.toInt) % 2 ^ 16 ∧
    ea (.a16 .si d16) = (z 6 + d16.toInt) % 2 ^ 16 ∧ ea (.a16 .di d16) = (z 7 + d16.toInt) % 2 ^ 16 ∧
    ea (.a16 .bp d16) = (z 5 + d16.toInt) % 2 ^ 16 ∧ ea (.a16 .bx d16) = (z 3 + d16.toInt) % 2 ^ 16 ∧
    ea (.a16 .none d16) = d16.toInt % 2 ^ 16

/-- R97: the linear address of byte `o` of an operand: in 64-bit mode only FS and GS contribute a base; outside it every
segment does, in 32 bits. (The wrap is the model's reading, log 16.) -/
def Obligations.LinearAddresses : Prop :=
  ∀ (s : State) (m : MemOp) (o : Nat),
    (s.cfg.mode = .mode64 → (s.linear m o).toNat =
      ((if m.seg = .fs then s.segs.fs.base.toNat else if m.seg = .gs then s.segs.gs.base.toNat else 0) +
        (s.effAddr m.ea).toNat + o) % 2 ^ 64) ∧
    (s.cfg.mode ≠ .mode64 → (s.linear m o).toNat =
      ((s.segs.get m.seg).base.toNat + (s.effAddr m.ea).toNat + o) % 2 ^ 32)

/-- 20_memory.md R50, R51: MemRead gives the bytes of memory in ascending address order, the lowest in bits 7:0; and the
first 4 bytes of an operand are the low 32 bits of its first 8. -/
def Obligations.LittleEndianReads : Prop :=
  ∀ (s : State) (m : MemOp) (rule : AlignRule),
    (∀ n ∈ [4, 8, 16, 32, 64], ∀ v : BitVec (8 * n), s.memRead (8 * n) m rule n = .ok v →
      ∀ i, i < n → s.mem.read (s.linear m i) = some (v.extractLsb' (8 * i) 8)) ∧
    ∀ v : BitVec 64, s.memRead 64 m .any 8 = .ok v → s.memRead 32 m .any 4 = .ok (v.setWidth 32)

/-! ## Decoding and encoding (30_encoding.md) -/

/-- R122: in every mode, decoding the encoding of a well-formed instruction gives it back, with its length, whatever bytes
follow. -/
def Obligations.DecodeOfEncode : Prop :=
  ∀ (m : Mode) (i : Instr) (tail : List Byte), i.wf m = true →
    decode m (encode m i ++ tail) = .ok (i, (encode m i).length)

/-- R81, R115, R116: what the decoder reads is well formed, 3 to 15 bytes long, and within the bytes it was given. -/
def Obligations.DecodedInstructionsAreWellFormed : Prop :=
  ∀ (m : Mode) (bs : List Byte) (i : Instr) (n : Nat), decode m bs = .ok (i, n) →
    i.wf m = true ∧ 3 ≤ n ∧ n ≤ 15 ∧ n ≤ bs.length

/-- R115: an instruction is found by decoding left to right: the bytes after it do not matter. -/
def Obligations.DecodeReadsOnlyTheInstruction : Prop :=
  ∀ (m : Mode) (bs tail : List Byte) (i : Instr) (n : Nat), decode m bs = .ok (i, n) →
    decode m (bs.take n ++ tail) = .ok (i, n)

/-- R108: the 42 rows of the table are rows of different keys, and step 5 of R122 selects the row that the key fits. -/
def Obligations.TableSelectsTheForm : Prop :=
  opcodeTable.length = 42 ∧
  (∀ a ∈ opcodeTable, ∀ b ∈ opcodeTable, ∀ key : BitVec 24, key &&& a.mask = a.value → key &&& b.mask = b.value → a = b) ∧
  ∀ (c : EncClass) (op mb : Byte), selectForm c op (ModRM.ofByte mb) = formOfKey (keyOf c op mb)

/-- R113: the opcode bytes 71, 72, 73 with ModRM.reg other than 6 are refused as not in this family, in every class and
every mode. For VEX and EVEX bytes in real and virtual-8086 mode, where the forms are #UD (R117), the refusal of bytes that
spell no form is the model's reading of R122, which applies R117 at step 3 (log 35). Redundant prefixes before the bytes are
left out. -/
def Obligations.NeighboursAreRefused : Prop :=
  ∀ (m : Mode), ∀ op ∈ [0x71#8, 0x72#8, 0x73#8], ∀ (mb p1 p2 p0 : Byte) (tail : List Byte), (ModRM.ofByte mb).reg ≠ 6#3 →
    decode m (0x0F#8 :: op :: mb :: tail) = .error .notInFamily ∧
    decode m (0x66#8 :: 0x0F#8 :: op :: mb :: tail) = .error .notInFamily ∧
    (p1.extractLsb' 0 2 = 1#2 → decode m (0xC5#8 :: p1 :: op :: mb :: tail) = .error .notInFamily) ∧
    (p0.extractLsb' 0 5 = 1#5 → p1.extractLsb' 0 2 = 1#2 →
      decode m (0xC4#8 :: p0 :: p1 :: op :: mb :: tail) = .error .notInFamily) ∧
    (p0.extractLsb' 0 4 = 1#4 → p1.extractLsb' 0 3 = 5#3 → p2.extractLsb' 5 2 ≠ 3#2 →
      decode m (0x62#8 :: p0 :: p1 :: p2 :: op :: mb :: tail) = .error .notInFamily)

/-- R112: LOCK before any form is #UD; 66, F2, F3, F0 or REX before a VEX or EVEX prefix is #UD; F2 or F3 before a legacy
form is refused. -/
def Obligations.PrefixesThatAreNotAllowed : Prop :=
  (∀ (m : Mode) (bs : List Byte) (i : Instr) (n : Nat), decode m bs = .ok (i, n) →
    decode m (0xF0#8 :: bs) = .error .ud ∧
    ∀ b ∈ [0xF2#8, 0xF3#8], decode m (b :: bs) = .error (if i.form.isLegacy then .repPrefix else .ud)) ∧
  ∀ (b p0 p1 p2 : Byte) (tail : List Byte), (b ∈ [0x66#8, 0xF2#8, 0xF3#8, 0xF0#8] ∨ isRex b = true) →
    decode .mode64 (b :: 0xC5#8 :: p0 :: tail) = .error .ud ∧
    decode .mode64 (b :: 0xC4#8 :: p0 :: p1 :: tail) = .error .ud ∧
    decode .mode64 (b :: 0x62#8 :: p0 :: p1 :: p2 :: tail) = .error .ud

/-- R116: an instruction that redundant prefixes make longer than 15 bytes is #GP(0) (log 18). -/
def Obligations.TooLongIsGp : Prop :=
  (∀ (m : Mode) (i : Instr) (n : Nat) (tail : List Byte), i.wf m = true → 15 < n + (encode m i).length →
    decode m (List.replicate n 0x2E#8 ++ encode m i ++ tail) = .error .gpLength) ∧
  ∀ s : State, decode s.cfg.mode s.fetchBytes = .error .gpLength → step s = .fault (.gp s.pc)

/-- R110 to R112: the EVEX bits that make an encoding of the family #UD: P0 bit 3 set, P1 bit 2 clear, L'L = 11; and, for an
opcode and ModRM of the family, the wrong W for VPSLLD or VPSLLQ, b = 1 in a variable-count or VPSLLW form or with a
register source, z = 1 with aaa = 000 (93_implementation_defined.md U6, U7; log 23). -/
def Obligations.IllegalEvexBits : Prop :=
  ∀ (p0 p1 p2 mb : Byte) (tail : List Byte) (e : Elem) (c : CountKind),
    p0.extractLsb' 0 3 = 1#3 → p1.extractLsb' 0 2 = 1#2 →
    (p0.getLsbD 3 = true ∨ p1.getLsbD 2 = false ∨ p2.extractLsb' 5 2 = 3#2 ∨
      ((c = .imm → (ModRM.ofByte mb).reg = 6#3) ∧
        ((e = .d ∧ p1.getLsbD 7 = true) ∨ (e = .q ∧ p1.getLsbD 7 = false) ∨
          (p2.getLsbD 4 = true ∧ (c = .var ∨ e = .w ∨ (ModRM.ofByte mb).mod = 3#2)) ∨
          (p2.getLsbD 7 = true ∧ p2.extractLsb' 0 3 = 0#3)))) →
    decode .mode64 (0x62#8 :: p0 :: p1 :: p2 :: opByte e c :: mb :: tail) = .error .ud

/-- R98: the 8-bit displacement of an EVEX form is multiplied by 16 in a variable-count form, by VL/8 in an immediate form,
by the element size with a broadcast. (Base register rm, no index, no writemask, 64-bit mode.) -/
def Obligations.CompressedDisplacement : Prop :=
  ∀ (l : VLen) (e : Elem) (reg rm : BitVec 3) (d imm : Byte) (tail : List Byte), rm ≠ 4#3 →
    let p1 : Byte := BitVec.ofBool (evexW e) ++ 15#4 ++ 1#1 ++ 1#2
    let p2 := fun b : Bool => (0#1 ++ llOf l ++ BitVec.ofBool b ++ 1#1 ++ 0#3 : Byte)
    let mem := fun n : Int => MemOp.mk (if rm = 5#3 then .ss else .ds)
      (.wide true (.gpr (gregOf false rm)) none 0 (BitVec.ofInt 32 (d.toInt * n)))
    let k : Masking := ⟨0, false⟩
    decode .mode64 (0x62#8 :: 0xF1#8 :: p1 :: p2 false :: opByte e .var :: (1#2 ++ reg ++ rm) :: d :: tail) =
      .ok (evexRm l e (vregOf false false reg) k 0 (.mem (mem 16)), 7) ∧
    (e = .w → decode .mode64 (0x62#8 :: 0xF1#8 :: p1 :: p2 false :: 0x71#8 :: (1#2 ++ 6#3 ++ rm) :: d :: imm :: tail) =
      .ok (evexImmW l 0 k (.mem (mem (l.bits / 8))) imm, 8)) ∧
    (e = .d → ∀ b, decode .mode64 (0x62#8 :: 0xF1#8 :: p1 :: p2 b :: 0x72#8 :: (1#2 ++ 6#3 ++ rm) :: d :: imm :: tail) =
      .ok (evexImmD l 0 k (if b then .bcst (mem 4) else .mem (mem (l.bits / 8))) imm, 8)) ∧
    (e = .q → ∀ b, decode .mode64 (0x62#8 :: 0xF1#8 :: p1 :: p2 b :: 0x73#8 :: (1#2 ++ 6#3 ++ rm) :: d :: imm :: tail) =
      .ok (evexImmQ l 0 k (if b then .bcst (mem 8) else .mem (mem (l.bits / 8))) imm, 8))

/-- 10_state.md R26: a REX prefix does not extend an MMX register number, but REX.B still extends the base register and
REX.X the index of a memory operand. -/
def Obligations.RexDoesNotExtendMmx : Prop :=
  ∀ (w r x b : Bool) (e : Elem) (reg rm : BitVec 3) (imm : Byte) (tail : List Byte),
    let rex : Byte := 4#4 ++ BitVec.ofBool w ++ BitVec.ofBool r ++ BitVec.ofBool x ++ BitVec.ofBool b
    decode .mode64 (rex :: 0x0F#8 :: opByte e .var :: (3#2 ++ reg ++ rm) :: tail) =
      .ok (mmxRm e (mmregOf reg) (.reg (mmregOf rm)), 4) ∧
    decode .mode64 (rex :: 0x0F#8 :: opByte e .imm :: (3#2 ++ 6#3 ++ rm) :: imm :: tail) =
      .ok (mmxImm e (mmregOf rm) imm, 5) ∧
    (rm ≠ 4#3 → rm ≠ 5#3 → decode .mode64 (rex :: 0x0F#8 :: opByte e .var :: (0#2 ++ reg ++ rm) :: tail) =
      .ok (mmxRm e (mmregOf reg) (.mem ⟨.ds, .wide true (.gpr (gregOf b rm)) none 0 0#32⟩), 4)) ∧
    ((x = true ∨ reg ≠ 4#3) → rm ≠ 4#3 → rm ≠ 5#3 →
      decode .mode64 (rex :: 0x0F#8 :: opByte e .var :: 0x04#8 :: (0#2 ++ reg ++ rm) :: tail) =
        .ok (mmxRm e 0 (.mem ⟨.ds, .wide true (.gpr (gregOf b rm)) (some (gregOf x reg)) 0 0#32⟩), 5))

/-- R117: outside 64-bit mode C4, C5 and 62 are prefixes only when the top two bits of the next byte are 11, and 40 to 4F
are no prefixes. What decodes in a 16-bit code segment decodes the same in real and virtual-8086 mode when it is an MMX or
SSE128 form, and is #UD there when it is a VEX or EVEX form (R112; log 35). A VEX form that names a register above 7 by
B or vvvv is refused (93_implementation_defined.md U8, 92_eei_decisions.md D3; log 20). -/
def Obligations.PrefixesOutside64BitMode : Prop :=
  (∀ (m : Mode) (b : Byte) (tail : List Byte), m ≠ .mode64 →
    (b.extractLsb' 6 2 ≠ 3#2 → ∀ p ∈ [0xC4#8, 0xC5#8, 0x62#8], decode m (p :: b :: tail) = .error .notInFamily) ∧
    (isRex b = true → decode m (b :: tail) = .error .notInFamily)) ∧
  (∀ (bs : List Byte) (i : Instr) (n : Nat), decode .mode16 bs = .ok (i, n) →
    ∀ m ∈ [Mode.real, .v86], decode m bs = if i.form.isLegacy then .ok (i, n) else .error .ud) ∧
  ∀ m ∈ [Mode.compat32, .prot32, .mode16], ∀ (p1 p2 imm : Byte) (e : Elem) (reg rm : BitVec 3) (tail : List Byte),
    p1.extractLsb' 6 2 = 3#2 → p1.extractLsb' 0 5 = 1#5 → p2.extractLsb' 0 2 = 1#2 →
    (p1.getLsbD 5 = false ∨ p2.getLsbD 6 = false) →
    decode m (0xC4#8 :: p1 :: p2 :: opByte e .var :: (3#2 ++ reg ++ rm) :: tail) = .error .highRegister ∧
    decode m (0xC4#8 :: p1 :: p2 :: opByte e .imm :: (3#2 ++ 6#3 ++ rm) :: imm :: tail) = .error .highRegister

/-- Bytes written out from the formats of R100 to R106 decode to the instructions they stand for (95_test_vectors.md
section 9.1): one of every class and count kind. -/
def Obligations.SomeWordsDecode : Prop :=
  decode .mode64 [0x0F#8, 0xF1#8, 0xC1#8] = .ok (.mmxPsllwRm 0 (.reg 1), 3) ∧
  decode .mode64 [0x0F#8, 0x73#8, 0xF7#8, 0x3F#8] = .ok (.mmxPsllqImm 7 0x3F#8, 4) ∧
  decode .mode64 [0x66#8, 0x45#8, 0x0F#8, 0xF3#8, 0x21#8] =
    .ok (.ssePsllqRm 12 (.mem ⟨.ds, .wide true (.gpr 9) none 0 0#32⟩), 5) ∧
  decode .mode64 [0x66#8, 0x41#8, 0x0F#8, 0x72#8, 0xF0#8, 0x01#8] = .ok (.ssePslldImm 8 1#8, 6) ∧
  decode .mode64 [0xC4#8, 0x41#8, 0x29#8, 0xF3#8, 0xCB#8] = .ok (.vex128PsllqRm 9 10 (.reg 11), 5) ∧
  decode .mode64 [0xC5#8, 0xF5#8, 0x72#8, 0xF2#8, 0x05#8] = .ok (.vex256PslldImm 1 2 5#8, 5) ∧
  decode .mode64 [0x62#8, 0xA1#8, 0x6D#8, 0x40#8, 0xF1#8, 0xCB#8] =
    .ok (.evex512PsllwRm 17 ⟨0, false⟩ 18 (.reg 19), 6) ∧
  decode .mode64 [0x62#8, 0xF1#8, 0xF5#8, 0xCA#8, 0x73#8, 0xF3#8, 0x07#8] =
    .ok (.evex512PsllqImm 1 ⟨2, true⟩ (.reg 3) 7#8, 7)
end

