-- ==== Sys2Proof/Laws/Decode.lean ====
section
/-! SUPPORT. What the parts of the decoder read back from what the parts of the encoder write. -/

namespace Sys2Proof

/-! ## Fields -/

@[simp] theorem ModRM.ofByte_toByte (r : ModRM) : ModRM.ofByte r.toByte = r := by
  obtain ⟨a, b, c⟩ := r
  simp only [ModRM.ofByte, ModRM.toByte, ModRM.mk.injEq]
  refine ⟨?_, ?_, ?_⟩ <;>
  · apply BitVec.eq_of_getLsbD_eq
    intro i hi
    simp only [BitVec.getLsbD_extractLsb', BitVec.getLsbD_append, hi, decide_true, Bool.true_and]
    first
    | (have h1 : ¬ 6 + i < 3 := by omega
       have h2 : ¬ 6 + i - 3 < 3 := by omega
       rw [if_neg h1, if_neg h2]; congr 1; omega)
    | (have h1 : ¬ 3 + i < 3 := by omega
       have h2 : 3 + i - 3 < 3 := by omega
       rw [if_neg h1, if_pos h2]; congr 1; omega)
    | (rw [if_pos (by omega)]; congr 1; omega)

theorem gregOf_regBit : ∀ r : GReg, gregOf (regBit r.val 3) (low3 r.val) = r := by decide

theorem vregOf_regBit : ∀ r : VReg, vregOf (regBit r.val 4) (regBit r.val 3) (low3 r.val) = r := by decide

theorem mmregOf_low3 : ∀ r : MmReg, mmregOf (low3 r.val) = r := by decide

theorem indexOf_field : ∀ r : GReg, r ≠ 4 → indexOf (indexExt (some r)) (indexField (some r)) = some r := by decide

theorem indexOf_none : indexOf (indexExt none) (indexField none) = none := by decide

/-- The fields of a SIB byte. -/
theorem sib_fields (s : Fin 4) (i b : BitVec 3) :
    (sibByte s i b).extractLsb' 0 3 = b ∧ (sibByte s i b).extractLsb' 3 3 = i ∧
      (sibByte s i b).extractLsb' 6 2 = BitVec.ofNat 2 s.val := by
  refine ⟨?_, ?_, ?_⟩ <;>
  · apply BitVec.eq_of_getLsbD_eq
    intro k hk
    simp only [sibByte, BitVec.getLsbD_extractLsb', BitVec.getLsbD_append, hk, decide_true, Bool.true_and]
    first
    | (have h1 : ¬ 6 + k < 3 := by omega
       have h2 : ¬ 6 + k - 3 < 3 := by omega
       rw [if_neg h1, if_neg h2]; congr 1; omega)
    | (have h1 : ¬ 3 + k < 3 := by omega
       have h2 : 3 + k - 3 < 3 := by omega
       rw [if_neg h1, if_pos h2]; congr 1; omega)
    | (rw [if_pos (by omega)]; congr 1; omega)

theorem scale_toFin : ∀ s : Fin 4, (BitVec.ofNat 2 s.val).toFin = s := by decide

/-! ## Displacements -/

theorem readLe32_le32 (d : BitVec 32) (t : List Byte) : readLe32 (le32 d ++ t) = .ok (d, t) := by
  simp only [le32, List.cons_append, List.nil_append, readLe32]
  congr 2
  apply BitVec.eq_of_getLsbD_eq
  intro i hi
  simp only [BitVec.getLsbD_append, BitVec.getLsbD_extractLsb']
  repeat' split
  all_goals
    rw [decide_eq_true (by omega), Bool.true_and]; congr 1; omega

theorem readLe16_le16 (d : BitVec 16) (t : List Byte) : readLe16 (le16 d ++ t) = .ok (d, t) := by
  simp only [le16, List.cons_append, List.nil_append, readLe16]
  congr 2
  apply BitVec.eq_of_getLsbD_eq
  intro i hi
  simp only [BitVec.getLsbD_append, BitVec.getLsbD_extractLsb']
  split
  all_goals
    rw [decide_eq_true (by omega), Bool.true_and]; congr 1; omega

/-- What encDisp writes, readDisp reads; mod is never 3, and never 0 where mod = 00 means something else. -/
theorem readDisp_encDisp (n : Nat) (need : Bool) (d : BitVec 32) (t : List Byte) :
    readDisp n (encDisp n need d).1 ((encDisp n need d).2 ++ t) = .ok (d, t) ∧ (encDisp n need d).1 ≠ 3#2 ∧
      (need = true → (encDisp n need d).1 ≠ 0#2) := by
  unfold encDisp
  split
  · next h => simp [readDisp, h.1, h.2]
  · split
    · next h => simp [readDisp, h]
    · simp [readDisp, readLe32_le32]

/-! ## Effective addresses -/

theorem readWide_encWide (m : Mode) (is64 : Bool) (n : Nat) (base : Base) (index : Option GReg) (scale : Fin 4)
    (d : BitVec 32) (reg : BitVec 3) (t : List Byte) (h : (EffAddr.wide is64 base index scale d).wf m = true) :
    readWide m is64 (encWide n base index scale d).x (encWide n base index scale d).b n
        ⟨(encWide n base index scale d).mod, reg, (encWide n base index scale d).rm⟩
        ((encWide n base index scale d).tail ++ t) = .ok (.wide is64 base index scale d, t) ∧
      (encWide n base index scale d).mod ≠ 3#2 := by
  have hidx : indexOf (indexExt index) (indexField index) = index ∧ (index.isNone = true → scale = 0) := by
    cases index with
    | none => simp [EffAddr.wf] at h; exact ⟨indexOf_none, fun _ => h.2⟩
    | some i => simp [EffAddr.wf] at h; exact ⟨indexOf_field i h.2.1.2, by simp⟩
  have hsc : (if index.isNone = true then 0 else (BitVec.ofNat 2 scale.val).toFin) = scale := by
    split
    · next hn => exact (hidx.2 hn).symm
    · exact scale_toFin scale
  cases base with
  | none =>
    refine ⟨?_, by simp [encWide]⟩
    simp only [encWide, readWide, if_true, List.cons_append, sib_fields, and_self, readLe32_le32, Except.map]
    rw [hidx.1, hsc]
  | rip =>
    have hi : index = none := by
      cases index with
      | none => rfl
      | some i => simp [EffAddr.wf] at h
    subst hi
    have h64 : m.is64 = true := by simp [EffAddr.wf, Base.wf] at h; exact h.1.2
    have hs : scale = 0 := hidx.2 rfl
    subst hs
    refine ⟨?_, by simp [encWide]⟩
    simp [encWide, readWide, readLe32_le32, Except.map, h64]
  | gpr r =>
    obtain ⟨h1, h2, h3⟩ := readDisp_encDisp n (low3 r.val == 5#3) d t
    by_cases hc : index.isSome = true ∨ low3 r.val = 4#3
    · have he : encWide n (.gpr r) index scale d = { mod := (encDisp n (low3 r.val == 5#3) d).1, rm := 4#3, x := indexExt index, b := regBit r.val 3, tail := sibByte scale (indexField index) (low3 r.val) :: (encDisp n (low3 r.val == 5#3) d).2 } := by
        simp only [encWide]; rw [if_pos hc]
      rw [he]
      refine ⟨?_, h2⟩
      simp only [readWide, if_true, List.cons_append, sib_fields]
      have hm : ¬ (low3 r.val = 5#3 ∧ (encDisp n (low3 r.val == 5#3) d).1 = 0#2) := by
        rintro ⟨e, e'⟩; exact h3 (by simp [e]) e'
      rw [if_neg hm, h1]
      simp only [Except.map]
      rw [hidx.1, hsc, gregOf_regBit]
    · have he : encWide n (.gpr r) index scale d = { mod := (encDisp n (low3 r.val == 5#3) d).1, rm := low3 r.val, b := regBit r.val 3, tail := (encDisp n (low3 r.val == 5#3) d).2 } := by
        simp only [encWide]; rw [if_neg hc]
      rw [he]
      refine ⟨?_, h2⟩
      simp only [not_or, Bool.not_eq_true, Option.isSome_eq_false_iff, Option.isNone_iff_eq_none] at hc
      obtain ⟨rfl, hr⟩ := hc
      have hs : scale = 0 := hidx.2 rfl
      subst hs
      have hm : ¬ ((encDisp n (low3 r.val == 5#3) d).1 = 0#2 ∧ low3 r.val = 5#3) := by
        rintro ⟨e', e⟩; exact h3 (by simp [e]) e'
      simp only [readWide]
      rw [if_neg hr, if_neg hm, h1]
      simp only [Except.map]
      rw [gregOf_regBit]

theorem base16Of_rm16 : ∀ b : Base16, b ≠ .none → base16Of (rm16 b) = b := by
  intro b h; cases b <;> first | exact absurd rfl h | rfl

theorem rm16_ne_six : ∀ b : Base16, b ≠ .none → b ≠ .bp → rm16 b ≠ 6#3 := by
  intro b h h'; cases b <;> first | exact absurd rfl h | exact absurd rfl h' | decide

theorem readA16_encA16 (n : Nat) (base : Base16) (d : BitVec 16) (reg : BitVec 3) (t : List Byte) :
    readA16 n ⟨(encA16 n base d).mod, reg, (encA16 n base d).rm⟩ ((encA16 n base d).tail ++ t) =
        .ok (.a16 base d, t) ∧ (encA16 n base d).mod ≠ 3#2 := by
  by_cases hb : base = .none
  · subst hb
    simp [encA16, readA16, readLe16_le16, Except.map]
  · by_cases h1 : d = 0#16 ∧ base ≠ .bp
    · have he : encA16 n base d = { mod := 0#2, rm := rm16 base } := by simp only [encA16]; rw [if_neg hb, if_pos h1]
      rw [he]
      simp [readA16, rm16_ne_six base hb h1.2, base16Of_rm16 base hb, h1.1]
    · by_cases h2 : disp8 16 n (disp8For n d) = d
      · have he : encA16 n base d = { mod := 1#2, rm := rm16 base, tail := [disp8For n d] } := by
          simp only [encA16]; rw [if_neg hb, if_neg h1, if_pos h2]
        rw [he]
        simp [readA16, base16Of_rm16 base hb, h2]
      · have he : encA16 n base d = { mod := 2#2, rm := rm16 base, tail := le16 d } := by
          simp only [encA16]; rw [if_neg hb, if_neg h1, if_neg h2]
        rw [he]
        simp [readA16, base16Of_rm16 base hb, readLe16_le16, Except.map]

/-! ## Prefixes and memory operands -/

theorem segOfByte_byteOfSeg : ∀ g : SegReg, segOfByte (byteOfSeg g) = some g := by
  intro g; cases g <;> decide

/-- A segment override is read as one. -/
theorem add_byteOfSeg (p : Prefixes) (g : SegReg) : p.add (byteOfSeg g) = some { p with seg := some g, rex := none } := by
  cases g <;> rfl

/-- What the address-size and segment prefixes of a memory operand say. -/
def memPrefixes (m : Mode) (a : MemOp) : Prefixes :=
  { asize := !(asizePrefix m a.ea).isEmpty, seg := if a.seg = a.ea.defaultSeg then none else some a.seg }

/-- The prefixes of a memory operand are read back, and the scan goes on after them. -/
theorem scanPrefixes_encMem (m : Mode) (n : Nat) (a : MemOp) (t : List Byte) :
    scanPrefixes m.is64 {} ((encMem m n a).pre ++ t) = scanPrefixes m.is64 (memPrefixes m a) t := by
  have hs : ∀ p : Prefixes, p.rex = none → p.seg = none → scanPrefixes m.is64 p (segPrefix a ++ t) =
      scanPrefixes m.is64 { p with seg := if a.seg = a.ea.defaultSeg then none else some a.seg } t := by
    intro p hr hp
    unfold segPrefix
    split
    · cases p; simp_all
    · simp only [List.cons_append, List.nil_append, scanPrefixes, add_byteOfSeg]
      rw [← hr]
  have ha : (asizePrefix m a.ea = [] ∧ (memPrefixes m a).asize = false) ∨
      (asizePrefix m a.ea = [0x67#8] ∧ (memPrefixes m a).asize = true) := by
    unfold memPrefixes asizePrefix
    split <;> split <;> simp
  simp only [encMem, List.append_assoc]
  rcases ha with ⟨h1, h2⟩ | ⟨h1, h2⟩
  · rw [h1, List.nil_append, hs _ rfl rfl]
    congr 1
    simp only [memPrefixes] at h2 ⊢
    rw [h2]
  · rw [h1, List.cons_append, List.nil_append, scanPrefixes]
    have : Prefixes.add {} 0x67#8 = some { asize := true } := rfl
    rw [this]
    simp only
    rw [hs _ rfl rfl]
    congr 1
    simp only [memPrefixes] at h2 ⊢
    rw [h2]

/-- The address size of a well-formed operand is read back. -/
theorem addrSize_memPrefixes (m : Mode) (a : MemOp) (h : a.wf m = true) :
    addrSize m (memPrefixes m a).asize = match a.ea with
      | .a16 _ _ => .a16
      | .wide false _ _ _ _ => .a32
      | .wide true _ _ _ _ => .a64 := by
  obtain ⟨g, ea⟩ := a
  cases ea with
  | a16 b d => cases m <;> simp [MemOp.wf, EffAddr.wf, Mode.is64] at h <;> rfl
  | wide is64 b x s d =>
    cases is64
    · cases m <;> rfl
    · cases m <;> simp [MemOp.wf, EffAddr.wf, Mode.is64] at h <;> rfl

/-- A well-formed memory operand is read back from its encoding, whatever follows it. -/
theorem readMem_encMem (m : Mode) (n : Nat) (a : MemOp) (h : a.wf m = true) (p : Prefixes)
    (hp : p.asize = (memPrefixes m a).asize ∧ p.seg = (memPrefixes m a).seg) (reg : BitVec 3) (t : List Byte) :
    readMem m p (encMem m n a).x (encMem m n a).b n ⟨(encMem m n a).mod, reg, (encMem m n a).rm⟩
        ((encMem m n a).tail ++ t) = .ok (a, t) ∧ (encMem m n a).mod ≠ 3#2 := by
  have hsize := addrSize_memPrefixes m a h
  rw [← hp.1] at hsize
  have hseg : p.seg.getD a.ea.defaultSeg = a.seg := by
    rw [hp.2]
    simp only [memPrefixes]
    split
    · next e => simpa using e.symm
    · rfl
  obtain ⟨g, ea⟩ := a
  cases ea with
  | a16 b d =>
    obtain ⟨h1, h2⟩ := readA16_encA16 n b d reg t
    refine ⟨?_, h2⟩
    simp only [readMem, encMem]
    rw [hsize]
    simp only [h1, Except.map]
    rw [hseg]
  | wide is64 b x s d =>
    obtain ⟨h1, h2⟩ := readWide_encWide m is64 n b x s d reg t h
    refine ⟨?_, h2⟩
    simp only [readMem, encMem]
    rw [hsize]
    cases is64 <;> simp only [h1, Except.map] <;> rw [hseg]

/-! ## Lengths -/

theorem length_encDisp (n : Nat) (need : Bool) (d : BitVec 32) : (encDisp n need d).2.length ≤ 4 := by
  unfold encDisp; split
  · simp
  · split <;> simp [le32]

theorem length_encWide_tail (n : Nat) (base : Base) (index : Option GReg) (scale : Fin 4) (d : BitVec 32) :
    (encWide n base index scale d).tail.length ≤ 5 := by
  cases base with
  | none => simp [encWide, le32]
  | rip => simp [encWide, le32]
  | gpr r =>
    have := length_encDisp n (low3 r.val == 5#3) d
    simp only [encWide]
    split <;> simp only [List.length_cons] <;> omega

theorem length_encA16_tail (n : Nat) (base : Base16) (d : BitVec 16) : (encA16 n base d).tail.length ≤ 2 := by
  unfold encA16
  split
  · simp [le16]
  · split
    · simp
    · split <;> simp [le16]

theorem length_asizePrefix (m : Mode) (ea : EffAddr) : (asizePrefix m ea).length ≤ 1 := by
  unfold asizePrefix; split <;> split <;> simp

theorem length_segPrefix (a : MemOp) : (segPrefix a).length ≤ 1 := by
  unfold segPrefix; split <;> simp

theorem length_encMem (m : Mode) (n : Nat) (a : MemOp) :
    (encMem m n a).pre.length ≤ 2 ∧ (encMem m n a).tail.length ≤ 5 := by
  have h1 := length_asizePrefix m a.ea
  have h2 := length_segPrefix a
  refine ⟨by simp [encMem]; omega, ?_⟩
  simp only [encMem]
  split
  · next base d _ => exact le_trans (length_encA16_tail n base d) (by decide)
  · next i b x s d _ => exact length_encWide_tail n b x s d

theorem length_encMmRm (m : Mode) (c : RegMem MmReg) : (encMmRm m c).pre.length ≤ 2 ∧ (encMmRm m c).tail.length ≤ 5 := by
  cases c with
  | reg r => simp [encMmRm, encMmreg]
  | mem a => exact length_encMem m 1 a

theorem length_encVRm (m : Mode) (n : Nat) (c : RegMem VReg) :
    (encVRm m n c).pre.length ≤ 2 ∧ (encVRm m n c).tail.length ≤ 5 := by
  cases c with
  | reg r => simp [encVRm, encVreg]
  | mem a => exact length_encMem m n a

theorem length_rexPrefix (r x b : Bool) : (rexPrefix r x b).length ≤ 1 := by
  unfold rexPrefix; split <;> simp

theorem length_encLegacy (p : Bool) (op : Byte) (r : Bool) (reg : BitVec 3) (o : EncRm) (imm : List Byte)
    (h : o.pre.length ≤ 2 ∧ o.tail.length ≤ 5) (hi : imm.length ≤ 1) :
    3 ≤ (encLegacy p op r reg o imm).length ∧ (encLegacy p op r reg o imm).length ≤ 15 := by
  have := length_rexPrefix r o.x o.b
  unfold encLegacy
  cases p <;> simp <;> omega

theorem length_encVex (l : Bool) (op : Byte) (r : Bool) (reg : BitVec 3) (v : VReg) (o : EncRm) (imm : List Byte)
    (h : o.pre.length ≤ 2 ∧ o.tail.length ≤ 5) (hi : imm.length ≤ 1) :
    3 ≤ (encVex l op r reg v o imm).length ∧ (encVex l op r reg v o imm).length ≤ 15 := by
  unfold encVex vexPrefix
  split <;> simp <;> omega

theorem length_encEvex (l : VLen) (e : Elem) (c : CountKind) (k : Masking) (bc r' r : Bool) (reg : BitVec 3) (v : VReg)
    (o : EncRm) (imm : List Byte) (h : o.pre.length ≤ 2 ∧ o.tail.length ≤ 5) (hi : imm.length ≤ 1) :
    3 ≤ (encEvex l e c k bc r' r reg v o imm).length ∧ (encEvex l e c k bc r' r reg v o imm).length ≤ 15 := by
  unfold encEvex
  simp; omega

theorem length_encEvexImm (m : Mode) (l : VLen) (e : Elem) (dst : VReg) (k : Masking) (src : DataSrc) (imm : Byte) :
    3 ≤ (encEvexImm m l e dst k src imm).length ∧ (encEvexImm m l e dst k src imm).length ≤ 15 := by
  cases src with
  | reg r => exact length_encEvex _ _ _ _ _ _ _ _ _ _ _ (by simp [encVreg]) (by simp)
  | mem a => exact length_encEvex _ _ _ _ _ _ _ _ _ _ _ (length_encMem m _ a) (by simp)
  | bcst a => exact length_encEvex _ _ _ _ _ _ _ _ _ _ _ (length_encMem m _ a) (by simp)

/-- A register above 7 is refused outside 64-bit mode, and nothing else is (30_encoding.md R94). -/
theorem lowOnly_ok_iff (m : Mode) (rs : List VReg) (i j : Instr) :
    lowOnly m rs i = .ok j ↔ i = j ∧ (m.is64 = true ∨ ∀ r ∈ rs, r.val < 8) := by
  unfold lowOnly
  cases h : m.is64
  · by_cases hr : ∀ r ∈ rs, r.val < 8
    · have : (rs.any fun r => decide (8 ≤ r.val)) = false := by
        simp only [List.any_eq_false, decide_eq_true_eq]; intro r hm; have := hr r hm; omega
      simp [this]; exact fun _ => hr
    · have : (rs.any fun r => decide (8 ≤ r.val)) = true := by
        simp only [not_forall, Nat.not_lt] at hr
        obtain ⟨r, hm, h8⟩ := hr
        simp only [List.any_eq_true, decide_eq_true_eq]; exact ⟨r, hm, h8⟩
      simp only [this, hr, or_false, Bool.false_eq_true, and_false, iff_false]; simp
  · simp

/-- The length a decoded instruction is given: at most 15 bytes (30_encoding.md R115, R116). -/
theorem finish_ok_iff (total : Nat) (rest : List Byte) (i : Except Reject Instr) (j : Instr) (n : Nat) :
    finish total rest i = .ok (j, n) ↔ i = .ok j ∧ n = total - rest.length ∧ n ≤ 15 := by
  unfold finish
  split
  · next h => simp; omega
  · next h =>
    cases i with
    | ok i => simp [Except.map]; intro _; omega
    | error x => simp [Except.map]

end Sys2Proof
end

