-- ==== Sys2Proof/Laws/Memory.lean ====
section
/-! SUPPORT. Memory: read after write, and that every operation keeps the canonical form. -/

namespace Sys2Proof.Machine

/-! ## Read after write -/

theorem Memory.find_put_same (mem : Memory) (a : Nat) (v : Byte) : Memory.find (Memory.put mem a v) a = some v := by
  induction mem with
  | nil => simp [Memory.put, Memory.find]
  | cons c cells ih =>
    obtain ⟨b, w⟩ := c
    rw [Memory.put]
    split
    · simp [Memory.find]
    · split
      · simp [Memory.find]
      · next h => simp [Memory.find, Ne.symm h, ih]

theorem Memory.find_put_other (mem : Memory) {a b : Nat} (v : Byte) (h : b ≠ a) :
    Memory.find (Memory.put mem a v) b = Memory.find mem b := by
  induction mem with
  | nil => simp [Memory.put, Memory.find, Ne.symm h]
  | cons c cells ih =>
    obtain ⟨d, w⟩ := c
    rw [Memory.put]
    split
    · rw [Memory.find, if_neg (Ne.symm h)]
    · split
      · next e => subst e; simp [Memory.find, Ne.symm h]
      · simp [Memory.find, ih]

theorem Memory.read_write_same (mem : Memory) (a : Qword) (v : Byte) : (mem.write a v).read a = some v :=
  Memory.find_put_same mem a.toNat v

theorem Memory.read_write_other (mem : Memory) {a b : Qword} (v : Byte) (h : b ≠ a) :
    (mem.write a v).read b = mem.read b :=
  Memory.find_put_other mem v fun e => h (BitVec.eq_of_toNat_eq e)

/-! ## The canonical form -/

theorem Memory.risesFrom_mono {l l' : Nat} (h : l' ≤ l) {mem : Memory} (hm : Memory.risesFrom l mem = true) :
    Memory.risesFrom l' mem = true := by
  cases mem with
  | nil => rfl
  | cons c cells =>
    simp only [Memory.risesFrom, Bool.and_eq_true, decide_eq_true_eq] at hm ⊢
    exact ⟨⟨by omega, hm.1.2⟩, hm.2⟩

theorem Memory.risesFrom_put {l a : Nat} (v : Byte) (hl : l ≤ a) (ha : a < 2 ^ 64) {mem : Memory}
    (hm : Memory.risesFrom l mem = true) : Memory.risesFrom l (Memory.put mem a v) = true := by
  induction mem generalizing l with
  | nil => simp [Memory.put, Memory.risesFrom, hl]; omega
  | cons c cells ih =>
    obtain ⟨b, w⟩ := c
    simp only [Memory.risesFrom, Bool.and_eq_true, decide_eq_true_eq] at hm
    rw [Memory.put]
    split
    · simp only [Memory.risesFrom, Bool.and_eq_true, decide_eq_true_eq]
      exact ⟨⟨hl, ha⟩, ⟨by omega, hm.1.2⟩, hm.2⟩
    · split
      · next e => subst e; simp only [Memory.risesFrom, Bool.and_eq_true, decide_eq_true_eq]; exact hm
      · simp only [Memory.risesFrom, Bool.and_eq_true, decide_eq_true_eq]
        exact ⟨hm.1, ih (by omega) hm.2⟩

theorem Memory.wf_put {mem : Memory} (h : mem.wf = true) {a : Nat} (v : Byte) (ha : a < 2 ^ 64) :
    Memory.wf (Memory.put mem a v) = true :=
  Memory.risesFrom_put v (Nat.zero_le a) ha h

theorem Memory.wf_write {mem : Memory} (h : mem.wf = true) (a : Qword) (v : Byte) : (mem.write a v).wf = true :=
  Memory.wf_put h v a.isLt

theorem Memory.wf_writeList {mem : Memory} (h : mem.wf = true) (a : Qword) (vs : List Byte) :
    (mem.writeList a vs).wf = true := by
  induction vs generalizing mem a with
  | nil => exact h
  | cons v vs ih => exact ih (Memory.wf_write h a v) (a + 1)

theorem reset_mem_wf : State.reset.mem.wf = true := rfl

/-- A launch keeps the canonical form. -/
theorem State.place_mem_wf (s : State) (bs : List Byte) (h : s.mem.wf = true) : (s.place bs).mem.wf = true :=
  Memory.wf_writeList (Memory.wf_writeList h _ _) _ _

/-- Below the first address nothing is listed. -/
theorem Memory.find_lt {l a : Nat} {mem : Memory} (hm : Memory.risesFrom l mem = true) (ha : a < l) :
    Memory.find mem a = none := by
  induction mem generalizing l with
  | nil => rfl
  | cons c cells ih =>
    obtain ⟨b, w⟩ := c
    simp only [Memory.risesFrom, Bool.and_eq_true, decide_eq_true_eq] at hm
    rw [Memory.find, if_neg (by omega)]
    exact ih hm.2 (by omega)

/-- Two memories in canonical form that hold the same bytes are equal data. -/
theorem Memory.ext {l : Nat} {m n : Memory} (hm : Memory.risesFrom l m = true) (hn : Memory.risesFrom l n = true)
    (h : ∀ a, Memory.find m a = Memory.find n a) : m = n := by
  induction m generalizing n l with
  | nil =>
    cases n with
    | nil => rfl
    | cons c cells => have := h c.1; simp [Memory.find] at this
  | cons c cells ih =>
    obtain ⟨b, w⟩ := c
    cases n with
    | nil => have := h b; simp [Memory.find] at this
    | cons d cells' =>
      obtain ⟨b', w'⟩ := d
      simp only [Memory.risesFrom, Bool.and_eq_true, decide_eq_true_eq] at hm hn
      have hb : b = b' := by
        rcases Nat.lt_trichotomy b b' with e | e | e
        · have := h b
          rw [Memory.find, if_pos rfl, Memory.find, if_neg (by omega), Memory.find_lt hn.2 (by omega)] at this
          cases this
        · exact e
        · have := h b'
          rw [Memory.find, if_neg (by omega), Memory.find_lt hm.2 (by omega), Memory.find, if_pos rfl] at this
          cases this
      subst hb
      have hw := h b
      simp only [Memory.find, if_true, Option.some.injEq] at hw
      subst hw
      rw [ih hm.2 hn.2 fun a => ?_]
      by_cases e : b = a
      · subst e; rw [Memory.find_lt hm.2 (by omega), Memory.find_lt hn.2 (by omega)]
      · have := h a; simpa [Memory.find, e] using this

end Sys2Proof.Machine
end

