-- ==== Sys2Proof/Laws/Shift.lean ====
section
/-! SUPPORT. What the shift, the packed shift, write-masking and broadcast are, element by element. -/

namespace Sys2Proof.Machine

/-! ## One element (40_shift_core.md R130, R132) -/

/-- SHL_N as a number. -/
theorem toNat_shl (N : Nat) (x : BitVec N) (c : Nat) : (shl N x c).toNat = natShift N x.toNat c := by
  unfold shl natShift
  split <;> simp

/-- The threshold of R130 changes no value. -/
theorem natShift_eq (N x c : Nat) : natShift N x c = x * 2 ^ c % 2 ^ N := by
  unfold natShift
  split
  · next h =>
    have : 2 ^ N ∣ x * 2 ^ c := Dvd.dvd.mul_left (pow_dvd_pow 2 (by omega)) x
    exact (Nat.mod_eq_zero_of_dvd this).symm
  · rfl

theorem natShift_lt (N x c : Nat) : natShift N x c < 2 ^ N := by
  rw [natShift_eq]; exact Nat.mod_lt _ (Nat.two_pow_pos N)

/-- SHL_N is the shift of bit vectors. -/
theorem shl_eq (N : Nat) (x : BitVec N) (c : Nat) : shl N x c = x <<< c := by
  apply BitVec.eq_of_toNat_eq
  rw [toNat_shl, natShift_eq, BitVec.toNat_shiftLeft, Nat.shiftLeft_eq]

/-! ## Elements -/

theorem getLsbD_lane {W : Nat} (N : Nat) (v : BitVec W) (j i : Nat) :
    (lane N v j).getLsbD i = (decide (i < N) && v.getLsbD (j * N + i)) := by
  simp [lane]

/-- An element as a number. -/
theorem toNat_lane {W : Nat} (N : Nat) (v : BitVec W) (j : Nat) : (lane N v j).toNat = natLane N v j := by
  simp [lane, natLane, Nat.shiftRight_eq_div_pow]

/-- A bit of a packed value. -/
theorem getLsbD_packLanes (W N : Nat) (f : Nat → BitVec N) (n i : Nat) :
    (packLanes W N f n).getLsbD i = (decide (i < W) && decide (i < n * N) && (f (i / N)).getLsbD (i % N)) := by
  induction n with
  | zero => simp [packLanes]
  | succ n ih =>
    rcases Nat.eq_zero_or_pos N with rfl | hN
    · simp [packLanes, ih]
    rw [packLanes, BitVec.getLsbD_or, ih, BitVec.getLsbD_shiftLeft, BitVec.getLsbD_setWidth, Nat.succ_mul]
    by_cases hW : i < W
    · by_cases h1 : i < n * N
      · have : i < n * N + N := by omega
        simp [hW, h1, this]
      · by_cases h2 : i < n * N + N
        · have hd : i / N = n := by
            apply Nat.div_eq_of_lt_le
            · omega
            · rw [Nat.succ_mul]; omega
          have hm : i % N = i - n * N := by
            have := Nat.div_add_mod i N
            rw [hd, Nat.mul_comm] at this; omega
          have h3 : i - n * N < W := by omega
          simp [hW, h1, h2, h3, hd, hm]
        · have : (f n).getLsbD (i - n * N) = false := BitVec.getLsbD_of_ge _ _ (by omega)
          simp [h1, h2, this]
    · simp [hW]

/-- Element `j` of a packed value. -/
theorem lane_packLanes {W N : Nat} (f : Nat → BitVec N) {n j : Nat} (hj : j < n) (hW : n * N ≤ W) :
    lane N (packLanes W N f n) j = f j := by
  rcases Nat.eq_zero_or_pos N with rfl | hN
  · exact (f j).eq_nil.trans (BitVec.eq_nil _).symm |>.symm
  apply BitVec.eq_of_getLsbD_eq
  intro i hi
  have h1 : j * N + i < n * N := by
    have : (j + 1) * N ≤ n * N := Nat.mul_le_mul_right N hj
    rw [Nat.succ_mul] at this; omega
  have h2 : (j * N + i) / N = j := by
    rw [Nat.mul_comm, Nat.mul_add_div hN, Nat.div_eq_of_lt hi, Nat.add_zero]
  have h3 : (j * N + i) % N = i := by
    rw [Nat.mul_comm, Nat.mul_add_mod, Nat.mod_eq_of_lt hi]
  have h4 : j * N + i < W := by omega
  rw [getLsbD_lane, getLsbD_packLanes, h2, h3]
  simp [hi, h1, h4]

/-- Values whose elements agree are equal. -/
theorem eq_of_lanes {W N n : Nat} (hW : n * N = W) {a b : BitVec W} (h : ∀ j, j < n → lane N a j = lane N b j) :
    a = b := by
  apply BitVec.eq_of_getLsbD_eq
  intro i hi
  have hN : 0 < N := by
    rcases Nat.eq_zero_or_pos N with rfl | h
    · omega
    · exact h
  have hj : i / N < n := by rw [Nat.div_lt_iff_lt_mul hN, hW]; exact hi
  have := congrArg (fun v => v.getLsbD (i % N)) (h (i / N) hj)
  simp only [getLsbD_lane] at this
  have e : i / N * N + i % N = i := by rw [Nat.mul_comm]; exact Nat.div_add_mod i N
  simpa [Nat.mod_lt i hN, e] using this

/-- The elements of a packed value, read back. -/
theorem packLanes_lane {W N n : Nat} (hW : n * N = W) (v : BitVec W) : packLanes W N (lane N v) n = v :=
  eq_of_lanes hW fun _ hj => lane_packLanes _ hj (le_of_eq hW)

/-! ## The packed operations (40_shift_core.md R136, R140, R146) -/

theorem div_mul_le (W N : Nat) : W / N * N ≤ W := Nat.div_mul_le_self W N

theorem lane_psll {W N : Nat} (src : BitVec W) (c : Nat) {j : Nat} (hj : j < W / N) :
    lane N (psll W N src c) j = shl N (lane N src j) c :=
  lane_packLanes _ hj (div_mul_le W N)

theorem natLane_psll {W N : Nat} (src : BitVec W) (c : Nat) {j : Nat} (hj : j < W / N) :
    natLane N (psll W N src c) j = natShift N (natLane N src j) c := by
  rw [← toNat_lane, lane_psll src c hj, toNat_shl, toNat_lane]

theorem lane_maskWrite {VL N : Nat} (tmp old : BitVec VL) (k : Qword) (nomask z : Bool) {j : Nat} (hj : j < VL / N) :
    lane N (maskWrite VL N tmp old k nomask z) j =
      if nomask || bit k j then lane N tmp j else if z then 0#N else lane N old j :=
  lane_packLanes _ hj (div_mul_le VL N)

theorem lane_bcast {VL N : Nat} (e : BitVec N) {j : Nat} (hj : j < VL / N) : lane N (bcast VL N e) j = e :=
  lane_packLanes _ hj (div_mul_le VL N)

/-! ## Elements of wider and narrower values -/

/-- An element inside the low bits of a value is the element of the value. -/
theorem lane_setWidth {V W N j : Nat} (v : BitVec V) (h : (j + 1) * N ≤ W) : lane N (v.setWidth W) j = lane N v j := by
  apply BitVec.eq_of_getLsbD_eq
  intro i hi
  rw [Nat.succ_mul] at h
  have : j * N + i < W := by omega
  rw [getLsbD_lane, getLsbD_lane, BitVec.getLsbD_setWidth]
  simp [this]

theorem natLane_setWidth {V W N j : Nat} (v : BitVec V) (h : (j + 1) * N ≤ W) :
    natLane N (v.setWidth W) j = natLane N v j := by
  rw [← toNat_lane, ← toNat_lane, lane_setWidth v h]

theorem leNat_lt (f : Nat → Byte) (n : Nat) : leNat f n < 2 ^ (n * 8) := by
  induction n with
  | zero => simp [leNat]
  | succ n ih =>
    have e : (256 : Nat) ^ n = 2 ^ (n * 8) := by rw [show (256 : Nat) = 2 ^ 8 by rfl, ← Nat.pow_mul, Nat.mul_comm]
    have hb : (f n).toNat + 1 ≤ 2 ^ 8 := (f n).isLt
    calc leNat f n + (f n).toNat * 256 ^ n < 2 ^ (n * 8) + (f n).toNat * 2 ^ (n * 8) := by rw [e]; omega
      _ = ((f n).toNat + 1) * 2 ^ (n * 8) := by ring
      _ ≤ 2 ^ 8 * 2 ^ (n * 8) := Nat.mul_le_mul_right _ hb
      _ = 2 ^ ((n + 1) * 8) := by rw [← Nat.pow_add]; congr 1; omega

/-- The bytes of a little-endian value. -/
theorem toNat_packLanes_bytes {W : Nat} (f : Nat → Byte) {n : Nat} (h : n * 8 ≤ W) :
    (packLanes W 8 f n).toNat = leNat f n := by
  induction n with
  | zero => simp [packLanes, leNat]
  | succ n ih =>
    have e : (256 : Nat) ^ n = 2 ^ (n * 8) := by rw [show (256 : Nat) = 2 ^ 8 by rfl, ← Nat.pow_mul, Nat.mul_comm]
    have hbound : (f n).toNat * 2 ^ (n * 8) < 2 ^ W := by
      calc (f n).toNat * 2 ^ (n * 8) < 2 ^ 8 * 2 ^ (n * 8) :=
            Nat.mul_lt_mul_of_pos_right (f n).isLt (Nat.two_pow_pos _)
        _ = 2 ^ ((n + 1) * 8) := by rw [← Nat.pow_add]; congr 1; omega
        _ ≤ 2 ^ W := Nat.pow_le_pow_right (by omega) h
    have hx : ((f n).setWidth W <<< (n * 8)).toNat = 2 ^ (n * 8) * (f n).toNat := by
      rw [BitVec.toNat_shiftLeft, BitVec.toNat_setWidth_of_le (by omega), Nat.shiftLeft_eq, Nat.mod_eq_of_lt hbound,
        Nat.mul_comm]
    rw [packLanes, BitVec.toNat_or, ih (by omega), hx, Nat.or_comm, ← Nat.two_pow_add_eq_or_of_lt (leNat_lt f n), leNat, e]
    ring

/-- The value of some bytes in a wider value, as a sub-value. -/
theorem lane_packLanes_bytes {W N j n : Nat} (f : Nat → Byte) (hN : N % 8 = 0) (hj : (j + 1) * N ≤ n * 8)
    (hW : n * 8 ≤ W) : lane N (packLanes W 8 f n) j = packLanes N 8 (fun o => f (j * (N / 8) + o)) (N / 8) := by
  obtain ⟨b, rfl⟩ : ∃ b, N = b * 8 := ⟨N / 8, by omega⟩
  rw [Nat.mul_div_cancel b (by decide)]
  apply BitVec.eq_of_getLsbD_eq
  intro i hi
  rw [Nat.succ_mul] at hj
  have h1 : j * (b * 8) + i < n * 8 := by omega
  have h2 : j * (b * 8) + i < W := by omega
  have h3 : (j * (b * 8) + i) / 8 = j * b + i / 8 := by
    rw [← Nat.mul_assoc, Nat.mul_comm (j * b) 8, Nat.mul_add_div (by decide)]
  have h4 : (j * (b * 8) + i) % 8 = i % 8 := by
    rw [← Nat.mul_assoc, Nat.mul_comm (j * b) 8, Nat.mul_add_mod]
  rw [getLsbD_lane, getLsbD_packLanes, getLsbD_packLanes, h3, h4]
  simp [hi, h1, h2]

end Sys2Proof.Machine
end

