-- ==== Sys2Proof/Laws/State.lean ====
section
/-! SUPPORT. One lemma per field per update of the state: later proofs never unfold a record update. -/

namespace Sys2Proof.Machine

/-! ## setV -/

@[simp] theorem State.setV_vec (s : State) (i : VReg) (a : Vec) : (s.setV i a).vec = s.vec.set i.val a := rfl
@[simp] theorem State.setV_mm (s : State) (i : VReg) (a : Vec) : (s.setV i a).mm = s.mm := rfl
@[simp] theorem State.setV_k (s : State) (i : VReg) (a : Vec) : (s.setV i a).k = s.k := rfl
@[simp] theorem State.setV_x (s : State) (i : VReg) (a : Vec) : (s.setV i a).x = s.x := rfl
@[simp] theorem State.setV_pc (s : State) (i : VReg) (a : Vec) : (s.setV i a).pc = s.pc := rfl
@[simp] theorem State.setV_flags (s : State) (i : VReg) (a : Vec) : (s.setV i a).flags = s.flags := rfl
@[simp] theorem State.setV_mxcsr (s : State) (i : VReg) (a : Vec) : (s.setV i a).mxcsr = s.mxcsr := rfl
@[simp] theorem State.setV_x87 (s : State) (i : VReg) (a : Vec) : (s.setV i a).x87 = s.x87 := rfl
@[simp] theorem State.setV_ctrl (s : State) (i : VReg) (a : Vec) : (s.setV i a).ctrl = s.ctrl := rfl
@[simp] theorem State.setV_segs (s : State) (i : VReg) (a : Vec) : (s.setV i a).segs = s.segs := rfl
@[simp] theorem State.setV_cfg (s : State) (i : VReg) (a : Vec) : (s.setV i a).cfg = s.cfg := rfl
@[simp] theorem State.setV_mem (s : State) (i : VReg) (a : Vec) : (s.setV i a).mem = s.mem := rfl
@[simp] theorem State.setV_ilen (s : State) (i : VReg) (a : Vec) : (s.setV i a).ilen = s.ilen := rfl

/-! ## setMM -/

@[simp] theorem State.setMM_vec (s : State) (i : MmReg) (a : Qword) : (s.setMM i a).vec = s.vec := rfl
@[simp] theorem State.setMM_mm (s : State) (i : MmReg) (a : Qword) : (s.setMM i a).mm = s.mm.set i.val a := rfl
@[simp] theorem State.setMM_k (s : State) (i : MmReg) (a : Qword) : (s.setMM i a).k = s.k := rfl
@[simp] theorem State.setMM_x (s : State) (i : MmReg) (a : Qword) : (s.setMM i a).x = s.x := rfl
@[simp] theorem State.setMM_pc (s : State) (i : MmReg) (a : Qword) : (s.setMM i a).pc = s.pc := rfl
@[simp] theorem State.setMM_flags (s : State) (i : MmReg) (a : Qword) : (s.setMM i a).flags = s.flags := rfl
@[simp] theorem State.setMM_mxcsr (s : State) (i : MmReg) (a : Qword) : (s.setMM i a).mxcsr = s.mxcsr := rfl
@[simp] theorem State.setMM_x87 (s : State) (i : MmReg) (a : Qword) : (s.setMM i a).x87 = s.x87 := rfl
@[simp] theorem State.setMM_ctrl (s : State) (i : MmReg) (a : Qword) : (s.setMM i a).ctrl = s.ctrl := rfl
@[simp] theorem State.setMM_segs (s : State) (i : MmReg) (a : Qword) : (s.setMM i a).segs = s.segs := rfl
@[simp] theorem State.setMM_cfg (s : State) (i : MmReg) (a : Qword) : (s.setMM i a).cfg = s.cfg := rfl
@[simp] theorem State.setMM_mem (s : State) (i : MmReg) (a : Qword) : (s.setMM i a).mem = s.mem := rfl
@[simp] theorem State.setMM_ilen (s : State) (i : MmReg) (a : Qword) : (s.setMM i a).ilen = s.ilen := rfl

/-! ## x87Effect -/

@[simp] theorem State.x87Effect_vec (s : State) (d : MmReg) : (s.x87Effect d).vec = s.vec := rfl
@[simp] theorem State.x87Effect_mm (s : State) (d : MmReg) : (s.x87Effect d).mm = s.mm := rfl
@[simp] theorem State.x87Effect_k (s : State) (d : MmReg) : (s.x87Effect d).k = s.k := rfl
@[simp] theorem State.x87Effect_x (s : State) (d : MmReg) : (s.x87Effect d).x = s.x := rfl
@[simp] theorem State.x87Effect_pc (s : State) (d : MmReg) : (s.x87Effect d).pc = s.pc := rfl
@[simp] theorem State.x87Effect_flags (s : State) (d : MmReg) : (s.x87Effect d).flags = s.flags := rfl
@[simp] theorem State.x87Effect_mxcsr (s : State) (d : MmReg) : (s.x87Effect d).mxcsr = s.mxcsr := rfl
@[simp] theorem State.x87Effect_x87 (s : State) (d : MmReg) : (s.x87Effect d).x87 = { Config.x87Effect s.x87 d with pending := s.x87.pending } := rfl
@[simp] theorem State.x87Effect_ctrl (s : State) (d : MmReg) : (s.x87Effect d).ctrl = s.ctrl := rfl
@[simp] theorem State.x87Effect_segs (s : State) (d : MmReg) : (s.x87Effect d).segs = s.segs := rfl
@[simp] theorem State.x87Effect_cfg (s : State) (d : MmReg) : (s.x87Effect d).cfg = s.cfg := rfl
@[simp] theorem State.x87Effect_mem (s : State) (d : MmReg) : (s.x87Effect d).mem = s.mem := rfl
@[simp] theorem State.x87Effect_ilen (s : State) (d : MmReg) : (s.x87Effect d).ilen = s.ilen := rfl

/-! ## advance -/

@[simp] theorem State.advance_vec (s : State) : s.advance.vec = s.vec := rfl
@[simp] theorem State.advance_mm (s : State) : s.advance.mm = s.mm := rfl
@[simp] theorem State.advance_k (s : State) : s.advance.k = s.k := rfl
@[simp] theorem State.advance_x (s : State) : s.advance.x = s.x := rfl
@[simp] theorem State.advance_pc (s : State) : s.advance.pc = s.nextPc := rfl
@[simp] theorem State.advance_flags (s : State) : s.advance.flags = s.flags := rfl
@[simp] theorem State.advance_mxcsr (s : State) : s.advance.mxcsr = s.mxcsr := rfl
@[simp] theorem State.advance_x87 (s : State) : s.advance.x87 = s.x87 := rfl
@[simp] theorem State.advance_ctrl (s : State) : s.advance.ctrl = s.ctrl := rfl
@[simp] theorem State.advance_segs (s : State) : s.advance.segs = s.segs := rfl
@[simp] theorem State.advance_cfg (s : State) : s.advance.cfg = s.cfg := rfl
@[simp] theorem State.advance_mem (s : State) : s.advance.mem = s.mem := rfl
@[simp] theorem State.advance_ilen (s : State) : s.advance.ilen = s.ilen := rfl

/-! ## latch -/

@[simp] theorem State.latch_vec (s : State) (n : Nat) : (s.latch n).vec = s.vec := rfl
@[simp] theorem State.latch_mm (s : State) (n : Nat) : (s.latch n).mm = s.mm := rfl
@[simp] theorem State.latch_k (s : State) (n : Nat) : (s.latch n).k = s.k := rfl
@[simp] theorem State.latch_x (s : State) (n : Nat) : (s.latch n).x = s.x := rfl
@[simp] theorem State.latch_pc (s : State) (n : Nat) : (s.latch n).pc = s.pc := rfl
@[simp] theorem State.latch_flags (s : State) (n : Nat) : (s.latch n).flags = s.flags := rfl
@[simp] theorem State.latch_mxcsr (s : State) (n : Nat) : (s.latch n).mxcsr = s.mxcsr := rfl
@[simp] theorem State.latch_x87 (s : State) (n : Nat) : (s.latch n).x87 = s.x87 := rfl
@[simp] theorem State.latch_ctrl (s : State) (n : Nat) : (s.latch n).ctrl = s.ctrl := rfl
@[simp] theorem State.latch_segs (s : State) (n : Nat) : (s.latch n).segs = s.segs := rfl
@[simp] theorem State.latch_cfg (s : State) (n : Nat) : (s.latch n).cfg = s.cfg := rfl
@[simp] theorem State.latch_mem (s : State) (n : Nat) : (s.latch n).mem = s.mem := rfl
@[simp] theorem State.latch_ilen (s : State) (n : Nat) : (s.latch n).ilen = n := rfl

/-! ## Register reads -/

@[simp] theorem State.v_setV_same (s : State) (i : VReg) (a : Vec) : (s.setV i a).v i = a := by
  simp [State.v]

theorem State.v_setV_other (s : State) {i j : VReg} (a : Vec) (h : j ≠ i) : (s.setV i a).v j = s.v j := by
  have : i.val ≠ j.val := fun e => h (Fin.ext e.symm)
  simp [State.v, Vector.getElem_set_ne, this]

@[simp] theorem State.mmr_setMM_same (s : State) (i : MmReg) (a : Qword) : (s.setMM i a).mmr i = a := by
  simp [State.mmr]

theorem State.mmr_setMM_other (s : State) {i j : MmReg} (a : Qword) (h : j ≠ i) : (s.setMM i a).mmr j = s.mmr j := by
  have : i.val ≠ j.val := fun e => h (Fin.ext e.symm)
  simp [State.mmr, Vector.getElem_set_ne, this]

@[simp] theorem State.v_setMM (s : State) (i : MmReg) (a : Qword) (j : VReg) : (s.setMM i a).v j = s.v j := rfl
@[simp] theorem State.v_x87Effect (s : State) (d : MmReg) (j : VReg) : (s.x87Effect d).v j = s.v j := rfl
@[simp] theorem State.v_advance (s : State) (j : VReg) : s.advance.v j = s.v j := rfl
@[simp] theorem State.v_latch (s : State) (n : Nat) (j : VReg) : (s.latch n).v j = s.v j := rfl
@[simp] theorem State.mmr_setV (s : State) (i : VReg) (a : Vec) (j : MmReg) : (s.setV i a).mmr j = s.mmr j := rfl
@[simp] theorem State.mmr_x87Effect (s : State) (d : MmReg) (j : MmReg) : (s.x87Effect d).mmr j = s.mmr j := rfl
@[simp] theorem State.mmr_advance (s : State) (j : MmReg) : s.advance.mmr j = s.mmr j := rfl
@[simp] theorem State.mmr_latch (s : State) (n : Nat) (j : MmReg) : (s.latch n).mmr j = s.mmr j := rfl

/-! ## What the checks read: nothing that a form writes (10_state.md R39) -/

@[simp] theorem State.avail_latch (s : State) (n : Nat) (f : Form) : (s.latch n).avail f = s.avail f := rfl
@[simp] theorem State.deviceReady_latch (s : State) (n : Nat) : (s.latch n).deviceReady = s.deviceReady := rfl
@[simp] theorem State.ready_latch (s : State) (n : Nat) (f : Form) : (s.latch n).ready f = s.ready f := rfl

/-- Whether a form is ready depends on CTRL, VM, the parameters and X87Pending alone. -/
theorem State.ready_congr {s t : State} (hc : t.ctrl = s.ctrl) (hf : t.flags = s.flags) (hp : t.cfg = s.cfg)
    (hx : t.x87.pending = s.x87.pending) (f : Form) : t.ready f = s.ready f := by
  simp [State.ready, State.avail, State.realOrV86, State.em, State.osfxsr, State.osxsave, State.xcrAvx, State.xcrZmm,
    State.flagVM, State.deviceReady, hc, hf, hp, hx]

end Sys2Proof.Machine
end

