-- ==== Sys2Proof/Laws/Operands.lean ====
section
/-! SUPPORT. What the operand reads can do: when a read succeeds, what it then gives, and which fault it gives otherwise. -/

namespace Sys2Proof.Machine

/-- Translate answers ok exactly when it gives neither a segment refusal nor a page fault. -/
theorem State.translate_isNone (s : State) (a : Qword) :
    (s.translate a).isNone = true ↔ s.translateSegment a = false ∧ s.translatePage a = none := by
  unfold State.translateSegment State.translatePage
  cases h : s.translate a with
  | none => simp
  | some r => cases r <;> simp

theorem State.byteReadable_iff (s : State) (m : MemOp) (o : Nat) :
    s.byteReadable m o = true ↔ s.segmentOk m o = true ∧ s.translateSegment (s.linear m o) = false ∧
      s.translatePage (s.linear m o) = none ∧ (s.mem.read (s.linear m o)).isSome = true := by
  simp only [State.byteReadable, Bool.and_eq_true, State.translate_isNone, and_assoc]

theorem State.bytesReadable_iff (s : State) (m : MemOp) (n : Nat) :
    s.bytesReadable m n = true ↔ ∀ o, o < n → s.byteReadable m o = true := by
  simp [State.bytesReadable]

/-- The bytes with a page fault: none, when no byte has one. -/
theorem State.faultingBytes_eq_nil (s : State) (m : MemOp) (offs : List Nat) :
    s.faultingBytes m offs = [] ↔ ∀ o ∈ offs, s.translatePage (s.linear m o) = none := by
  simp [State.faultingBytes, List.filter_eq_nil_iff]

theorem State.mem_faultingBytes (s : State) (m : MemOp) (offs : List Nat) (a : Qword) :
    a ∈ s.faultingBytes m offs ↔ ∃ o ∈ offs, s.linear m o = a ∧ (s.translatePage a).isSome = true := by
  simp only [State.faultingBytes, List.mem_filter, List.mem_map]
  constructor
  · rintro ⟨⟨o, ho, rfl⟩, h⟩; exact ⟨o, ho, rfl, h⟩
  · rintro ⟨o, ho, rfl, h⟩; exact ⟨⟨o, ho, rfl⟩, h⟩

/-- The checks of MemRead pass exactly when every byte can be read and the alignment rules of the class hold. -/
theorem State.accessFault_eq_none_iff (s : State) (m : MemOp) (rule : AlignRule) (offs : List Nat) :
    s.accessFault m rule offs = none ↔
      (∀ o ∈ offs, s.byteReadable m o = true) ∧
      (rule = .sse16 → (s.linear m 0).toNat % 16 = 0 ∧
        (s.cfg.mode = .real → ∀ o ∈ offs, (s.effAddr m.ea).toNat + o ≤ 0xFFFF)) ∧
      (rule = .mmx8 → s.alignCheck = true → (s.linear m 0).toNat % 8 = 0) := by
  unfold State.accessFault
  constructor
  · intro h
    split at h
    · cases h
    next h1 =>
    split at h
    · cases h
    next h2 =>
    split at h
    · cases h
    next h3 =>
    split at h
    · cases h
    next h4 =>
    split at h
    · cases h
    next h5 =>
    simp only [Option.map_eq_none_iff, List.find?_eq_none] at h
    rw [State.faultingBytes_eq_nil] at h4
    simp only [List.any_eq_true, not_exists, not_and, Bool.or_eq_true, not_or] at h2
    refine ⟨fun o ho => ?_, fun e => ⟨?_, fun er o ho => ?_⟩, fun e ha => ?_⟩
    · rw [State.byteReadable_iff]
      have := h2 o ho
      refine ⟨by simpa using this.1, by simpa using this.2, h4 o ho, ?_⟩
      have := h o ho
      cases hr : s.mem.read (s.linear m o) with
      | none => simp [hr] at this
      | some b => rfl
    · by_contra hc; exact h3 ⟨e, hc⟩
    · by_contra hc
      exact h1 ⟨e, er, by simp only [List.any_eq_true]; exact ⟨o, ho, by simp only [decide_eq_true_eq]; omega⟩⟩
    · by_contra hc; exact h5 ⟨e, ha, hc⟩
  · rintro ⟨hb, hs, hm⟩
    have hb' := fun o ho => (State.byteReadable_iff s m o).mp (hb o ho)
    rw [if_neg, if_neg, if_neg, (State.faultingBytes_eq_nil s m offs).mpr fun o ho => (hb' o ho).2.2.1]
    · simp only
      rw [if_neg]
      · simp only [Option.map_eq_none_iff, List.find?_eq_none]
        intro o ho
        cases hr : s.mem.read (s.linear m o) with
        | none => have := (hb' o ho).2.2.2; simp [hr] at this
        | some b => simp
      · rintro ⟨e, ha, hc⟩; exact hc (hm e ha)
    · rintro ⟨e, hc⟩; exact hc (hs e).1
    · simp only [List.any_eq_true, not_exists, not_and]
      intro o ho
      simp [(hb' o ho).1, (hb' o ho).2.1]
    · rintro ⟨e, er, hc⟩
      simp only [List.any_eq_true, decide_eq_true_eq] at hc
      obtain ⟨o, ho, hc⟩ := hc
      have := (hs e).2 er o ho
      omega

/-- A page fault reports a refused byte of the operand, with the code of Translate for it (60_exceptions.md R228). -/
theorem State.pageFault_spec (s : State) (m : MemOp) (offs : List Nat) (h : s.faultingBytes m offs ≠ []) :
    ∃ o ∈ offs, ∃ c, s.translatePage (s.linear m o) = some c ∧
      s.pageFault (s.faultingBytes m offs) = .pf (s.pageFaultCode c) (s.linear m o) s.pc := by
  have hl : 0 < (s.faultingBytes m offs).length := List.length_pos_iff.mpr h
  have hi := Nat.mod_lt (Config.pageFaultByte (s.faultingBytes m offs)) hl
  have ha := List.getElem_mem hi
  obtain ⟨o, ho, he, hp⟩ := (State.mem_faultingBytes s m offs _).mp ha
  obtain ⟨c, hc⟩ := Option.isSome_iff_exists.mp hp
  refine ⟨o, ho, c, by rw [he]; exact hc, ?_⟩
  simp only [State.pageFault, List.getD_eq_getElem?_getD, List.getElem?_eq_getElem hi, Option.getD_some, hc, State.raise, he]

/-- The faults MemRead can raise, and when (60_exceptions.md R229 item 6). -/
theorem State.accessFault_cases {s : State} {m : MemOp} {rule : AlignRule} {offs : List Nat} {x : Fault}
    (h : s.accessFault m rule offs = some x) :
    (x = .gp s.pc ∧ rule = .sse16 ∧ s.cfg.mode = .real) ∨
    (x = s.segmentFault m ∧ ∃ o ∈ offs, s.segmentOk m o = false ∨ s.translateSegment (s.linear m o) = true) ∨
    (x = .gp s.pc ∧ rule = .sse16 ∧ (s.linear m 0).toNat % 16 ≠ 0) ∨
    (∃ o ∈ offs, ∃ c, s.translatePage (s.linear m o) = some c ∧ x = .pf (s.pageFaultCode c) (s.linear m o) s.pc) ∨
    (x = .ac s.pc ∧ rule = .mmx8 ∧ s.alignCheck = true ∧ (s.linear m 0).toNat % 8 ≠ 0) ∨
    (∃ o ∈ offs, s.mem.read (s.linear m o) = none ∧ x = .noMemory (s.linear m o) s.pc) := by
  unfold State.accessFault at h
  split at h
  · next h1 => cases h; exact .inl ⟨rfl, h1.1, h1.2.1⟩
  split at h
  · next h2 =>
    cases h
    simp only [List.any_eq_true, Bool.or_eq_true, Bool.not_eq_true'] at h2
    exact .inr (.inl ⟨rfl, h2⟩)
  split at h
  · next h3 => cases h; exact .inr (.inr (.inl ⟨rfl, h3.1, h3.2⟩))
  split at h
  · next b bs h4 =>
    cases h
    rw [← h4]
    obtain ⟨o, ho, c, hc, e⟩ := State.pageFault_spec s m offs (by simp [h4])
    exact .inr (.inr (.inr (.inl ⟨o, ho, c, hc, e⟩)))
  split at h
  · next h5 => cases h; exact .inr (.inr (.inr (.inr (.inl ⟨rfl, h5⟩))))
  · simp only [Option.map_eq_some_iff] at h
    obtain ⟨o, ho, rfl⟩ := h
    have := List.find?_some ho
    exact .inr (.inr (.inr (.inr (.inr ⟨o, List.mem_of_find?_eq_some ho, by simpa using this, rfl⟩))))

/-! ## The reads -/

/-- MemRead gives the little-endian value of the bytes, exactly when its checks pass. -/
theorem State.memRead_ok_iff (s : State) (W : Nat) (m : MemOp) (rule : AlignRule) (n : Nat) (v : BitVec W) :
    s.memRead W m rule n = .ok v ↔ s.accessFault m rule (List.range n) = none ∧ v = s.operandValue W m n := by
  unfold State.memRead
  cases h : s.accessFault m rule (List.range n) with
  | none => simp [eq_comm]
  | some x => simp

theorem State.memRead_map_ok_iff {α : Type} (s : State) (W : Nat) (m : MemOp) (rule : AlignRule) (n : Nat)
    (f : BitVec W → α) (c : α) :
    (s.memRead W m rule n).map f = .ok c ↔
      s.accessFault m rule (List.range n) = none ∧ c = f (s.operandValue W m n) := by
  unfold State.memRead
  cases h : s.accessFault m rule (List.range n) with
  | none => simp [Except.map, eq_comm]
  | some x => simp [Except.map]

theorem State.memRead_error_iff (s : State) (W : Nat) (m : MemOp) (rule : AlignRule) (n : Nat) (x : Fault) :
    s.memRead W m rule n = .error x ↔ s.accessFault m rule (List.range n) = some x := by
  unfold State.memRead
  cases h : s.accessFault m rule (List.range n) with
  | none => simp
  | some y => simp

theorem State.toNat_operandValue (s : State) {W : Nat} (m : MemOp) {n : Nat} (h : n * 8 ≤ W) :
    (s.operandValue W m n).toNat = leNat (s.operandByte m) n :=
  toNat_packLanes_bytes _ h

/-- COUNT_SRC[63:0] of a register. -/
theorem countOf_eq {W : Nat} (v : BitVec W) : countOf v = v.toNat % 2 ^ 64 := by
  simp [countOf]

/-- The first 8 of 16 bytes are the low half of their value. -/
theorem leNat_add (f : Nat → Byte) (a b : Nat) : leNat f (a + b) = leNat f a + leNat (fun i => f (a + i)) b * 256 ^ a := by
  induction b with
  | zero => simp [leNat]
  | succ b ih => rw [← Nat.add_assoc, leNat, ih, leNat, Nat.pow_add]; ring

theorem countOf_operandValue (s : State) (m : MemOp) : countOf (s.operandValue 128 m 16) = leNat (s.operandByte m) 8 := by
  rw [countOf_eq, State.toNat_operandValue s m (by decide), show (16 : Nat) = 8 + 8 by rfl, leNat_add,
    show (256 : Nat) ^ 8 = 2 ^ 64 by norm_num, Nat.add_mul_mod_self_right, Nat.mod_eq_of_lt (leNat_lt _ 8)]

/-- The count of an MMX form (40_shift_core.md R133). -/
theorem State.mmxCount_ok_iff (s : State) (cnt : RegMem MmReg) (c : Nat) :
    s.mmxCount cnt = .ok c ↔ s.mmxCountReadable cnt = true ∧ c = s.mmxCountNat cnt := by
  cases cnt with
  | reg r => simp [State.mmxCount, State.mmxCountReadable, State.mmxCountNat, eq_comm]
  | mem m =>
    have hr : s.mmxCountReadable (.mem m) = true ↔ s.accessFault m .mmx8 (List.range 8) = none := by
      rw [State.accessFault_eq_none_iff]
      simp only [State.mmxCountReadable, Bool.and_eq_true, State.bytesReadable_iff, List.mem_range, reduceCtorEq,
        false_implies, true_and, forall_const, Bool.or_eq_true, Bool.not_eq_true', beq_iff_eq]
      cases s.alignCheck <;> simp
    rw [hr, State.mmxCount, State.memRead_map_ok_iff, State.toNat_operandValue s m (by decide)]
    rfl

/-- The count of an SSE128 form (40_shift_core.md R134, 20_memory.md R54, R56). -/
theorem State.sseCount_ok_iff (s : State) (cnt : RegMem VReg) (c : Nat) :
    s.xmmCount .sse16 cnt = .ok c ↔ s.sseCountReadable cnt = true ∧ c = s.xmmCountNat cnt := by
  cases cnt with
  | reg r => simp [State.xmmCount, State.sseCountReadable, State.xmmCountNat, countOf_eq, eq_comm]
  | mem m =>
    have hr : s.sseCountReadable (.mem m) = true ↔ s.accessFault m .sse16 (List.range 16) = none := by
      rw [State.accessFault_eq_none_iff]
      simp only [State.sseCountReadable, Bool.and_eq_true, State.bytesReadable_iff, List.mem_range, reduceCtorEq,
        false_implies, and_true, forall_const, Bool.not_eq_true', beq_iff_eq, Bool.and_eq_false_iff,
        decide_eq_false_iff_not, beq_eq_false_iff_ne]
      constructor
      · rintro ⟨⟨h1, h2⟩, h3⟩
        exact ⟨h1, h2, fun e o ho => by rcases h3 with h | h; exact absurd e h; omega⟩
      · rintro ⟨h1, h2, h3⟩
        refine ⟨⟨h1, h2⟩, ?_⟩
        by_cases e : s.cfg.mode = .real
        · right; have := h3 e 15 (by omega); omega
        · exact .inl e
    rw [hr, State.xmmCount, State.memRead_map_ok_iff, countOf_operandValue]
    rfl

/-- The count of a VEX or EVEX form (40_shift_core.md R134, 20_memory.md R54, R57). -/
theorem State.xmmCount_ok_iff (s : State) (cnt : RegMem VReg) (c : Nat) :
    s.xmmCount .any cnt = .ok c ↔ s.xmmCountReadable cnt = true ∧ c = s.xmmCountNat cnt := by
  cases cnt with
  | reg r => simp [State.xmmCount, State.xmmCountReadable, State.xmmCountNat, countOf_eq, eq_comm]
  | mem m =>
    have hr : s.xmmCountReadable (.mem m) = true ↔ s.accessFault m .any (List.range 16) = none := by
      rw [State.accessFault_eq_none_iff]
      simp [State.xmmCountReadable, State.bytesReadable_iff]
    rw [hr, State.xmmCount, State.memRead_map_ok_iff, countOf_operandValue]
    rfl

/-! ## The data source of the EVEX immediate forms -/

/-- The whole source of VPSLLW: it is read exactly when every byte can be (20_memory.md R62). -/
theorem State.wholeSource_ok_iff (s : State) (VL : Nat) (src : RegMem VReg) :
    (∃ v, s.wholeSource VL src = .ok v) ↔ s.wholeReadable VL src = true := by
  cases src with
  | reg r => simp [State.wholeSource, State.wholeReadable]
  | mem m =>
    simp only [State.wholeSource, State.wholeReadable, State.bytesReadable_iff, State.memRead_ok_iff,
      State.accessFault_eq_none_iff]
    simp

theorem State.lane_wholeSource {s : State} {VL N : Nat} {src : RegMem VReg} {v : BitVec VL}
    (h : s.wholeSource VL src = .ok v) (hN : N % 8 = 0) (hVL : VL % 8 = 0) {j : Nat} (hj : j < VL / N) :
    natLane N v j = s.srcLane N src.toData j := by
  have hle : (j + 1) * N ≤ VL := le_trans (Nat.mul_le_mul_right N hj) (div_mul_le VL N)
  cases src with
  | reg r =>
    simp only [State.wholeSource, Except.ok.injEq] at h
    subst h
    exact natLane_setWidth _ hle
  | mem m =>
    simp only [State.wholeSource, State.memRead_ok_iff] at h
    rw [h.2, ← toNat_lane, State.operandValue, lane_packLanes_bytes _ hN (by omega) (by omega),
      toNat_packLanes_bytes _ (by omega)]
    rfl

/-- The byte a row F operand is stuck on: the first, if there is one, that lies in no ordinary memory. -/
theorem State.stuck_eq_none_iff (s : State) (m : MemOp) (n : Nat) :
    s.stuck m n = none ↔ ∀ o, o < n → s.outsideMem m o = false := by
  simp [State.stuck]

theorem State.stuck_cases {s : State} {m : MemOp} {n : Nat} {x : Fault} (h : s.stuck m n = some x) :
    ∃ o, o < n ∧ s.outsideMem m o = true ∧ x = .noMemory (s.linear m o) s.pc := by
  simp only [State.stuck, Option.map_eq_some_iff] at h
  obtain ⟨o, ho, rfl⟩ := h
  exact ⟨o, by simpa using List.mem_of_find?_eq_some ho, List.find?_some ho, rfl⟩

/-- A byte that can be read lies in ordinary memory. -/
theorem State.outsideMem_of_byteReadable {s : State} {m : MemOp} {o : Nat} (h : s.byteReadable m o = true) :
    s.outsideMem m o = false := by
  simp only [State.byteReadable, Bool.and_eq_true] at h
  simp [State.outsideMem, Option.isNone_eq_false_iff.mpr h.2]

/-- The checks of a row F operand: both pass. -/
theorem State.rowFault_eq_none_iff (s : State) (m : MemOp) (offs : List Nat) (n : Nat) :
    (s.accessFault m .any offs).or (s.stuck m n) = none ↔
      (∀ o ∈ offs, s.byteReadable m o = true) ∧ ∀ o, o < n → s.outsideMem m o = false := by
  rw [Option.or_eq_none_iff, State.accessFault_eq_none_iff, State.stuck_eq_none_iff]
  simp

/-- The checks of a full-width operand pass exactly when it is readable (20_memory.md R62, R64). -/
theorem State.dataReadable_mem_iff (s : State) (VL N : Nat) (k : Masking) (m : MemOp) :
    s.dataReadable VL N k (.mem m) = true ↔
      (s.accessFault m .any (s.fullOffsets VL N k)).or (s.stuck m (VL / 8)) = none := by
  rw [State.rowFault_eq_none_iff]
  simp only [State.dataReadable, State.fullOffsets, List.all_eq_true, List.mem_range, List.mem_filter, Bool.or_eq_true,
    Bool.and_eq_true, Bool.not_eq_true']
  constructor
  · intro h
    refine ⟨fun o ho => ?_, fun o ho => ?_⟩
    · rcases h o ho.1 with h | ⟨⟨h1, h2⟩, -⟩
      · exact h
      · simp [h1, h2] at ho
    · rcases h o ho with h | h
      · exact State.outsideMem_of_byteReadable h
      · exact h.2
  · rintro ⟨h1, h2⟩ o ho
    cases hf : s.cfg.faultSuppressF
    · exact .inl (h1 o ⟨ho, .inl hf⟩)
    · cases ha : s.active k (o / (N / 8))
      · exact .inr ⟨⟨rfl, rfl⟩, h2 o ho⟩
      · exact .inl (h1 o ⟨ho, .inr ha⟩)

/-- The checks of a broadcast element pass exactly when it is readable (60_exceptions.md R226, 20_memory.md R64). -/
theorem State.dataReadable_bcst_iff (s : State) (VL N : Nat) (k : Masking) (m : MemOp) :
    s.dataReadable VL N k (.bcst m) = true ↔
      (s.accessFault m .any (s.bcstOffsets VL N k)).or (s.stuck m (N / 8)) = none := by
  rw [State.rowFault_eq_none_iff]
  simp only [State.dataReadable, State.bcstOffsets, State.bytesReadable_iff, Bool.or_eq_true, Bool.and_eq_true,
    Bool.not_eq_true', List.all_eq_true, List.any_eq_true, List.mem_range]
  split
  · next h =>
    simp only [List.mem_range]
    constructor
    · rintro (h1 | ⟨⟨h1, h2⟩, -⟩)
      · exact ⟨h1, fun o ho => State.outsideMem_of_byteReadable (h1 o ho)⟩
      · rcases h with h | ⟨j, hj, ha⟩
        · simp [h1] at h
        · simp [h2 j hj] at ha
    · exact fun h => .inl h.1
  · next h =>
    simp only [not_or, not_exists, not_and, Bool.not_eq_false, Bool.not_eq_true] at h
    constructor
    · rintro (h1 | h1)
      · exact ⟨by simp, fun o ho => State.outsideMem_of_byteReadable (h1 o ho)⟩
      · exact ⟨by simp, h1.2⟩
    · exact fun h1 => .inr ⟨h, h1.2⟩

/-- The data source of VPSLLD and VPSLLQ: it is read exactly when the bytes that are accessed can be
(20_memory.md R62, 60_exceptions.md R226). -/
theorem State.dataSource_ok_iff (s : State) (VL N : Nat) (k : Masking) (src : DataSrc) :
    (∃ v, s.dataSource VL N k src = .ok v) ↔ s.dataReadable VL N k src = true := by
  cases src with
  | reg r => simp [State.dataSource, State.dataReadable]
  | mem m =>
    rw [State.dataReadable_mem_iff]
    simp only [State.dataSource]
    split
    · next h => rw [h]; simp
    · next h => rw [h]; simp
  | bcst m =>
    rw [State.dataReadable_bcst_iff]
    simp only [State.dataSource]
    split
    · next h => rw [h]; simp
    · next h => rw [h]; simp

/-- The faults of a full-width source: those of the accessed bytes, then the stuck byte. -/
theorem State.dataSource_mem_error_iff (s : State) (VL N : Nat) (k : Masking) (m : MemOp) (x : Fault) :
    s.dataSource VL N k (.mem m) = .error x ↔
      (s.accessFault m .any (s.fullOffsets VL N k)).or (s.stuck m (VL / 8)) = some x := by
  simp only [State.dataSource]
  split
  · next h => rw [h]; simp
  · next h => rw [h]; simp

/-- The faults of a broadcast source. -/
theorem State.dataSource_bcst_error_iff (s : State) (VL N : Nat) (k : Masking) (m : MemOp) (x : Fault) :
    s.dataSource VL N k (.bcst m) = .error x ↔
      (s.accessFault m .any (s.bcstOffsets VL N k)).or (s.stuck m (N / 8)) = some x := by
  simp only [State.dataSource]
  split
  · next h => rw [h]; simp
  · next h => rw [h]; simp

/-- An element of the data source that is written is the element of the operand. -/
theorem State.lane_dataSource {s : State} {VL N : Nat} {k : Masking} {src : DataSrc} {v : BitVec VL}
    (h : s.dataSource VL N k src = .ok v) (hN : N % 8 = 0) (h0 : 0 < N) (hVL : VL % 8 = 0) {j : Nat} (hj : j < VL / N)
    (ha : s.active k j = true) : natLane N v j = s.srcLane N src j := by
  have hle : (j + 1) * N ≤ VL := le_trans (Nat.mul_le_mul_right N hj) (div_mul_le VL N)
  cases src with
  | reg r =>
    simp only [State.dataSource, Except.ok.injEq] at h
    subst h
    exact natLane_setWidth _ hle
  | mem m =>
    simp only [State.dataSource] at h
    split at h
    · cases h
    simp only [Except.ok.injEq] at h
    rw [← h, ← toNat_lane, lane_packLanes_bytes _ hN (by omega) (by omega), toNat_packLanes_bytes _ (by omega)]
    simp only [State.srcLane]
    have key : ∀ n, n ≤ N / 8 → leNat (fun o => if (s.fullOffsets VL N k).contains (j * (N / 8) + o) = true then
        s.operandByte m (j * (N / 8) + o) else 0) n = leNat (fun o => s.operandByte m (j * (N / 8) + o)) n := by
      intro n hn
      induction n with
      | zero => rfl
      | succ n ih =>
        have hd : (j * (N / 8) + n) / (N / 8) = j := by
          rw [Nat.mul_comm, Nat.mul_add_div (by omega), Nat.div_eq_of_lt (by omega), Nat.add_zero]
        have hb : j * (N / 8) + n < VL / 8 := by
          obtain ⟨b, rfl⟩ : ∃ b, N = b * 8 := ⟨N / 8, by omega⟩
          rw [Nat.mul_div_cancel b (by decide)] at hn ⊢
          rw [Nat.succ_mul, ← Nat.mul_assoc] at hle
          omega
        have hm : (s.fullOffsets VL N k).contains (j * (N / 8) + n) = true := by
          rw [List.contains_iff_mem, State.fullOffsets, List.mem_filter, List.mem_range, hd, ha]
          exact ⟨hb, by simp⟩
        simp only [leNat]
        rw [ih (by omega), if_pos hm]
    exact key (N / 8) (le_refl _)
  | bcst m =>
    simp only [State.dataSource] at h
    split at h
    · cases h
    simp only [Except.ok.injEq] at h
    rw [← h, ← toNat_lane, lane_bcast _ hj, toNat_packLanes_bytes _ (by omega)]
    simp only [State.srcLane]
    have hany : (List.range (VL / N)).any (s.active k) = true := by
      rw [List.any_eq_true]; exact ⟨j, by simpa using hj, ha⟩
    have ho : s.bcstOffsets VL N k = List.range (N / 8) := by simp [State.bcstOffsets, hany]
    rw [ho]
    have key : ∀ n, n ≤ N / 8 → leNat (fun o => if (List.range (N / 8)).contains o = true then
        s.operandByte m o else 0) n = leNat (s.operandByte m) n := by
      intro n hn
      induction n with
      | zero => rfl
      | succ n ih =>
        have hm : (List.range (N / 8)).contains n = true := by
          rw [List.contains_iff_mem, List.mem_range]; omega
        simp only [leNat]
        rw [ih (by omega), if_pos hm]
    exact key (N / 8) (le_refl _)

end Sys2Proof.Machine
end

