-- ==== Sys2Proof/Laws/PerInstr.lean ====
section
/-! SUPPORT. Statements made instruction by instruction: how long an encoding is (30_encoding.md R81, R115, R116). -/

/-- The encoding of an instruction, in every mode, has 3 to 15 bytes: the escape or prefix, the opcode and ModRM at
least, and never more than the longest instruction. -/
def Sys2Proof.Laws.EncodedLength.Statement (i : Sys2Proof.Instr) : Prop :=
  ∀ m : Sys2Proof.Mode, 3 ≤ (Sys2Proof.encode m i).length ∧ (Sys2Proof.encode m i).length ≤ 15

namespace Sys2Proof.Laws.EncodedLength

theorem mmxPsllwRm (dst : MmReg) (cnt : RegMem MmReg) :
    Statement (.mmxPsllwRm dst cnt) := fun m =>
  length_encLegacy _ _ _ _ _ _ (length_encMmRm m cnt) (by simp)

theorem mmxPsllwImm (dst : MmReg) (imm : Byte) :
    Statement (.mmxPsllwImm dst imm) := fun _ =>
  length_encLegacy _ _ _ _ _ _ (by simp [encMmreg]) (by simp)

theorem mmxPslldRm (dst : MmReg) (cnt : RegMem MmReg) :
    Statement (.mmxPslldRm dst cnt) := fun m =>
  length_encLegacy _ _ _ _ _ _ (length_encMmRm m cnt) (by simp)

theorem mmxPslldImm (dst : MmReg) (imm : Byte) :
    Statement (.mmxPslldImm dst imm) := fun _ =>
  length_encLegacy _ _ _ _ _ _ (by simp [encMmreg]) (by simp)

theorem mmxPsllqRm (dst : MmReg) (cnt : RegMem MmReg) :
    Statement (.mmxPsllqRm dst cnt) := fun m =>
  length_encLegacy _ _ _ _ _ _ (length_encMmRm m cnt) (by simp)

theorem mmxPsllqImm (dst : MmReg) (imm : Byte) :
    Statement (.mmxPsllqImm dst imm) := fun _ =>
  length_encLegacy _ _ _ _ _ _ (by simp [encMmreg]) (by simp)

theorem ssePsllwRm (dst : VReg) (cnt : RegMem VReg) :
    Statement (.ssePsllwRm dst cnt) := fun m =>
  length_encLegacy _ _ _ _ _ _ (length_encVRm m 1 cnt) (by simp)

theorem ssePsllwImm (dst : VReg) (imm : Byte) :
    Statement (.ssePsllwImm dst imm) := fun _ =>
  length_encLegacy _ _ _ _ _ _ (by simp [encVreg]) (by simp)

theorem ssePslldRm (dst : VReg) (cnt : RegMem VReg) :
    Statement (.ssePslldRm dst cnt) := fun m =>
  length_encLegacy _ _ _ _ _ _ (length_encVRm m 1 cnt) (by simp)

theorem ssePslldImm (dst : VReg) (imm : Byte) :
    Statement (.ssePslldImm dst imm) := fun _ =>
  length_encLegacy _ _ _ _ _ _ (by simp [encVreg]) (by simp)

theorem ssePsllqRm (dst : VReg) (cnt : RegMem VReg) :
    Statement (.ssePsllqRm dst cnt) := fun m =>
  length_encLegacy _ _ _ _ _ _ (length_encVRm m 1 cnt) (by simp)

theorem ssePsllqImm (dst : VReg) (imm : Byte) :
    Statement (.ssePsllqImm dst imm) := fun _ =>
  length_encLegacy _ _ _ _ _ _ (by simp [encVreg]) (by simp)

theorem vex128PsllwRm (dst src : VReg) (cnt : RegMem VReg) :
    Statement (.vex128PsllwRm dst src cnt) := fun m =>
  length_encVex _ _ _ _ _ _ _ (length_encVRm m 1 cnt) (by simp)

theorem vex128PsllwImm (dst src : VReg) (imm : Byte) :
    Statement (.vex128PsllwImm dst src imm) := fun _ =>
  length_encVex _ _ _ _ _ _ _ (by simp [encVreg]) (by simp)

theorem vex128PslldRm (dst src : VReg) (cnt : RegMem VReg) :
    Statement (.vex128PslldRm dst src cnt) := fun m =>
  length_encVex _ _ _ _ _ _ _ (length_encVRm m 1 cnt) (by simp)

theorem vex128PslldImm (dst src : VReg) (imm : Byte) :
    Statement (.vex128PslldImm dst src imm) := fun _ =>
  length_encVex _ _ _ _ _ _ _ (by simp [encVreg]) (by simp)

theorem vex128PsllqRm (dst src : VReg) (cnt : RegMem VReg) :
    Statement (.vex128PsllqRm dst src cnt) := fun m =>
  length_encVex _ _ _ _ _ _ _ (length_encVRm m 1 cnt) (by simp)

theorem vex128PsllqImm (dst src : VReg) (imm : Byte) :
    Statement (.vex128PsllqImm dst src imm) := fun _ =>
  length_encVex _ _ _ _ _ _ _ (by simp [encVreg]) (by simp)

theorem vex256PsllwRm (dst src : VReg) (cnt : RegMem VReg) :
    Statement (.vex256PsllwRm dst src cnt) := fun m =>
  length_encVex _ _ _ _ _ _ _ (length_encVRm m 1 cnt) (by simp)

theorem vex256PsllwImm (dst src : VReg) (imm : Byte) :
    Statement (.vex256PsllwImm dst src imm) := fun _ =>
  length_encVex _ _ _ _ _ _ _ (by simp [encVreg]) (by simp)

theorem vex256PslldRm (dst src : VReg) (cnt : RegMem VReg) :
    Statement (.vex256PslldRm dst src cnt) := fun m =>
  length_encVex _ _ _ _ _ _ _ (length_encVRm m 1 cnt) (by simp)

theorem vex256PslldImm (dst src : VReg) (imm : Byte) :
    Statement (.vex256PslldImm dst src imm) := fun _ =>
  length_encVex _ _ _ _ _ _ _ (by simp [encVreg]) (by simp)

theorem vex256PsllqRm (dst src : VReg) (cnt : RegMem VReg) :
    Statement (.vex256PsllqRm dst src cnt) := fun m =>
  length_encVex _ _ _ _ _ _ _ (length_encVRm m 1 cnt) (by simp)

theorem vex256PsllqImm (dst src : VReg) (imm : Byte) :
    Statement (.vex256PsllqImm dst src imm) := fun _ =>
  length_encVex _ _ _ _ _ _ _ (by simp [encVreg]) (by simp)

theorem evex128PsllwRm (dst : VReg) (msk : Masking) (src : VReg) (cnt : RegMem VReg) :
    Statement (.evex128PsllwRm dst msk src cnt) := fun m =>
  length_encEvex _ _ _ _ _ _ _ _ _ _ _ (length_encVRm m 16 cnt) (by simp)

theorem evex256PsllwRm (dst : VReg) (msk : Masking) (src : VReg) (cnt : RegMem VReg) :
    Statement (.evex256PsllwRm dst msk src cnt) := fun m =>
  length_encEvex _ _ _ _ _ _ _ _ _ _ _ (length_encVRm m 16 cnt) (by simp)

theorem evex512PsllwRm (dst : VReg) (msk : Masking) (src : VReg) (cnt : RegMem VReg) :
    Statement (.evex512PsllwRm dst msk src cnt) := fun m =>
  length_encEvex _ _ _ _ _ _ _ _ _ _ _ (length_encVRm m 16 cnt) (by simp)

theorem evex128PslldRm (dst : VReg) (msk : Masking) (src : VReg) (cnt : RegMem VReg) :
    Statement (.evex128PslldRm dst msk src cnt) := fun m =>
  length_encEvex _ _ _ _ _ _ _ _ _ _ _ (length_encVRm m 16 cnt) (by simp)

theorem evex256PslldRm (dst : VReg) (msk : Masking) (src : VReg) (cnt : RegMem VReg) :
    Statement (.evex256PslldRm dst msk src cnt) := fun m =>
  length_encEvex _ _ _ _ _ _ _ _ _ _ _ (length_encVRm m 16 cnt) (by simp)

theorem evex512PslldRm (dst : VReg) (msk : Masking) (src : VReg) (cnt : RegMem VReg) :
    Statement (.evex512PslldRm dst msk src cnt) := fun m =>
  length_encEvex _ _ _ _ _ _ _ _ _ _ _ (length_encVRm m 16 cnt) (by simp)

theorem evex128PsllqRm (dst : VReg) (msk : Masking) (src : VReg) (cnt : RegMem VReg) :
    Statement (.evex128PsllqRm dst msk src cnt) := fun m =>
  length_encEvex _ _ _ _ _ _ _ _ _ _ _ (length_encVRm m 16 cnt) (by simp)

theorem evex256PsllqRm (dst : VReg) (msk : Masking) (src : VReg) (cnt : RegMem VReg) :
    Statement (.evex256PsllqRm dst msk src cnt) := fun m =>
  length_encEvex _ _ _ _ _ _ _ _ _ _ _ (length_encVRm m 16 cnt) (by simp)

theorem evex512PsllqRm (dst : VReg) (msk : Masking) (src : VReg) (cnt : RegMem VReg) :
    Statement (.evex512PsllqRm dst msk src cnt) := fun m =>
  length_encEvex _ _ _ _ _ _ _ _ _ _ _ (length_encVRm m 16 cnt) (by simp)

theorem evex128PsllwImm (dst : VReg) (msk : Masking) (src : RegMem VReg) (imm : Byte) :
    Statement (.evex128PsllwImm dst msk src imm) := fun m =>
  length_encEvex _ _ _ _ _ _ _ _ _ _ _ (length_encVRm m _ src) (by simp)

theorem evex256PsllwImm (dst : VReg) (msk : Masking) (src : RegMem VReg) (imm : Byte) :
    Statement (.evex256PsllwImm dst msk src imm) := fun m =>
  length_encEvex _ _ _ _ _ _ _ _ _ _ _ (length_encVRm m _ src) (by simp)

theorem evex512PsllwImm (dst : VReg) (msk : Masking) (src : RegMem VReg) (imm : Byte) :
    Statement (.evex512PsllwImm dst msk src imm) := fun m =>
  length_encEvex _ _ _ _ _ _ _ _ _ _ _ (length_encVRm m _ src) (by simp)

theorem evex128PslldImm (dst : VReg) (msk : Masking) (src : DataSrc) (imm : Byte) :
    Statement (.evex128PslldImm dst msk src imm) := fun m =>
  length_encEvexImm m _ _ dst msk src imm

theorem evex256PslldImm (dst : VReg) (msk : Masking) (src : DataSrc) (imm : Byte) :
    Statement (.evex256PslldImm dst msk src imm) := fun m =>
  length_encEvexImm m _ _ dst msk src imm

theorem evex512PslldImm (dst : VReg) (msk : Masking) (src : DataSrc) (imm : Byte) :
    Statement (.evex512PslldImm dst msk src imm) := fun m =>
  length_encEvexImm m _ _ dst msk src imm

theorem evex128PsllqImm (dst : VReg) (msk : Masking) (src : DataSrc) (imm : Byte) :
    Statement (.evex128PsllqImm dst msk src imm) := fun m =>
  length_encEvexImm m _ _ dst msk src imm

theorem evex256PsllqImm (dst : VReg) (msk : Masking) (src : DataSrc) (imm : Byte) :
    Statement (.evex256PsllqImm dst msk src imm) := fun m =>
  length_encEvexImm m _ _ dst msk src imm

theorem evex512PsllqImm (dst : VReg) (msk : Masking) (src : DataSrc) (imm : Byte) :
    Statement (.evex512PsllqImm dst msk src imm) := fun m =>
  length_encEvexImm m _ _ dst msk src imm

end Sys2Proof.Laws.EncodedLength
end

