-- ==== Sys2Proof/Laws/Vector.lean ====
section
/-! SUPPORT. What the forms of one class can do: when they complete, with which next state, and how they fault. -/

namespace Sys2Proof.Machine

/-! ## The checks before the operands -/

theorem State.formFault_eq_none_iff (s : State) (f : Form) : s.formFault f = none ↔ s.ready f = true := by
  unfold State.formFault State.ready
  cases s.avail f <;> cases s.deviceReady <;> cases isMmx f <;> cases s.x87.pending <;> simp

/-- #UD, then #NM, then #MF (60_exceptions.md R229). -/
theorem State.formFault_cases {s : State} {f : Form} {x : Fault} (h : s.formFault f = some x) :
    (x = .ud s.pc ∧ s.avail f = false) ∨ (x = .nm s.pc ∧ s.avail f = true ∧ s.deviceReady = false) ∨
    (x = .mf s.pc ∧ s.avail f = true ∧ s.deviceReady = true ∧ isMmx f = true ∧ s.x87.pending = true) := by
  unfold State.formFault at h
  revert h
  cases s.avail f <;> cases s.deviceReady <;> cases isMmx f <;> cases s.x87.pending <;> simp [State.raise, eq_comm]

/-! ## withOperand -/

/-- An instruction completes exactly when its form is ready and its operand is read. -/
theorem State.withOperand_next_iff {α : Type} (s : State) (f : Form) (operand : Except Fault α) (body : α → State)
    (t : State) :
    s.withOperand f operand body = .next t ↔ s.ready f = true ∧ ∃ a, operand = .ok a ∧ t = body a := by
  rw [← State.formFault_eq_none_iff]
  unfold State.withOperand
  cases s.formFault f with
  | some x => simp
  | none => cases operand <;> simp [eq_comm]

/-- An instruction faults exactly when its form is not ready, or its operand is not read. -/
theorem State.withOperand_fault_iff {α : Type} (s : State) (f : Form) (operand : Except Fault α) (body : α → State)
    (x : Fault) :
    s.withOperand f operand body = .fault x ↔
      s.formFault f = some x ∨ (s.ready f = true ∧ operand = .error x) := by
  rw [← State.formFault_eq_none_iff]
  unfold State.withOperand
  cases s.formFault f with
  | some y => simp
  | none => cases operand <;> simp

theorem State.withOperand_ne_refused {α : Type} (s : State) (f : Form) (operand : Except Fault α) (body : α → State)
    (r : Refusal) : s.withOperand f operand body ≠ .refused r := by
  unfold State.withOperand
  cases s.formFault f with
  | some x => simp
  | none => cases operand <;> simp

/-! ## The writes -/

theorem State.keepsRest_advance {s t : State} (h : s.keepsRest t) : s.keepsRest t.advance := h

/-- MMX: what is kept (10_state.md R31, R44). -/
theorem State.keepsBut_writeMmx (s : State) (dst : MmReg) (a : Qword) : s.keepsBut (s.writeMmx dst a) (.mm dst) :=
  ⟨⟨fun _ => rfl, fun _ => rfl, rfl, rfl, rfl, rfl, rfl, fun _ => rfl, rfl⟩, fun _ => rfl,
    fun _ h => State.mmr_setMM_other s a h, rfl⟩

theorem State.keepsBut_setV (s : State) (dst : VReg) (a : Vec) : s.keepsBut ((s.setV dst a).advance) (.v dst) :=
  ⟨⟨fun _ => rfl, fun _ => rfl, rfl, rfl, rfl, rfl, rfl, fun _ => rfl, rfl⟩, fun _ => rfl,
    fun _ h => State.v_setV_other s a h, rfl⟩

/-- SSE128: what is kept. -/
theorem State.keepsBut_writeSse (s : State) (dst : VReg) (a : BitVec 128) : s.keepsBut (s.writeSse dst a) (.v dst) :=
  State.keepsBut_setV s dst _

/-- VEX and EVEX: what is kept. -/
theorem State.keepsBut_writeZeroUpper (s : State) {W : Nat} (dst : VReg) (a : BitVec W) :
    s.keepsBut (s.writeZeroUpper dst a) (.v dst) :=
  State.keepsBut_setV s dst _

theorem State.keepsBut_writeMasked (s : State) (VL N : Nat) (dst : VReg) (k : Masking) (tmp : BitVec VL) :
    s.keepsBut (s.writeMasked VL N dst k tmp) (.v dst) :=
  State.keepsBut_setV s dst _

@[simp] theorem State.pc_writeMmx (s : State) (dst : MmReg) (a : Qword) : (s.writeMmx dst a).pc = s.nextPc := rfl
@[simp] theorem State.pc_writeSse (s : State) (dst : VReg) (a : BitVec 128) : (s.writeSse dst a).pc = s.nextPc := rfl
@[simp] theorem State.pc_writeZeroUpper (s : State) {W : Nat} (dst : VReg) (a : BitVec W) :
    (s.writeZeroUpper dst a).pc = s.nextPc := rfl
@[simp] theorem State.pc_writeMasked (s : State) (VL N : Nat) (dst : VReg) (k : Masking) (tmp : BitVec VL) :
    (s.writeMasked VL N dst k tmp).pc = s.nextPc := rfl
@[simp] theorem State.mem_writeMmx (s : State) (dst : MmReg) (a : Qword) : (s.writeMmx dst a).mem = s.mem := rfl
@[simp] theorem State.mem_writeSse (s : State) (dst : VReg) (a : BitVec 128) : (s.writeSse dst a).mem = s.mem := rfl
@[simp] theorem State.mem_writeMasked (s : State) (VL N : Nat) (dst : VReg) (k : Masking) (tmp : BitVec VL) :
    (s.writeMasked VL N dst k tmp).mem = s.mem := rfl
@[simp] theorem State.mem_writeZeroUpper (s : State) {W : Nat} (dst : VReg) (a : BitVec W) :
    (s.writeZeroUpper dst a).mem = s.mem := rfl

@[simp] theorem State.mmr_writeMmx (s : State) (dst : MmReg) (a : Qword) : (s.writeMmx dst a).mmr dst = a :=
  State.mmr_setMM_same s dst a

theorem State.v_writeSse (s : State) (dst : VReg) (a : BitVec 128) :
    (s.writeSse dst a).v dst = ((s.v dst).extractLsb' 128 384 ++ a : BitVec (384 + 128)) :=
  State.v_setV_same s dst _

@[simp] theorem State.v_writeZeroUpper (s : State) {W : Nat} (dst : VReg) (a : BitVec W) :
    (s.writeZeroUpper dst a).v dst = a.setWidth 512 :=
  State.v_setV_same s dst _

/-- The low 128 bits of an SSE128 destination are the result. -/
theorem State.natLane_writeSse (s : State) (dst : VReg) (a : BitVec 128) {N j : Nat} (h : (j + 1) * N ≤ 128) :
    natLane N ((s.writeSse dst a).v dst) j = natLane N a j := by
  have e : (((s.v dst).extractLsb' 128 384 ++ a : BitVec (384 + 128))).setWidth 128 = a :=
    BitVec.setWidth_append_eq_right
  rw [State.v_writeSse, ← natLane_setWidth (W := 128) _ h, e]

/-- The bits above 127 of an SSE128 destination are kept (40_shift_core.md R141). -/
theorem State.upper_writeSse (s : State) (dst : VReg) (a : BitVec 128) :
    ((s.writeSse dst a).v dst).toNat / 2 ^ 128 = (s.v dst).toNat / 2 ^ 128 := by
  rw [State.v_writeSse, ← Nat.shiftRight_eq_div_pow, ← Nat.shiftRight_eq_div_pow, BitVec.toNat_append,
    BitVec.extractLsb'_toNat, Nat.shiftRight_or_distrib, Nat.shiftLeft_shiftRight,
    Nat.shiftRight_eq_div_pow a.toNat, Nat.div_eq_of_lt a.isLt, Nat.or_zero]
  apply Nat.mod_eq_of_lt
  rw [Nat.shiftRight_eq_div_pow, Nat.div_lt_iff_lt_mul (Nat.two_pow_pos 128), ← Nat.pow_add]
  exact (s.v dst).isLt

/-- The low W bits of a VEX or EVEX destination are the result. -/
theorem State.natLane_writeZeroUpper (s : State) {W : Nat} (hW : W ≤ 512) (dst : VReg) (a : BitVec W) {N j : Nat}
    (h : (j + 1) * N ≤ W) : natLane N ((s.writeZeroUpper dst a).v dst) j = natLane N a j := by
  rw [State.v_writeZeroUpper, natLane_setWidth a (le_trans h hW)]

/-- The bits above W of a VEX or EVEX destination are 0 (40_shift_core.md R142). -/
theorem State.upper_writeZeroUpper (s : State) {W : Nat} (hW : W ≤ 512) (dst : VReg) (a : BitVec W) :
    ((s.writeZeroUpper dst a).v dst).toNat < 2 ^ W := by
  rw [State.v_writeZeroUpper, BitVec.toNat_setWidth_of_le hW]
  exact a.isLt

/-- Each element of an EVEX destination is what write-masking makes of the unmasked result (40_shift_core.md R140). -/
theorem State.natLane_writeMasked (s : State) {VL N : Nat} (hVL : VL ≤ 512) (dst : VReg) (k : Masking) (tmp : BitVec VL)
    {j : Nat} (hj : j < VL / N) :
    natLane N ((s.writeMasked VL N dst k tmp).v dst) j = s.maskedLane N dst k j (natLane N tmp j) := by
  have hle : (j + 1) * N ≤ VL := le_trans (Nat.mul_le_mul_right N hj) (div_mul_le VL N)
  rw [State.writeMasked, State.natLane_writeZeroUpper s hVL dst _ hle, ← toNat_lane, lane_maskWrite _ _ _ _ _ hj,
    State.maskedLane, State.active]
  split
  · exact toNat_lane N tmp j
  · split
    · rfl
    · rw [toNat_lane, natLane_setWidth _ hle]

theorem State.upper_writeMasked (s : State) {VL N : Nat} (hVL : VL ≤ 512) (dst : VReg) (k : Masking) (tmp : BitVec VL) :
    ((s.writeMasked VL N dst k tmp).v dst).toNat < 2 ^ VL :=
  State.upper_writeZeroUpper s hVL dst _

/-! ## The classes -/

theorem mmxShift_next_iff (N : Nat) (f : Form) (dst : MmReg) (count : State → Except Fault Nat) (s t : State) :
    mmxShift N f dst count s = .next t ↔
      s.ready f = true ∧ ∃ c, count s = .ok c ∧ t = s.writeMmx dst (psll 64 N (s.mmr dst) c) :=
  State.withOperand_next_iff ..

theorem sseShift_next_iff (N : Nat) (f : Form) (dst : VReg) (count : State → Except Fault Nat) (s t : State) :
    sseShift N f dst count s = .next t ↔
      s.ready f = true ∧ ∃ c, count s = .ok c ∧ t = s.writeSse dst (psll 128 N ((s.v dst).setWidth 128) c) :=
  State.withOperand_next_iff ..

theorem vexShift_next_iff (W N : Nat) (f : Form) (dst src : VReg) (count : State → Except Fault Nat) (s t : State) :
    vexShift W N f dst src count s = .next t ↔
      s.ready f = true ∧ ∃ c, count s = .ok c ∧ t = s.writeZeroUpper dst (psll W N ((s.v src).setWidth W) c) :=
  State.withOperand_next_iff ..

theorem evexShift_next_iff (VL N : Nat) (f : Form) (dst : VReg) (k : Masking) (src : VReg) (cnt : RegMem VReg)
    (s t : State) :
    evexShift VL N f dst k src cnt s = .next t ↔
      s.ready f = true ∧ ∃ c, s.xmmCount .any cnt = .ok c ∧
        t = s.writeMasked VL N dst k (psll VL N ((s.v src).setWidth VL) c) :=
  State.withOperand_next_iff ..

theorem evexImmShift_next_iff (VL N : Nat) (f : Form) (dst : VReg) (k : Masking)
    (source : State → Except Fault (BitVec VL)) (imm : Byte) (s t : State) :
    evexImmShift VL N f dst k source imm s = .next t ↔
      s.ready f = true ∧ ∃ v, source s = .ok v ∧ t = s.writeMasked VL N dst k (psll VL N v (immCount imm)) :=
  State.withOperand_next_iff ..

theorem mmxShift_fault_iff (N : Nat) (f : Form) (dst : MmReg) (count : State → Except Fault Nat) (s : State) (x : Fault) :
    mmxShift N f dst count s = .fault x ↔ s.formFault f = some x ∨ (s.ready f = true ∧ count s = .error x) :=
  State.withOperand_fault_iff ..

theorem sseShift_fault_iff (N : Nat) (f : Form) (dst : VReg) (count : State → Except Fault Nat) (s : State) (x : Fault) :
    sseShift N f dst count s = .fault x ↔ s.formFault f = some x ∨ (s.ready f = true ∧ count s = .error x) :=
  State.withOperand_fault_iff ..

theorem vexShift_fault_iff (W N : Nat) (f : Form) (dst src : VReg) (count : State → Except Fault Nat) (s : State)
    (x : Fault) :
    vexShift W N f dst src count s = .fault x ↔ s.formFault f = some x ∨ (s.ready f = true ∧ count s = .error x) :=
  State.withOperand_fault_iff ..

theorem evexShift_fault_iff (VL N : Nat) (f : Form) (dst : VReg) (k : Masking) (src : VReg) (cnt : RegMem VReg)
    (s : State) (x : Fault) :
    evexShift VL N f dst k src cnt s = .fault x ↔
      s.formFault f = some x ∨ (s.ready f = true ∧ s.xmmCount .any cnt = .error x) :=
  State.withOperand_fault_iff ..

theorem evexImmShift_fault_iff (VL N : Nat) (f : Form) (dst : VReg) (k : Masking)
    (source : State → Except Fault (BitVec VL)) (imm : Byte) (s : State) (x : Fault) :
    evexImmShift VL N f dst k source imm s = .fault x ↔
      s.formFault f = some x ∨ (s.ready f = true ∧ source s = .error x) :=
  State.withOperand_fault_iff ..

end Sys2Proof.Machine
end

