-- ==== Sys2Proof/Tests/Slice0.lean ====
section
/-! SUPPORT. The model's own tests: the well-formedness smoke tests, one word of every constructor decoded, rejected words,
the results of 95_test_vectors.md (one step each), faults, reset and launch; and a witness for the hypotheses of every
obligation that has some. The expected values are the spec's (95_test_vectors.md) unless a comment says otherwise. -/

namespace Sys2Proof.Tests

-- One theorem at a time: hundreds of small kernel evaluations at once would ask for as many threads.
set_option Elab.async false

open Sys2Proof Sys2Proof.Machine

/-! ## Well-formedness: an ill-formed term for each check -/

/-- A legacy SSE or VEX form names 16 registers in 64-bit mode, 8 outside it (10_state.md R23). -/
theorem test_wf_sse_register : (Instr.ssePsllwImm 15 0#8).wf .mode64 = true ∧ (Instr.ssePsllwImm 16 0#8).wf .mode64 = false ∧
    (Instr.ssePsllwImm 8 0#8).wf .compat32 = false := by decide

theorem test_wf_sse_count_register : (Instr.ssePslldRm 0 (.reg 16)).wf .mode64 = false := by decide

theorem test_wf_vex_registers : (Instr.vex128PsllqImm 16 0 0#8).wf .mode64 = false ∧
    (Instr.vex256PsllqRm 0 16 (.reg 0)).wf .mode64 = false ∧ (Instr.vex256PsllqRm 0 0 (.reg 16)).wf .mode64 = false := by
  decide

/-- An EVEX form names 32 registers in 64-bit mode, 8 outside it (10_state.md R23). -/
theorem test_wf_evex_registers : (Instr.evex512PsllwRm 31 ⟨0, false⟩ 31 (.reg 31)).wf .mode64 = true ∧
    (Instr.evex512PsllwRm 8 ⟨0, false⟩ 0 (.reg 0)).wf .prot32 = false ∧
    (Instr.evex512PsllwRm 0 ⟨0, false⟩ 8 (.reg 0)).wf .prot32 = false ∧
    (Instr.evex512PsllwRm 0 ⟨0, false⟩ 0 (.reg 8)).wf .prot32 = false ∧
    (Instr.evex512PslldImm 0 ⟨0, false⟩ (.reg 8) 0#8).wf .prot32 = false := by decide

/-- A VEX or EVEX form outside real and virtual-8086 mode only (30_encoding.md R112, R117). -/
theorem test_wf_vex_needs_protected_mode : (Instr.vex128PsllqImm 0 0 0#8).wf .real = false ∧
    (Instr.evex128PsllqImm 0 ⟨0, false⟩ (.reg 0) 0#8).wf .v86 = false ∧
    (Instr.vex128PsllqImm 0 0 0#8).wf .mode16 = true ∧ (Instr.ssePsllqImm 0 0#8).wf .v86 = true := by decide

/-- z = 1 with aaa = 000 (30_encoding.md R112). -/
theorem test_wf_zeroing_needs_a_mask : (Instr.evex128PsllqImm 0 ⟨0, true⟩ (.reg 0) 0#8).wf .mode64 = false ∧
    (Instr.evex128PsllqImm 0 ⟨1, true⟩ (.reg 0) 0#8).wf .mode64 = true := by decide

/-- A memory count with effective address `e`. -/
def countAt (e : EffAddr) : Instr := .mmxPsllwRm 0 (.mem ⟨.ds, e⟩)

theorem test_wf_a16_not_in_64_bit_mode : (countAt (.a16 .bx 0#16)).wf .mode64 = false ∧
    (countAt (.a16 .bx 0#16)).wf .real = true := by decide

theorem test_wf_64_bit_address_in_64_bit_mode_only : (countAt (.wide true (.gpr 0) none 0 0#32)).wf .compat32 = false := by
  decide

theorem test_wf_rip_in_64_bit_mode_only : (countAt (.wide false .rip none 0 0#32)).wf .compat32 = false ∧
    (countAt (.wide true .rip none 0 0#32)).wf .mode64 = true := by decide

theorem test_wf_rip_has_no_index : (countAt (.wide true .rip (some 0) 0 0#32)).wf .mode64 = false := by decide

theorem test_wf_index_is_not_rsp : (countAt (.wide true (.gpr 0) (some 4) 0 0#32)).wf .mode64 = false ∧
    (countAt (.wide true (.gpr 4) (some 12) 0 0#32)).wf .mode64 = true := by decide

theorem test_wf_no_scale_without_index : (countAt (.wide true (.gpr 0) none 1 0#32)).wf .mode64 = false := by decide

theorem test_wf_general_registers : (countAt (.wide false (.gpr 8) none 0 0#32)).wf .compat32 = false ∧
    (countAt (.wide false (.gpr 0) (some 8) 0 0#32)).wf .compat32 = false := by decide

/-! ## Decoding: bytes written out from the spec's formats (95_test_vectors.md section 9.1), one for every constructor -/

/-- `[base + disp]` in 64-bit mode through DS. -/
def at64 (base : GReg) (disp : BitVec 32) : MemOp := ⟨.ds, .wide true (.gpr base) none 0 disp⟩

theorem test_decode_mmxPsllwRm : decode .mode64 [0x0F, 0xF1, 0xC1] = .ok (.mmxPsllwRm 0 (.reg 1), 3) := by rfl
theorem test_decode_mmxPsllwImm : decode .mode64 [0x0F, 0x71, 0xF3, 0x04] = .ok (.mmxPsllwImm 3 4, 4) := by rfl
theorem test_decode_mmxPslldRm : decode .mode64 [0x0F, 0xF2, 0x2B] = .ok (.mmxPslldRm 5 (.mem (at64 3 0)), 3) := by rfl
theorem test_decode_mmxPslldImm : decode .mode64 [0x0F, 0x72, 0xF0, 0x08] = .ok (.mmxPslldImm 0 8, 4) := by rfl
theorem test_decode_mmxPsllqRm :
    decode .mode64 [0x0F, 0xF3, 0x7E, 0x10] = .ok (.mmxPsllqRm 7 (.mem (at64 6 16)), 4) := by rfl
theorem test_decode_mmxPsllqImm : decode .mode64 [0x0F, 0x73, 0xF7, 0x3F] = .ok (.mmxPsllqImm 7 63, 4) := by rfl
theorem test_decode_ssePsllwRm : decode .mode64 [0x66, 0x0F, 0xF1, 0xC1] = .ok (.ssePsllwRm 0 (.reg 1), 4) := by rfl
theorem test_decode_ssePsllwImm : decode .mode64 [0x66, 0x0F, 0x71, 0xF0, 0x04] = .ok (.ssePsllwImm 0 4, 5) := by rfl
theorem test_decode_ssePslldRm : decode .mode64 [0x66, 0x0F, 0xF2, 0xC1] = .ok (.ssePslldRm 0 (.reg 1), 4) := by rfl
theorem test_decode_ssePslldImm : decode .mode64 [0x66, 0x41, 0x0F, 0x72, 0xF0, 0x01] = .ok (.ssePslldImm 8 1, 6) := by rfl
theorem test_decode_ssePsllqRm :
    decode .mode64 [0x66, 0x45, 0x0F, 0xF3, 0x21] = .ok (.ssePsllqRm 12 (.mem (at64 9 0)), 5) := by rfl
theorem test_decode_ssePsllqImm : decode .mode64 [0x66, 0x41, 0x0F, 0x73, 0xF7, 0x20] = .ok (.ssePsllqImm 15 32, 6) := by rfl
theorem test_decode_vex128PsllwRm : decode .mode64 [0xC5, 0xE9, 0xF1, 0xCB] = .ok (.vex128PsllwRm 1 2 (.reg 3), 4) := by rfl
theorem test_decode_vex128PsllwImm : decode .mode64 [0xC5, 0xF1, 0x71, 0xF2, 0x04] = .ok (.vex128PsllwImm 1 2 4, 5) := by rfl
theorem test_decode_vex128PslldRm :
    decode .mode64 [0xC5, 0xE9, 0xF2, 0x0B] = .ok (.vex128PslldRm 1 2 (.mem (at64 3 0)), 4) := by rfl
theorem test_decode_vex128PslldImm :
    decode .mode64 [0xC4, 0xC1, 0x79, 0x72, 0xF0, 0x01] = .ok (.vex128PslldImm 0 8 1, 6) := by rfl
theorem test_decode_vex128PsllqRm :
    decode .mode64 [0xC4, 0x41, 0x29, 0xF3, 0xCB] = .ok (.vex128PsllqRm 9 10 (.reg 11), 5) := by rfl
theorem test_decode_vex128PsllqImm : decode .mode64 [0xC5, 0xF1, 0x73, 0xF2, 0x08] = .ok (.vex128PsllqImm 1 2 8, 5) := by rfl
theorem test_decode_vex256PsllwRm : decode .mode64 [0xC5, 0xED, 0xF1, 0xCB] = .ok (.vex256PsllwRm 1 2 (.reg 3), 4) := by rfl
theorem test_decode_vex256PsllwImm : decode .mode64 [0xC5, 0xF5, 0x71, 0xF2, 0x08] = .ok (.vex256PsllwImm 1 2 8, 5) := by rfl
theorem test_decode_vex256PslldRm :
    decode .mode64 [0xC5, 0xED, 0xF2, 0x08] = .ok (.vex256PslldRm 1 2 (.mem (at64 0 0)), 4) := by rfl
theorem test_decode_vex256PslldImm :
    decode .mode64 [0xC4, 0xE1, 0xF5, 0x72, 0xF2, 0x05] = .ok (.vex256PslldImm 1 2 5, 6) := by rfl
theorem test_decode_vex256PsllqRm : decode .mode64 [0xC5, 0xED, 0xF3, 0xCB] = .ok (.vex256PsllqRm 1 2 (.reg 3), 4) := by rfl
theorem test_decode_vex256PsllqImm :
    decode .mode64 [0xC4, 0xC1, 0x05, 0x73, 0xF6, 0x01] = .ok (.vex256PsllqImm 15 14 1, 6) := by rfl
theorem test_decode_evex128PsllwRm :
    decode .mode64 [0x62, 0xF1, 0x4D, 0x0B, 0xF1, 0xEF] = .ok (.evex128PsllwRm 5 ⟨3, false⟩ 6 (.reg 7), 6) := by rfl
theorem test_decode_evex256PsllwRm :
    decode .mode64 [0x62, 0xF1, 0x6D, 0xA9, 0xF1, 0xCB] = .ok (.evex256PsllwRm 1 ⟨1, true⟩ 2 (.reg 3), 6) := by rfl
theorem test_decode_evex512PsllwRm :
    decode .mode64 [0x62, 0xA1, 0x6D, 0x40, 0xF1, 0xCB] = .ok (.evex512PsllwRm 17 ⟨0, false⟩ 18 (.reg 19), 6) := by rfl
theorem test_decode_evex128PslldRm :
    decode .mode64 [0x62, 0xF1, 0x6D, 0x08, 0xF2, 0xCB] = .ok (.evex128PslldRm 1 ⟨0, false⟩ 2 (.reg 3), 6) := by rfl
theorem test_decode_evex256PslldRm : decode .mode64 [0x62, 0xF1, 0x6D, 0x28, 0xF2, 0x48, 0x01] =
    .ok (.evex256PslldRm 1 ⟨0, false⟩ 2 (.mem (at64 0 16)), 7) := by rfl
theorem test_decode_evex512PslldRm :
    decode .mode64 [0x62, 0xF1, 0x6D, 0x49, 0xF2, 0xCB] = .ok (.evex512PslldRm 1 ⟨1, false⟩ 2 (.reg 3), 6) := by rfl
theorem test_decode_evex128PsllqRm :
    decode .mode64 [0x62, 0xF1, 0xED, 0x08, 0xF3, 0xCB] = .ok (.evex128PsllqRm 1 ⟨0, false⟩ 2 (.reg 3), 6) := by rfl
theorem test_decode_evex256PsllqRm :
    decode .mode64 [0x62, 0xF1, 0xED, 0xAF, 0xF3, 0xCB] = .ok (.evex256PsllqRm 1 ⟨7, true⟩ 2 (.reg 3), 6) := by rfl
theorem test_decode_evex512PsllqRm :
    decode .mode64 [0x62, 0x01, 0x8D, 0x40, 0xF3, 0xFD] = .ok (.evex512PsllqRm 31 ⟨0, false⟩ 30 (.reg 29), 6) := by rfl
theorem test_decode_evex128PsllwImm :
    decode .mode64 [0x62, 0xF1, 0xF5, 0x08, 0x71, 0xF3, 0x04] = .ok (.evex128PsllwImm 1 ⟨0, false⟩ (.reg 3) 4, 7) := by rfl
theorem test_decode_evex256PsllwImm : decode .mode64 [0x62, 0xF1, 0x75, 0x2A, 0x71, 0x30, 0x04] =
    .ok (.evex256PsllwImm 1 ⟨2, false⟩ (.mem (at64 0 0)) 4, 7) := by rfl
theorem test_decode_evex512PsllwImm : decode .mode64 [0x62, 0xB1, 0x5D, 0x40, 0x71, 0xF5, 0x0F] =
    .ok (.evex512PsllwImm 20 ⟨0, false⟩ (.reg 21) 15, 7) := by rfl
theorem test_decode_evex128PslldImm : decode .mode64 [0x62, 0xF1, 0x75, 0x18, 0x72, 0x30, 0x03] =
    .ok (.evex128PslldImm 1 ⟨0, false⟩ (.bcst (at64 0 0)) 3, 7) := by rfl
theorem test_decode_evex256PslldImm : decode .mode64 [0x62, 0xF1, 0x75, 0xAA, 0x72, 0xF3, 0x1F] =
    .ok (.evex256PslldImm 1 ⟨2, true⟩ (.reg 3) 31, 7) := by rfl
theorem test_decode_evex512PslldImm : decode .mode64 [0x62, 0xF1, 0x6D, 0x59, 0x72, 0x30, 0x03] =
    .ok (.evex512PslldImm 2 ⟨1, false⟩ (.bcst (at64 0 0)) 3, 7) := by rfl
theorem test_decode_evex128PsllqImm : decode .mode64 [0x62, 0xF1, 0xF5, 0x8A, 0x73, 0xF3, 0x07] =
    .ok (.evex128PsllqImm 1 ⟨2, true⟩ (.reg 3) 7, 7) := by rfl
theorem test_decode_evex256PsllqImm : decode .mode64 [0x62, 0xF1, 0xF5, 0x3A, 0x73, 0x30, 0x04] =
    .ok (.evex256PsllqImm 1 ⟨2, false⟩ (.bcst (at64 0 0)) 4, 7) := by rfl
theorem test_decode_evex512PsllqImm : decode .mode64 [0x62, 0xF1, 0xF5, 0x48, 0x73, 0x70, 0x01, 0x01] =
    .ok (.evex512PsllqImm 1 ⟨0, false⟩ (.mem (at64 0 64)) 1, 8) := by rfl

/-- The two-byte and the three-byte VEX spelling of one instruction; the encoder writes the shorter. -/
theorem test_decode_two_vex_spellings :
    decode .mode64 [0xC5, 0xF5, 0x72, 0xF2, 0x05] = .ok (.vex256PslldImm 1 2 5, 5) ∧
    decode .mode64 [0xC4, 0xE1, 0x75, 0x72, 0xF2, 0x05] = .ok (.vex256PslldImm 1 2 5, 6) ∧
    encode .mode64 (.vex256PslldImm 1 2 5) = [0xC5, 0xF5, 0x72, 0xF2, 0x05] := by decide

/-- SIB, a scaled index, a segment override, RIP, and 16-bit and 32-bit addressing (30_encoding.md R95 to R97; the bytes
are written out from those rules). -/
theorem test_decode_addresses :
    decode .mode64 [0x64, 0x0F, 0xF1, 0x44, 0x8B, 0xFC] =
      .ok (.mmxPsllwRm 0 (.mem ⟨.fs, .wide true (.gpr 3) (some 1) 2 0xFFFFFFFC⟩), 6) ∧
    decode .mode64 [0x0F, 0xF1, 0x05, 0x10, 0x00, 0x00, 0x00] =
      .ok (.mmxPsllwRm 0 (.mem ⟨.ds, .wide true .rip none 0 16⟩), 7) ∧
    decode .mode64 [0x0F, 0xF1, 0x04, 0x24] = .ok (.mmxPsllwRm 0 (.mem ⟨.ss, .wide true (.gpr 4) none 0 0⟩), 4) ∧
    decode .compat32 [0x0F, 0xF1, 0x05, 0x10, 0x00, 0x00, 0x00] =
      .ok (.mmxPsllwRm 0 (.mem ⟨.ds, .wide false .none none 0 16⟩), 7) ∧
    decode .real [0x0F, 0xF1, 0x42, 0xFF] = .ok (.mmxPsllwRm 0 (.mem ⟨.ss, .a16 .bpsi 0xFFFF⟩), 4) := by
  refine ⟨?_, ?_, ?_, ?_, ?_⟩ <;> rfl

/-! ## Bytes that are no instruction of the family (95_test_vectors.md section 9.2) -/

theorem test_reject_not_in_family :
    ∀ bs ∈ [[0x0F#8, 0x71#8, 0xD0#8, 0x04#8], [0x66#8, 0x0F#8, 0x73#8, 0xF8#8, 0x01#8],
        [0x66#8, 0x0F#8, 0x72#8, 0xE0#8, 0x01#8], [0xC5#8, 0xE8#8, 0xF1#8, 0xCB#8],
        [0xC4#8, 0xE2#8, 0x69#8, 0xF1#8, 0xCB#8], [0x62#8, 0xF1#8, 0x75#8, 0x08#8, 0x72#8, 0xC3#8, 0x01#8], [0x90#8]],
      decode .mode64 bs = .error .notInFamily := by decide

theorem test_reject_rep_prefix :
    ∀ bs ∈ [[0xF3#8, 0x0F#8, 0xF1#8, 0xC1#8], [0xF2#8, 0x66#8, 0x0F#8, 0x72#8, 0xF0#8, 0x01#8]],
      decode .mode64 bs = .error .repPrefix := by decide

theorem test_reject_ud_legacy_and_vex :
    ∀ bs ∈ [[0xF0#8, 0x0F#8, 0xF1#8, 0x00#8], [0x0F#8, 0x71#8, 0x30#8, 0x04#8],
        [0x66#8, 0x0F#8, 0x73#8, 0x70#8, 0x10#8, 0x01#8], [0xC5#8, 0xF1#8, 0x72#8, 0x30#8, 0x05#8],
        [0x66#8, 0xC5#8, 0xE9#8, 0xF1#8, 0xCB#8], [0x48#8, 0xC5#8, 0xE9#8, 0xF1#8, 0xCB#8]],
      decode .mode64 bs = .error .ud := by decide

theorem test_reject_ud_evex :
    ∀ bs ∈ [[0x62#8, 0xF1#8, 0x6D#8, 0x68#8, 0xF1#8, 0xCB#8], [0x62#8, 0xF1#8, 0x6D#8, 0x18#8, 0xF1#8, 0xCB#8],
        [0x62#8, 0xF1#8, 0x75#8, 0x18#8, 0x71#8, 0xF3#8, 0x04#8], [0x62#8, 0xF1#8, 0x75#8, 0x18#8, 0x72#8, 0xF3#8, 0x01#8],
        [0x62#8, 0xF1#8, 0x6D#8, 0x88#8, 0xF1#8, 0xCB#8], [0x62#8, 0xF1#8, 0xF5#8, 0x08#8, 0x72#8, 0xF3#8, 0x01#8],
        [0x62#8, 0xF1#8, 0x75#8, 0x08#8, 0x73#8, 0xF3#8, 0x01#8], [0x62#8, 0xF1#8, 0xED#8, 0x08#8, 0xF2#8, 0xCB#8],
        [0x62#8, 0xF9#8, 0x6D#8, 0x08#8, 0xF1#8, 0xCB#8], [0x62#8, 0xF1#8, 0x69#8, 0x08#8, 0xF1#8, 0xCB#8]],
      decode .mode64 bs = .error .ud := by decide

/-- VEX and EVEX forms in real and virtual-8086 mode (30_encoding.md R112, R117), ahead of the length (R122 step 7): the
last is 16 bytes long. -/
theorem test_reject_ud_real_and_v86 :
    ∀ m ∈ [Mode.real, .v86], ∀ bs ∈ [[0xC5#8, 0xE9#8, 0xF1#8, 0xCB#8], [0x62#8, 0xF1#8, 0x6D#8, 0x08#8, 0xF2#8, 0xCB#8],
        [0xC4#8, 0xC1#8, 0x79#8, 0x72#8, 0xF0#8, 0x01#8], List.replicate 12 0x2E#8 ++ [0xC5#8, 0xE9#8, 0xF1#8, 0xCB#8]],
      decode m bs = .error .ud := by decide

/-- A register above 7 outside 64-bit mode: by VEX.B, by VEX.vvvv after C4, by EVEX.vvvv (93_implementation_defined.md U8;
92_eei_decisions.md D3). The extension bits of a base are no such thing (30_encoding.md R95). -/
theorem test_reject_high_register :
    (∀ m ∈ [Mode.compat32, .prot32, .mode16], ∀ bs ∈ [[0xC4#8, 0xC1#8, 0x79#8, 0x72#8, 0xF0#8, 0x01#8],
        [0xC4#8, 0xE1#8, 0x29#8, 0xF3#8, 0xCB#8], [0x62#8, 0xF1#8, 0x2D#8, 0x08#8, 0xF2#8, 0xCB#8]],
      decode m bs = .error .highRegister) ∧
    decode .compat32 [0xC4#8, 0xC1#8, 0x69#8, 0xF1#8, 0x08#8] =
      .ok (.vex128PsllwRm 1 2 (.mem ⟨.ds, .wide false (.gpr 0) none 0 0#32⟩), 5) := by decide

/-! ## Results of one step (95_test_vectors.md sections 3 to 7) -/

/-- m of 95_test_vectors.md. -/
def m64 : Qword := 0x80017FFF00FF1234#64

/-- Z of 95_test_vectors.md. -/
def z512 : Vec :=
  0x1111111122222222333333334444444455555555666666667777777788888888FEDCBA98765432100F0F0F0F0F0F0F0F0123456789ABCDEF8000000000000001#512

/-- O512 of 95_test_vectors.md. -/
def o512 : Vec :=
  0xEEEEEEEEEEEEEEEEFFFFFFFFFFFFFFFF99999999999999998888888888888888CCCCCCCCCCCCCCCCDDDDDDDDDDDDDDDDAAAAAAAAAAAAAAAABBBBBBBBBBBBBBBB#512

/-- The 64 bytes of Z, in ascending address order. -/
def zBytes : List Byte := (List.range 64).map fun i => z512.extractLsb' (8 * i) 8

/-- 64-bit mode with every form enabled, pc = 1000H (70_reset_and_hazards.md R263). -/
def launched : State := { State.reset.launch with pc := 0x1000 }

/-- A machine about to run the bytes `bs`, with x[0] = `a`, the bytes `data` there, and some registers set. -/
def start (bs : List Byte) (a : Qword) (data : List Byte) (vs : List (VReg × Vec)) (ms ks : List (Fin 8 × Qword)) : State :=
  let s := { launched with
    mem := (Memory.writeList [] launched.pc bs).writeList a data
    x := launched.x.set 0 a
    k := ks.foldl (fun k p => k.set p.1.val p.2) launched.k }
  ms.foldl (fun s p => s.setMM p.1 p.2) (vs.foldl (fun s p => s.setV p.1 p.2) s)

/-- V[r] after a step that completed. -/
def vAfter (r : VReg) : Result → Option Vec
  | .next t => some (t.v r)
  | .fault _ | .refused _ => none

/-- MM[r] after a step that completed. -/
def mmAfter (r : MmReg) : Result → Option Qword
  | .next t => some (t.mmr r)
  | .fault _ | .refused _ => none

/-- 95_test_vectors.md, line 164. -/
theorem test_result_mmxPsllwRm :
    mmAfter 0 (step (start [0x0F#8, 0xF1#8, 0xC1#8] 0x2000#64 []
      [] [(0, m64), (1, 0xF#64)] [])) =
      some 0x8000800080000000#64 := by
  decide +kernel

/-- 95_test_vectors.md, line 168. -/
theorem test_result_mmxPsllwRm_memory :
    mmAfter 0 (step (start [0x0F#8, 0xF1#8, 0x00#8] 0x2000#64 [0x03#8, 0x00#8, 0x00#8, 0x00#8, 0x00#8, 0x00#8, 0x00#8, 0x80#8]
      [] [(0, m64)] [])) =
      some 0x0#64 := by
  decide +kernel

/-- 95_test_vectors.md, line 169. -/
theorem test_result_mmxPsllwImm :
    mmAfter 0 (step (start [0x0F#8, 0x71#8, 0xF0#8, 0x04#8] 0x2000#64 []
      [] [(0, m64)] [])) =
      some 0x10FFF00FF02340#64 := by
  decide +kernel

/-- 95_test_vectors.md, line 173. -/
theorem test_result_mmxPslldRm :
    mmAfter 0 (step (start [0x0F#8, 0xF2#8, 0xC1#8] 0x2000#64 []
      [] [(0, m64), (1, 0x1F#64)] [])) =
      some 0x8000000000000000#64 := by
  decide +kernel

/-- 95_test_vectors.md, line 175. -/
theorem test_result_mmxPslldImm :
    mmAfter 0 (step (start [0x0F#8, 0x72#8, 0xF0#8, 0x08#8] 0x2000#64 []
      [] [(0, m64)] [])) =
      some 0x17FFF00FF123400#64 := by
  decide +kernel

/-- 95_test_vectors.md, line 191. -/
theorem test_result_mmxPsllqRm_same :
    mmAfter 0 (step (start [0x0F#8, 0xF3#8, 0xC0#8] 0x2000#64 []
      [] [(0, 0x3F#64)] [])) =
      some 0x8000000000000000#64 := by
  decide +kernel

/-- 95_test_vectors.md, line 182. -/
theorem test_result_mmxPsllqImm :
    mmAfter 7 (step (start [0x0F#8, 0x73#8, 0xF7#8, 0x3F#8] 0x2000#64 []
      [] [(0, m64), (7, 0x3#64)] [])) =
      some 0x8000000000000000#64 := by
  decide +kernel

/-- 95_test_vectors.md, line 206. -/
theorem test_result_ssePsllwRm :
    vAfter 0 (step (start [0x66#8, 0x0F#8, 0xF1#8, 0xC1#8] 0x2000#64 []
      [(0, z512), (1, 0xFFFFFFFFFFFFFFFF0000000000000004#512)] [] [])) =
      some 0x1111111122222222333333334444444455555555666666667777777788888888FEDCBA98765432100F0F0F0F0F0F0F0F123056709AB0DEF00000000000000010#512 := by
  decide +kernel

/-- 95_test_vectors.md, line 209. -/
theorem test_result_ssePsllwRm_memory :
    vAfter 0 (step (start [0x66#8, 0x0F#8, 0xF1#8, 0x00#8] 0x2000#64 [0x0F#8, 0x00#8, 0x00#8, 0x00#8, 0x00#8, 0x00#8, 0x00#8, 0x00#8, 0xFF#8, 0xFF#8, 0xFF#8, 0xFF#8, 0xFF#8, 0xFF#8, 0xFF#8, 0xFF#8]
      [(0, z512)] [] [])) =
      some 0x1111111122222222333333334444444455555555666666667777777788888888FEDCBA98765432100F0F0F0F0F0F0F0F80008000800080000000000000008000#512 := by
  decide +kernel

/-- 95_test_vectors.md, line 210. -/
theorem test_result_ssePsllwImm :
    vAfter 0 (step (start [0x66#8, 0x0F#8, 0x71#8, 0xF0#8, 0x04#8] 0x2000#64 []
      [(0, z512)] [] [])) =
      some 0x1111111122222222333333334444444455555555666666667777777788888888FEDCBA98765432100F0F0F0F0F0F0F0F123056709AB0DEF00000000000000010#512 := by
  decide +kernel

/-- 95_test_vectors.md, line 214. -/
theorem test_result_ssePslldRm :
    vAfter 0 (step (start [0x66#8, 0x0F#8, 0xF2#8, 0xC1#8] 0x2000#64 []
      [(0, z512), (1, 0x20#512)] [] [])) =
      some 0x1111111122222222333333334444444455555555666666667777777788888888FEDCBA98765432100F0F0F0F0F0F0F0F00000000000000000000000000000000#512 := by
  decide +kernel

/-- 95_test_vectors.md, line 216. -/
theorem test_result_ssePslldImm :
    vAfter 0 (step (start [0x66#8, 0x0F#8, 0x72#8, 0xF0#8, 0x14#8] 0x2000#64 []
      [(0, z512)] [] [])) =
      some 0x1111111122222222333333334444444455555555666666667777777788888888FEDCBA98765432100F0F0F0F0F0F0F0F56700000DEF000000000000000100000#512 := by
  decide +kernel

/-- 95_test_vectors.md, line 219. -/
theorem test_result_ssePsllqRm :
    vAfter 0 (step (start [0x66#8, 0x0F#8, 0xF3#8, 0xC1#8] 0x2000#64 []
      [(0, z512), (1, 0x40#512)] [] [])) =
      some 0x1111111122222222333333334444444455555555666666667777777788888888FEDCBA98765432100F0F0F0F0F0F0F0F00000000000000000000000000000000#512 := by
  decide +kernel

/-- 95_test_vectors.md, line 221. -/
theorem test_result_ssePsllqImm :
    vAfter 0 (step (start [0x66#8, 0x0F#8, 0x73#8, 0xF0#8, 0x01#8] 0x2000#64 []
      [(0, z512)] [] [])) =
      some 0x1111111122222222333333334444444455555555666666667777777788888888FEDCBA98765432100F0F0F0F0F0F0F0F02468ACF13579BDE0000000000000002#512 := by
  decide +kernel

/-- 95_test_vectors.md, line 245. -/
theorem test_result_vex128PsllwRm :
    vAfter 1 (step (start [0xC5#8, 0xE9#8, 0xF1#8, 0xCB#8] 0x2003#64 []
      [(1, o512), (2, z512), (3, 0x1#512)] [] [])) =
      some 0x2468ACE13569BDE0000000000000002#512 := by
  decide +kernel

/-- 95_test_vectors.md, line 247. -/
theorem test_result_vex128PsllwRm_memory :
    vAfter 1 (step (start [0xC5#8, 0xE9#8, 0xF1#8, 0x08#8] 0x2003#64 [0x08#8, 0x00#8, 0x00#8, 0x00#8, 0x00#8, 0x00#8, 0x00#8, 0x00#8, 0x00#8, 0x00#8, 0x00#8, 0x00#8, 0x00#8, 0x00#8, 0x00#8, 0x00#8]
      [(1, o512), (2, z512)] [] [])) =
      some 0x23006700AB00EF000000000000000100#512 := by
  decide +kernel

/-- 95_test_vectors.md, line 248. -/
theorem test_result_vex128PsllwImm :
    vAfter 1 (step (start [0xC5#8, 0xF1#8, 0x71#8, 0xF2#8, 0x04#8] 0x2003#64 []
      [(1, o512), (2, z512)] [] [])) =
      some 0x123056709AB0DEF00000000000000010#512 := by
  decide +kernel

/-- 95_test_vectors.md, line 249. -/
theorem test_result_vex128PslldRm :
    vAfter 1 (step (start [0xC5#8, 0xE9#8, 0xF2#8, 0xCB#8] 0x2003#64 []
      [(1, o512), (2, z512), (3, 0x4#512)] [] [])) =
      some 0x123456709ABCDEF00000000000000010#512 := by
  decide +kernel

/-- 95_test_vectors.md, line 250. -/
theorem test_result_vex128PslldImm :
    vAfter 1 (step (start [0xC5#8, 0xF1#8, 0x72#8, 0xF2#8, 0x05#8] 0x2003#64 []
      [(1, o512), (2, z512)] [] [])) =
      some 0x2468ACE03579BDE00000000000000020#512 := by
  decide +kernel

/-- 95_test_vectors.md, line 252. -/
theorem test_result_vex128PsllqRm :
    vAfter 1 (step (start [0xC5#8, 0xE9#8, 0xF3#8, 0xCB#8] 0x2003#64 []
      [(1, o512), (2, z512), (3, 0x3F#512)] [] [])) =
      some 0x80000000000000008000000000000000#512 := by
  decide +kernel

/-- 95_test_vectors.md, line 254. -/
theorem test_result_vex128PsllqImm :
    vAfter 1 (step (start [0xC5#8, 0xF1#8, 0x73#8, 0xF2#8, 0x08#8] 0x2003#64 []
      [(1, o512), (2, z512)] [] [])) =
      some 0x23456789ABCDEF000000000000000100#512 := by
  decide +kernel

/-- 95_test_vectors.md, line 255. -/
theorem test_result_vex256PsllwRm :
    vAfter 1 (step (start [0xC5#8, 0xED#8, 0xF1#8, 0xCB#8] 0x2003#64 []
      [(1, o512), (2, z512), (3, 0x4#512)] [] [])) =
      some 0xEDC0A98065402100F0F0F0F0F0F0F0F0123056709AB0DEF00000000000000010#512 := by
  decide +kernel

/-- 95_test_vectors.md, line 256. -/
theorem test_result_vex256PsllwImm :
    vAfter 1 (step (start [0xC5#8, 0xF5#8, 0x71#8, 0xF2#8, 0x08#8] 0x2003#64 []
      [(1, o512), (2, z512)] [] [])) =
      some 0xDC009800540010000F000F000F000F0023006700AB00EF000000000000000100#512 := by
  decide +kernel

/-- 95_test_vectors.md, line 257. -/
theorem test_result_vex256PslldRm :
    vAfter 1 (step (start [0xC5#8, 0xED#8, 0xF2#8, 0xCB#8] 0x2003#64 []
      [(1, o512), (2, z512), (3, 0x1F#512)] [] [])) =
      some 0x800000008000000080000000800000000000000080000000#512 := by
  decide +kernel

/-- 95_test_vectors.md, line 258. -/
theorem test_result_vex256PslldImm :
    vAfter 1 (step (start [0xC5#8, 0xF5#8, 0x72#8, 0xF2#8, 0x05#8] 0x2003#64 []
      [(1, o512), (2, z512)] [] [])) =
      some 0xDB975300CA864200E1E1E1E0E1E1E1E02468ACE03579BDE00000000000000020#512 := by
  decide +kernel

/-- 95_test_vectors.md, line 260. -/
theorem test_result_vex256PsllqRm :
    vAfter 1 (step (start [0xC5#8, 0xED#8, 0xF3#8, 0x08#8] 0x2003#64 [0x3F#8, 0x00#8, 0x00#8, 0x00#8, 0x00#8, 0x00#8, 0x00#8, 0x00#8, 0x00#8, 0x00#8, 0x00#8, 0x00#8, 0x00#8, 0x00#8, 0x00#8, 0x00#8]
      [(1, o512), (2, z512)] [] [])) =
      some 0x800000000000000080000000000000008000000000000000#512 := by
  decide +kernel

/-- 95_test_vectors.md, line 261. -/
theorem test_result_vex256PsllqImm :
    vAfter 1 (step (start [0xC5#8, 0xF5#8, 0x73#8, 0xF2#8, 0x40#8] 0x2003#64 []
      [(1, o512), (2, z512)] [] [])) =
      some 0x0#512 := by
  decide +kernel

/-- 95_test_vectors.md, line 280. -/
theorem test_result_evex128PsllwRm :
    vAfter 1 (step (start [0x62#8, 0xF1#8, 0x6D#8, 0x09#8, 0xF1#8, 0xCB#8] 0x2000#64 []
      [(1, o512), (2, z512), (3, 0x1#512)] [] [(1, 0xA5#64)])) =
      some 0x246AAAA1356AAAABBBB0000BBBB0002#512 := by
  decide +kernel

/-- 95_test_vectors.md, line 281. -/
theorem test_result_evex128PsllwRm_zeroing :
    vAfter 1 (step (start [0x62#8, 0xF1#8, 0x6D#8, 0x89#8, 0xF1#8, 0xCB#8] 0x2000#64 []
      [(1, o512), (2, z512), (3, 0x1#512)] [] [(1, 0xA5#64)])) =
      some 0x2460000135600000000000000000002#512 := by
  decide +kernel

/-- 95_test_vectors.md, line 282. -/
theorem test_result_evex256PsllwRm :
    vAfter 1 (step (start [0x62#8, 0xF1#8, 0x6D#8, 0x29#8, 0xF1#8, 0xCB#8] 0x2000#64 []
      [(1, o512), (2, z512), (3, 0x8#512)] [] [(1, 0xFF00#64)])) =
      some 0xDC009800540010000F000F000F000F00AAAAAAAAAAAAAAAABBBBBBBBBBBBBBBB#512 := by
  decide +kernel

/-- 95_test_vectors.md, line 283. -/
theorem test_result_evex512PsllwRm :
    vAfter 1 (step (start [0x62#8, 0xF1#8, 0x6D#8, 0xC9#8, 0xF1#8, 0xCB#8] 0x2000#64 []
      [(1, o512), (2, z512), (3, 0x4#512)] [] [(1, 0xF0F0F0F#64)])) =
      some 0x3330333044404440000000000000000077707770888088800000000000000000F0F0F0F0F0F0F0F000000000000000000000000000000010#512 := by
  decide +kernel

/-- 95_test_vectors.md, line 285. -/
theorem test_result_evex128PslldRm :
    vAfter 1 (step (start [0x62#8, 0xF1#8, 0x6D#8, 0x09#8, 0xF2#8, 0xCB#8] 0x2000#64 []
      [(1, o512), (2, z512), (3, 0x4#512)] [] [(1, 0x5#64)])) =
      some 0xAAAAAAAA9ABCDEF0BBBBBBBB00000010#512 := by
  decide +kernel

/-- 95_test_vectors.md, line 286. -/
theorem test_result_evex256PslldRm :
    vAfter 1 (step (start [0x62#8, 0xF1#8, 0x6D#8, 0xA9#8, 0xF2#8, 0xCB#8] 0x2000#64 []
      [(1, o512), (2, z512), (3, 0x4#512)] [] [(1, 0xAA#64)])) =
      some 0xEDCBA98000000000F0F0F0F00000000012345670000000000000000000000000#512 := by
  decide +kernel

/-- 95_test_vectors.md, line 287. -/
theorem test_result_evex512PslldRm :
    vAfter 1 (step (start [0x62#8, 0xF1#8, 0x6D#8, 0x49#8, 0xF2#8, 0xCB#8] 0x2000#64 []
      [(1, o512), (2, z512), (3, 0x20#512)] [] [(1, 0xFF#64)])) =
      some 0xEEEEEEEEEEEEEEEEFFFFFFFFFFFFFFFF999999999999999988888888888888880000000000000000000000000000000000000000000000000000000000000000#512 := by
  decide +kernel

/-- 95_test_vectors.md, line 289. -/
theorem test_result_evex128PsllqRm :
    vAfter 1 (step (start [0x62#8, 0xF1#8, 0xED#8, 0x09#8, 0xF3#8, 0xCB#8] 0x2000#64 []
      [(1, o512), (2, z512), (3, 0x1#512)] [] [(1, 0x2#64)])) =
      some 0x2468ACF13579BDEBBBBBBBBBBBBBBBB#512 := by
  decide +kernel

/-- 95_test_vectors.md, line 290. -/
theorem test_result_evex256PsllqRm :
    vAfter 1 (step (start [0x62#8, 0xF1#8, 0xED#8, 0xA9#8, 0xF3#8, 0xCB#8] 0x2000#64 []
      [(1, o512), (2, z512), (3, 0x3F#512)] [] [(1, 0x9#64)])) =
      some 0x8000000000000000#512 := by
  decide +kernel

/-- 95_test_vectors.md, line 291. -/
theorem test_result_evex512PsllqRm :
    vAfter 1 (step (start [0x62#8, 0xF1#8, 0xED#8, 0x49#8, 0xF3#8, 0xCB#8] 0x2000#64 []
      [(1, o512), (2, z512), (3, 0x4#512)] [] [(1, 0x0#64)])) =
      some o512 := by
  decide +kernel

/-- 95_test_vectors.md, line 314. -/
theorem test_result_evex128PsllwImm :
    vAfter 1 (step (start [0x62#8, 0xF1#8, 0x75#8, 0x0A#8, 0x71#8, 0xF3#8, 0x04#8] 0x2000#64 []
      [(1, o512), (3, z512)] [] [(2, 0xF#64)])) =
      some 0xAAAAAAAAAAAAAAAA0000000000000010#512 := by
  decide +kernel

/-- 95_test_vectors.md, line 315. -/
theorem test_result_evex256PsllwImm :
    vAfter 1 (step (start [0x62#8, 0xF1#8, 0x75#8, 0x28#8, 0x71#8, 0xF3#8, 0x01#8] 0x2000#64 []
      [(1, o512), (3, z512)] [] [])) =
      some 0xFDB87530ECA864201E1E1E1E1E1E1E1E02468ACE13569BDE0000000000000002#512 := by
  decide +kernel

/-- 95_test_vectors.md, line 341. -/
theorem test_result_evex256PsllwImm_memory :
    vAfter 1 (step (start [0x62#8, 0xF1#8, 0x75#8, 0x2A#8, 0x71#8, 0x30#8, 0x04#8] 0x2005#64 zBytes
      [(1, o512)] [] [(2, 0x1#64)])) =
      some 0xCCCCCCCCCCCCCCCCDDDDDDDDDDDDDDDDAAAAAAAAAAAAAAAABBBBBBBBBBBB0010#512 := by
  decide +kernel

/-- 95_test_vectors.md, line 317. -/
theorem test_result_evex512PsllwImm :
    vAfter 1 (step (start [0x62#8, 0xF1#8, 0x75#8, 0x48#8, 0x71#8, 0xF3#8, 0x0F#8] 0x2000#64 []
      [(1, o512), (3, z512)] [] [])) =
      some 0x80008000000000008000800000000000800080000000000080008000000000000000000000000000800080008000800080008000800080000000000000008000#512 := by
  decide +kernel

/-- 95_test_vectors.md, line 319. -/
theorem test_result_evex128PslldImm :
    vAfter 1 (step (start [0x62#8, 0xF1#8, 0x75#8, 0x0A#8, 0x72#8, 0xF3#8, 0x03#8] 0x2000#64 []
      [(1, o512), (3, z512)] [] [(2, 0x6#64)])) =
      some 0xAAAAAAAA4D5E6F7800000000BBBBBBBB#512 := by
  decide +kernel

/-- 95_test_vectors.md, line 342. -/
theorem test_result_evex256PslldImm :
    vAfter 1 (step (start [0x62#8, 0xF1#8, 0x75#8, 0x2A#8, 0x72#8, 0x30#8, 0x04#8] 0x2005#64 zBytes
      [(1, o512)] [] [(2, 0x81#64)])) =
      some 0xEDCBA980CCCCCCCCDDDDDDDDDDDDDDDDAAAAAAAAAAAAAAAABBBBBBBB00000010#512 := by
  decide +kernel

/-- 95_test_vectors.md, line 353. -/
theorem test_result_evex512PslldImm :
    vAfter 1 (step (start [0x62#8, 0xF1#8, 0x75#8, 0x5A#8, 0x72#8, 0x30#8, 0x03#8] 0x2005#64 [0x78#8, 0x56#8, 0x34#8, 0x12#8]
      [(1, o512)] [] [(2, 0xFF#64)])) =
      some 0xEEEEEEEEEEEEEEEEFFFFFFFFFFFFFFFF9999999999999999888888888888888891A2B3C091A2B3C091A2B3C091A2B3C091A2B3C091A2B3C091A2B3C091A2B3C0#512 := by
  decide +kernel

/-- 95_test_vectors.md, line 322. -/
theorem test_result_evex128PsllqImm :
    vAfter 1 (step (start [0x62#8, 0xF1#8, 0xF5#8, 0x8A#8, 0x73#8, 0xF3#8, 0x07#8] 0x2000#64 []
      [(1, o512), (3, z512)] [] [(2, 0x1#64)])) =
      some 0x80#512 := by
  decide +kernel

/-- 95_test_vectors.md, line 355. -/
theorem test_result_evex256PsllqImm :
    vAfter 1 (step (start [0x62#8, 0xF1#8, 0xF5#8, 0x3A#8, 0x73#8, 0x30#8, 0x04#8] 0x2005#64 zBytes
      [(1, o512)] [] [(2, 0xA#64)])) =
      some 0x10DDDDDDDDDDDDDDDD0000000000000010BBBBBBBBBBBBBBBB#512 := by
  decide +kernel

/-- 95_test_vectors.md, line 343. -/
theorem test_result_evex512PsllqImm :
    vAfter 1 (step (start [0x62#8, 0xF1#8, 0xF5#8, 0xCA#8, 0x73#8, 0x30#8, 0x01#8] 0x2005#64 zBytes
      [(1, o512)] [] [(2, 0xF#64)])) =
      some 0xFDB97530ECA864201E1E1E1E1E1E1E1E02468ACF13579BDE0000000000000002#512 := by
  decide +kernel

/-- 95_test_vectors.md, line 357. -/
theorem test_result_evex512PsllqImm_suppressed :
    vAfter 1 (step (start [0x62#8, 0xF1#8, 0xF5#8, 0x5A#8, 0x73#8, 0x30#8, 0x3F#8] 0x2005#64 zBytes
      [(1, o512)] [] [(2, 0x0#64)])) =
      some o512 := by
  decide +kernel

/-! ## Faults (95_test_vectors.md section 8), reset, launch -/

/-- The fault of an outcome. -/
def faultOf : Result → Option Fault
  | .fault x => some x
  | .next _ | .refused _ => none

/-- The refusal of an outcome. -/
def refusalOf : Result → Option Refusal
  | .refused r => some r
  | .next _ | .fault _ => none

/-- The outcome is a next state. -/
def goesOn : Result → Bool
  | .next _ => true
  | .fault _ | .refused _ => false

theorem exists_next {r : Result} (h : goesOn r = true) : ∃ t, r = .next t := by
  cases r with
  | next t => exact ⟨t, rfl⟩
  | fault x => cases h
  | refused x => cases h

theorem eq_fault {r : Result} {x : Fault} (h : faultOf r = some x) : r = .fault x := by
  cases r with
  | next t => cases h
  | fault y => exact congrArg _ (Option.some.inj h)
  | refused y => cases h

/-- The address of a #PF is free among the refused bytes; with one of them it is that byte. -/
theorem accessFault_of_one {s : State} {m : MemOp} {rule : AlignRule} {offs : List Nat} {a : Qword} (hr : rule ≠ .sse16)
    (hs : (offs.any fun o => !s.segmentOk m o || s.translateSegment (s.linear m o)) = false)
    (ha : s.faultingBytes m offs = [a]) :
    s.accessFault m rule offs = some (.pf (s.pageFaultCode ((s.translatePage a).getD 0)) a s.pc) := by
  simp [State.accessFault, hr, hs, ha, State.pageFault, State.raise, Nat.mod_one]

/-- `[rax]` through DS. -/
def rax : MemOp := at64 0 0

/-- The count 4 in 64 bytes at 2000H, which x[0] holds; every opmask register is 0; the latched length is 4. -/
def loaded : State :=
  { start [] 0x2000 (4#8 :: List.replicate 63 0#8) [(0, 4), (1, o512), (2, z512), (3, z512)] [(0, m64), (1, 4)] [] with
    ilen := 4 }

/-- `loaded` with x[0] = `a`. -/
def loadedAt (a : Qword) : State := { loaded with x := loaded.x.set 0 a }

/-- A state with Translate refusing the bytes from `a` to `b`, whatever CTRL is. -/
def refusingFrom (s : State) (a b : Qword) (why : Refused) : State :=
  { s with cfg := { s.cfg with refusals := [⟨a, b, ⟨0, 0, 0, 0⟩, ⟨0, 0, 0, 0⟩, why⟩] } }

/-- `loaded` with Translate refusing the bytes from `a` to `b`. -/
def refusing : Qword → Qword → Refused → State := refusingFrom loaded

/-- `loaded` at privilege level `c`, with a supervisor-only page: Translate refuses its bytes at level 3 alone
(60_exceptions.md R236). -/
def supervisorPage (c : BitVec 2) : State :=
  { loaded with
    ctrl := { loaded.ctrl with cpl := c }
    cfg := { loaded.cfg with refusals := [⟨0x2000, 0x2FFF, ⟨0, 0, 0, 3⟩, ⟨0, 0, 0, 3⟩, .page 1⟩] } }

/-- A state without fault suppression (20_memory.md R62). -/
def unsuppressed (s : State) : State := { s with cfg := { s.cfg with faultSuppressF := false } }

/-- A state with alignment checking in force (60_exceptions.md R224). -/
def alignChecked (s : State) : State :=
  { s with flags := setBit s.flags 18, ctrl := { s.ctrl with cr0 := setBit s.ctrl.cr0 18, cpl := 3#2 } }

/-- A state with K[i] = `v`. -/
def withMask (s : State) (i : Fin 8) (v : Qword) : State := { s with k := s.k.set i.val v }

/-- A state with CR0.TS = 1. -/
def notReady (s : State) : State := { s with ctrl := { s.ctrl with cr0 := setBit s.ctrl.cr0 3 } }

/-- A state with an x87 exception pending. -/
def x87Pending (s : State) : State := { s with x87 := { s.x87 with pending := true } }

theorem test_fault_order :
    faultOf (exec (.ssePsllwRm 0 (.reg 1)) (notReady State.reset)) = some (.ud 0xFFF0) ∧
    faultOf (exec (.ssePsllwRm 0 (.reg 1)) (notReady loaded)) = some (.nm 0x1000) ∧
    faultOf (exec (.mmxPsllwRm 0 (.reg 1)) (notReady (x87Pending loaded))) = some (.nm 0x1000) ∧
    faultOf (exec (.mmxPsllwRm 0 (.reg 1)) (x87Pending loaded)) = some (.mf 0x1000) ∧
    goesOn (exec (.ssePsllwRm 0 (.reg 1)) (x87Pending loaded)) = true := by decide +kernel

theorem test_alignment :
    faultOf (exec (.ssePsllqRm 2 (.mem rax)) (loadedAt 0x2008)) = some (.gp 0x1000) ∧
    goesOn (exec (.ssePsllqRm 2 (.mem rax)) (loadedAt 0x2010)) = true ∧
    goesOn (exec (.vex128PsllqRm 2 2 (.mem rax)) (alignChecked (loadedAt 0x2008))) = true ∧
    goesOn (exec (.mmxPsllwRm 0 (.mem rax)) (loadedAt 0x2003)) = true ∧
    faultOf (exec (.mmxPsllwRm 0 (.mem rax)) (alignChecked (loadedAt 0x2003))) = some (.ac 0x1000) := by decide +kernel

/-- The ignored upper bytes of a count are read: byte 15 refused. Page-fault code: P is Translate's, U/S the privilege
level's, W/R and I/D clear (60_exceptions.md R228). -/
theorem test_page_fault_of_a_count :
    exec (.vex128PsllqRm 2 2 (.mem rax)) (alignChecked (refusing 0x200F 0x200F (.page 0x13))) =
      .fault (.pf 0x5 0x200F 0x1000) := by
  have h := accessFault_of_one (s := alignChecked (refusing 0x200F 0x200F (.page 0x13))) (m := rax) (rule := .any)
    (offs := List.range 16) (a := 0x200F) (by decide) (by decide +kernel) (by decide +kernel)
  have hf : (alignChecked (refusing 0x200F 0x200F (.page 0x13))).formFault (.vex .v128 .q .var) = none := by decide +kernel
  simp only [exec, execVex128PsllqRm, vexShift, State.withOperand, hf, State.xmmCount, State.memRead, h, Except.map]
  refine congrArg Host.Outcome.fault ?_
  decide +kernel

/-- A mask suppresses the faults of VPSLLD and VPSLLQ, not those of VPSLLW. -/
theorem test_fault_suppression :
    goesOn (exec (.evex256PsllwImm 1 ⟨2, false⟩ (.mem rax) 4) (withMask (refusing 0x201F 0x201F (.page 0)) 2 1)) = false ∧
    goesOn (exec (.evex256PslldImm 1 ⟨2, false⟩ (.mem rax) 4) (withMask (refusing 0x2004 0x201F (.page 0)) 2 1)) = true ∧
    goesOn (exec (.evex256PslldImm 1 ⟨2, false⟩ (.mem rax) 4)
      (unsuppressed (withMask (refusing 0x2004 0x201F (.page 0)) 2 1))) = false ∧
    vAfter 1 (exec (.evex256PslldImm 1 ⟨2, false⟩ (.mem rax) 4) (refusing 0x2000 0x201F (.page 0))) =
      some 0xCCCCCCCCCCCCCCCCDDDDDDDDDDDDDDDDAAAAAAAAAAAAAAAABBBBBBBBBBBBBBBB#512 ∧
    goesOn (exec (.evex256PslldImm 1 ⟨2, false⟩ (.bcst rax) 4) (refusing 0x2000 0x2003 (.page 0))) = true ∧
    goesOn (exec (.evex256PslldImm 1 ⟨2, false⟩ (.bcst rax) 4) (withMask (refusing 0x2000 0x2003 (.page 0)) 2 0x80)) =
      false := by decide +kernel

/-- A masked-off byte in no ordinary memory is stuck as well (20_memory.md R64; 93_implementation_defined.md U4), unless
Translate refuses it, and then the mask suppresses it. -/
theorem test_masked_off_byte_in_no_memory :
    let s := withMask (loadedAt 0x2039) 2 1
    faultOf (exec (.evex256PslldImm 1 ⟨2, false⟩ (.mem rax) 4) s) = some (.noMemory 0x2040 0x1000) ∧
    goesOn (exec (.evex256PslldImm 1 ⟨2, false⟩ (.mem rax) 4) (refusingFrom s 0x2040 0x2FFF (.page 0))) = true ∧
    faultOf (exec (.evex256PslldImm 1 ⟨2, false⟩ (.bcst rax) 4) (loadedAt 0x203D)) = some (.noMemory 0x2040 0x1000) := by
  decide +kernel

/-- A supervisor-only page (60_exceptions.md R236): read at levels 0 and 2, and refused at level 3. -/
theorem test_supervisor_page :
    goesOn (exec (.ssePsllqRm 2 (.mem rax)) (supervisorPage 0)) = true ∧
    goesOn (exec (.ssePsllqRm 2 (.mem rax)) (supervisorPage 2)) = true ∧
    (match exec (.ssePsllqRm 2 (.mem rax)) (supervisorPage 3) with
     | .fault (.pf _ _ pc) => pc == 0x1000
     | _ => false) = true := by decide +kernel

/-- The stuck outcome and the segment checks (20_memory.md R64, 60_exceptions.md R221). -/
theorem test_other_operand_faults :
    faultOf (exec (.vex128PsllqRm 2 2 (.mem rax)) (loadedAt 0x2031)) = some (.noMemory 0x2040 0x1000) ∧
    faultOf (exec (.vex128PsllqRm 2 2 (.mem rax)) (loadedAt 0x7FFFFFFFFFFF)) = some (.gp 0x1000) ∧
    faultOf (exec (.vex128PsllqRm 2 2 (.mem ⟨.ss, rax.ea⟩)) (loadedAt 0x7FFFFFFFFFFF)) = some (.ss 0x1000) ∧
    faultOf (exec (.vex128PsllqRm 2 2 (.mem rax)) (refusing 0x2000 0x2000 .segment)) = some (.gp 0x1000) := by
  decide +kernel

/-- pc moves past the instruction; a refused step at bytes of no form, and at the end of the program text. -/
theorem test_step_moves_pc_and_refuses :
    (match step (start [0x66, 0x41, 0x0F, 0x72, 0xF0, 0x01] 0x2000 [] [] [] []) with
     | .next t => t.pc == 0x1006
     | _ => false) = true ∧
    refusalOf (step (start [0x90] 0x2000 [] [] [] [])) = some .notInFamily ∧
    refusalOf (step (start [0x0F, 0xF1] 0x2000 [] [] [] [])) = some .pcOutsideText ∧
    refusalOf (step State.reset) = some .pcOutsideText := by decide +kernel

/-- RIP-relative addressing counts from the next instruction (30_encoding.md R95): 1000H + 7 + FF9H = 2000H. -/
theorem test_rip_relative :
    mmAfter 0 (step (start [0x0F, 0xF1, 0x05, 0xF9, 0x0F, 0x00, 0x00] 0x2000 [4, 0, 0, 0, 0, 0, 0, 0] [] [(0, m64)] [])) =
      some 0x0010FFF00FF02340#64 := by decide +kernel

/-- The table's words: the row's instruction, and that it runs as the first instruction (rows 1, 11 and 42). -/
theorem test_table_words :
    decodeTableWord 24 0x00F100 = some (.mmxPsllwRm 0 (.mem rax)) ∧
    decodeTableWord 24 0x01F3C1 = some (.ssePsllqRm 0 (.reg 1)) ∧
    decodeTableWord 24 0xA173F3 = some (.evex512PsllqImm 0 ⟨0, false⟩ (.reg 3) 0) ∧
    goesOn (step (State.reset.withFetchWord 24 0x00F100)) = true ∧
    goesOn (step (State.reset.withFetchWord 24 0x01F3C1)) = true ∧
    goesOn (step (State.reset.withFetchWord 24 0xA173F3)) = true := by decide +kernel

/-! ## Witnesses: concrete states and operands that meet the hypotheses of each obligation, at the boundaries of its
clauses -/

theorem test_witness_ShiftOfOneElement :
    (16 ∈ [16, 32, 64] ∧ 32 ∈ [16, 32, 64] ∧ 64 ∈ [16, 32, 64]) ∧ (15 ≤ 16 - 1 ∧ 31 ≤ 32 - 1 ∧ 63 ≤ 64 - 1) ∧
    shl 16 0x8001#16 15 = 0x8000#16 ∧ shl 16 0xFFFF#16 0x10000 = 0#16 ∧ shl 32 0x80000001#32 31 = 0x80000000#32 ∧
    shl 64 0x8000000000000001#64 64 = 0#64 := by decide +kernel

theorem test_witness_ShiftThresholds : 16 > 16 - 1 ∧ 32 > 32 - 1 ∧ 64 > 64 - 1 ∧ shl 16 0xFFFF#16 16 = 0#16 ∧
    shl 16 0xFFFE#16 15 = 0#16 := by decide +kernel

theorem test_witness_ShiftLaws : (0 < 1 ∧ 1 ≤ 16 - 1) ∧ (0 < 63 ∧ 63 ≤ 64 - 1) ∧
    shl 16 (shl 16 0x8001#16 3) 4 = 0x0080#16 := by decide +kernel

/-- The result itself is a value with the elements the rule gives. -/
theorem test_witness_PackedShiftElements :
    (128, 16, 8) ∈ [(64, 16, 4), (128, 16, 8)] ∧ 7 < 8 ∧
    (∀ j, j < 8 → natLane 16 (psll 128 16 (z512.setWidth 128) 1) j = natShift 16 (natLane 16 (z512.setWidth 128) j) 1) ∧
    psll 128 16 (z512.setWidth 128) 1 = 0x02468ACE13569BDE0000000000000002#128 ∧ 16 > 16 - 1 := by decide +kernel

theorem test_witness_PackedShiftOfHalves :
    psll 256 16 (z512.setWidth 128 ++ z512.setWidth 128 : BitVec (128 + 128)) 1 =
      0x02468ACE13569BDE000000000000000202468ACE13569BDE0000000000000002#256 := by decide +kernel

theorem test_witness_PackedShiftsCompose : 128 ∈ [64, 128, 256, 512] ∧ 64 ∈ [16, 32, 64] ∧
    psll 128 64 (psll 128 64 (z512.setWidth 128) 30) 33 = 0x80000000000000008000000000000000#128 := by decide +kernel

/-- Two masks that agree below KL = 8 and differ at bit 8. -/
theorem test_witness_MaskWriteAndBroadcastElements :
    (∀ j, j < 128 / 16 → (0xA5#64).getLsbD j = (0x1A5#64).getLsbD j) ∧
    maskWrite 128 16 (psll 128 16 (z512.setWidth 128) 4) (o512.setWidth 128) 0x1A5 false false =
      0x1230AAAA9AB0AAAABBBB0000BBBB0010#128 := by decide +kernel

/-- Every form is ready in a launched state. -/
theorem test_loaded_is_ready : ∀ e ∈ [Elem.w, .d, .q], ∀ c ∈ [CountKind.var, .imm],
    loaded.ready (.mmx e c) = true ∧ loaded.ready (.sse e c) = true ∧
    (∀ l ∈ [VLen.v128, .v256], loaded.ready (.vex l e c) = true) ∧
    (∀ l ∈ [VLen.v128, .v256, .v512], loaded.ready (.evex l e c) = true) := by decide +kernel

/-- The memory count is the last that lies in memory; with alignment checking, an aligned one. -/
theorem test_witness_MmxVariableCountForms :
    ∀ p ∈ [(loadedAt 0x2038, RegMem.mem rax), (loadedAt 0x2003, .mem rax), (alignChecked loaded, .mem rax),
        (loaded, .reg 7)],
      p.1.mmxCountReadable p.2 = true ∧
      ∀ i ∈ [Instr.mmxPsllwRm 7 p.2, .mmxPslldRm 7 p.2, .mmxPsllqRm 7 p.2], p.1.ready i.form = true := by decide +kernel

theorem test_witness_MmxImmediateForms :
    ∀ i ∈ [Instr.mmxPsllwImm 7 255, .mmxPslldImm 7 0, .mmxPsllqImm 0 63], loaded.ready i.form = true := by decide +kernel

theorem test_witness_SseVariableCountForms :
    ∀ p ∈ [(loadedAt 0x2030, RegMem.mem rax), (loaded, .reg 31)],
      p.1.sseCountReadable p.2 = true ∧
      ∀ i ∈ [Instr.ssePsllwRm 15 p.2, .ssePslldRm 15 p.2, .ssePsllqRm 15 p.2], p.1.ready i.form = true := by decide +kernel

theorem test_witness_SseImmediateForms :
    ∀ i ∈ [Instr.ssePsllwImm 0 16, .ssePslldImm 31 0, .ssePsllqImm 1 255], loaded.ready i.form = true := by decide +kernel

theorem test_witness_VexVariableCountForms :
    ∀ p ∈ [(alignChecked (loadedAt 0x202F), RegMem.mem rax), (loaded, .reg 0)],
      p.1.xmmCountReadable p.2 = true ∧
      ∀ i ∈ [Instr.vex128PsllwRm 0 0 p.2, .vex128PslldRm 1 2 p.2, .vex128PsllqRm 1 2 p.2, .vex256PsllwRm 0 0 p.2,
        .vex256PslldRm 1 2 p.2, .vex256PsllqRm 1 2 p.2], p.1.ready i.form = true := by decide +kernel

theorem test_witness_VexImmediateForms :
    ∀ i ∈ [Instr.vex128PsllwImm 0 0 1, .vex128PslldImm 1 2 31, .vex128PsllqImm 1 2 64, .vex256PsllwImm 0 0 255,
        .vex256PslldImm 1 2 0, .vex256PsllqImm 1 2 1], loaded.ready i.form = true := by decide +kernel

theorem test_witness_Evex128VariableCountForms :
    ∀ p ∈ [(loadedAt 0x2030, RegMem.mem rax), (loaded, .reg 1)],
      p.1.xmmCountReadable p.2 = true ∧
      ∀ i ∈ [Instr.evex128PsllwRm 1 ⟨2, false⟩ 2 p.2, .evex128PslldRm 1 ⟨2, true⟩ 2 p.2, .evex128PsllqRm 1 ⟨0, false⟩ 2 p.2],
        p.1.ready i.form = true := by decide +kernel

theorem test_witness_Evex256VariableCountForms :
    ∀ p ∈ [(loadedAt 0x2030, RegMem.mem rax), (loaded, .reg 1)],
      p.1.xmmCountReadable p.2 = true ∧
      ∀ i ∈ [Instr.evex256PsllwRm 1 ⟨2, false⟩ 2 p.2, .evex256PslldRm 1 ⟨2, true⟩ 2 p.2, .evex256PsllqRm 1 ⟨0, false⟩ 2 p.2],
        p.1.ready i.form = true := by decide +kernel

theorem test_witness_Evex512VariableCountForms :
    ∀ p ∈ [(loadedAt 0x2030, RegMem.mem rax), (loaded, .reg 31)],
      p.1.xmmCountReadable p.2 = true ∧
      ∀ i ∈ [Instr.evex512PsllwRm 31 ⟨2, false⟩ 2 p.2, .evex512PslldRm 1 ⟨2, true⟩ 2 p.2, .evex512PsllqRm 1 ⟨0, false⟩ 2 p.2],
        p.1.ready i.form = true := by decide +kernel

/-- The 64 bytes of the widest operand are all the bytes there are. -/
theorem test_witness_EvexImmediateWordForms :
    loaded.wholeReadable 128 (.mem rax) = true ∧ loaded.wholeReadable 256 (.mem rax) = true ∧
    loaded.wholeReadable 512 (.mem rax) = true ∧ loaded.wholeReadable 512 (.reg 3) = true ∧
    ∀ i ∈ [Instr.evex128PsllwImm 1 ⟨2, false⟩ (.mem rax) 4, .evex256PsllwImm 1 ⟨2, true⟩ (.mem rax) 4,
        .evex512PsllwImm 1 ⟨0, false⟩ (.mem rax) 4], loaded.ready i.form = true := by decide +kernel

/-- The last operand that lies in memory; one of which only the element that is written can be read, Translate refusing the
others; and a broadcast of which no byte can be read, with nothing written. -/
theorem test_witness_EvexImmediateDoubleAndQuadForms :
    loaded.dataReadable 512 32 ⟨0, false⟩ (.mem rax) = true ∧ loaded.dataReadable 512 64 ⟨0, false⟩ (.mem rax) = true ∧
    (refusingFrom (withMask (loadedAt 0x203C) 2 1) 0x2040 0x2FFF (.page 0)).dataReadable 128 32 ⟨2, false⟩ (.mem rax) = true ∧
    (refusingFrom (withMask (loadedAt 0x2038) 2 1) 0x2040 0x2FFF (.page 0)).dataReadable 128 64 ⟨2, true⟩ (.mem rax) = true ∧
    (withMask (loadedAt 0x203C) 2 1).dataReadable 128 32 ⟨2, false⟩ (.mem rax) = false ∧
    (loadedAt 0x203C).dataReadable 256 32 ⟨0, false⟩ (.bcst rax) = true ∧
    (refusingFrom (loadedAt 0x3000) 0x3000 0x3FFF (.page 0)).dataReadable 512 64 ⟨2, false⟩ (.bcst rax) = true ∧
    loaded.dataReadable 256 64 ⟨2, false⟩ (.reg 3) = true ∧
    ∀ i ∈ [Instr.evex128PslldImm 1 ⟨2, false⟩ (.mem rax) 4, .evex256PslldImm 1 ⟨2, false⟩ (.bcst rax) 4,
        .evex512PslldImm 1 ⟨2, false⟩ (.mem rax) 4, .evex128PsllqImm 1 ⟨2, false⟩ (.mem rax) 4,
        .evex256PsllqImm 1 ⟨2, false⟩ (.bcst rax) 4, .evex512PsllqImm 1 ⟨2, false⟩ (.mem rax) 4],
      loaded.ready i.form = true := by decide +kernel

theorem test_witness_BitsAboveTheOperand :
    (∃ t, exec (.ssePsllwRm 0 (.reg 1)) loaded = .next t) ∧ (∃ t, exec (.vex128PsllqImm 1 2 1) loaded = .next t) ∧
    (∃ t, exec (.vex256PslldImm 1 2 1) loaded = .next t) ∧
    (∃ t, exec (.evex256PslldRm 1 ⟨2, false⟩ 2 (.reg 0)) loaded = .next t) ∧
    (Instr.ssePsllwRm 0 (.reg 1)).dest = .v 0 := by
  refine ⟨exists_next ?_, exists_next ?_, exists_next ?_, exists_next ?_, ?_⟩ <;> decide +kernel

/-- K[2] = 0 below KL, with the bits above KL set; and the values the spec's rule gives. -/
theorem test_witness_AllZeroMask :
    let s := withMask loaded 2 0xFFFFFFFFFFFFFF00
    (⟨2, true⟩ : Masking).aaa ≠ 0 ∧ (∀ j, j < 128 / 16 → (s.kr 2).getLsbD j = false) ∧
    (∀ i ∈ [evexRm .v128 .w 1 ⟨2, true⟩ 2 (.reg 0), evexRm .v256 .d 1 ⟨2, true⟩ 2 (.reg 0),
        evexRm .v512 .q 1 ⟨2, true⟩ 2 (.reg 0), evexImmW .v128 1 ⟨2, true⟩ (.reg 2) 1, evexImmD .v256 1 ⟨2, true⟩ (.mem rax) 1,
        evexImmQ .v512 1 ⟨2, true⟩ (.bcst rax) 1], vAfter 1 (exec i s) = some 0) ∧
    vAfter 1 (exec (evexRm .v128 .w 1 ⟨2, false⟩ 2 (.reg 0)) s) = some 0xAAAAAAAAAAAAAAAABBBBBBBBBBBBBBBB#512 := by
  decide +kernel

theorem test_witness_AllOnesMaskIsNoMask :
    (∀ j, j < 512 / 16 → ((withMask loaded 3 0xFFFFFFFF).kr 3).getLsbD j = true) ∧
    (∀ j, j < 256 / 32 → ((withMask loaded 3 0xFF).kr 3).getLsbD j = true) ∧
    (∀ j, j < 128 / 64 → ((withMask loaded 3 3).kr 3).getLsbD j = true) := by decide +kernel

/-- The largest immediate, and a vector count whose ignored upper bits are not 0. -/
theorem test_witness_VariableCountAgreesWithImmediate :
    (loaded.setMM 1 255).mmr 1 = 255 ∧ ((loaded.setMM 1 255).mmr 1).toNat = (255#8).toNat ∧
    ((loaded.setV 4 0xFFFFFFFFFFFFFFFF00000000000000FF#512).v 4).toNat % 2 ^ 64 = (255#8).toNat := by decide +kernel

theorem test_witness_ChecksBeforeTheOperands :
    State.reset.avail (.sse .w .var) = false ∧
    (loaded.avail (.vex .v128 .w .var) = true ∧ (notReady loaded).avail (.vex .v128 .w .var) = true ∧
      (notReady loaded).deviceReady = false) ∧
    ((x87Pending loaded).avail (.mmx .q .imm) = true ∧ (x87Pending loaded).deviceReady = true ∧
      (x87Pending loaded).x87.pending = true) := by decide +kernel

theorem test_witness_MisalignedSseCount :
    ∀ s ∈ [loadedAt 0x2008, loadedAt 0x2001, loadedAt 0x200F],
      s.ready (.sse .w .var) = true ∧ s.ready (.sse .d .var) = true ∧ s.ready (.sse .q .var) = true ∧
      (∀ o, o < 16 → s.segmentOk rax o = true ∧ s.translateSegment (s.linear rax o) = false) ∧
      (s.linear rax 0).toNat % 16 ≠ 0 := by decide +kernel

/-- Both branches: alignment checking in force, and not. -/
theorem test_witness_MisalignedMmxCount :
    ∀ s ∈ [loadedAt 0x2001, alignChecked (loadedAt 0x2037)],
      (∀ i ∈ [Instr.mmxPsllwRm 0 (.mem rax), .mmxPslldRm 0 (.mem rax), .mmxPsllqRm 0 (.mem rax)], s.ready i.form = true) ∧
      s.bytesReadable rax 8 = true ∧ (s.linear rax 0).toNat % 8 ≠ 0 := by decide +kernel

/-- The last byte of the operand is the first non-canonical address; the whole operand goes through SS; and outside 64-bit
mode the last byte is beyond the limit. -/
theorem test_witness_SegmentCheckFault :
    ((Instr.vex128PsllqRm 2 2 (.mem rax)).wholeOperand? = some (rax, 16) ∧
      (loadedAt 0x7FFFFFFFFFF1).ready (.vex .v128 .q .var) = true ∧
      (loadedAt 0x7FFFFFFFFFF1).segmentOk rax 14 = true ∧ (loadedAt 0x7FFFFFFFFFF1).segmentOk rax 15 = false) ∧
    ((Instr.ssePsllwRm 0 (.mem ⟨.ss, rax.ea⟩)).wholeOperand? = some (⟨.ss, rax.ea⟩, 16) ∧
      (loadedAt 0x800000000000).ready (.sse .w .var) = true ∧ loaded.cfg.mode ≠ .real ∧
      (loadedAt 0x800000000000).segmentOk ⟨.ss, rax.ea⟩ 0 = false) ∧
    let s := { loadedAt 0xFFF9 with cfg := { loaded.cfg with mode := .prot32 } }
    (Instr.mmxPslldRm 0 (.mem rax)).wholeOperand? = some (rax, 8) ∧ s.ready (.mmx .d .var) = true ∧
      s.segmentOk rax 6 = true ∧ s.segmentOk rax 7 = false := by decide +kernel

theorem test_witness_PageFaultReport :
    exec (.vex128PsllqRm 2 2 (.mem rax)) (refusing 0x200F 0x200F (.page 0xFFFFFFFF)) =
      .fault (.pf 0xFFFFFFE9 0x200F 0x1000) := by
  have h := accessFault_of_one (s := refusing 0x200F 0x200F (.page 0xFFFFFFFF)) (m := rax) (rule := .any)
    (offs := List.range 16) (a := 0x200F) (by decide) (by decide +kernel) (by decide +kernel)
  have hf : (refusing 0x200F 0x200F (.page 0xFFFFFFFF)).formFault (.vex .v128 .q .var) = none := by decide +kernel
  simp only [exec, execVex128PsllqRm, vexShift, State.withOperand, hf, State.xmmCount, State.memRead, h, Except.map]
  refine congrArg Host.Outcome.fault ?_
  decide +kernel

/-- The last byte of each kind of whole operand is the first byte that memory does not hold. -/
theorem test_witness_EveryByteOfAWholeOperandIsChecked :
    ((Instr.mmxPsllwRm 0 (.mem rax)).wholeOperand? = some (rax, 8) ∧ (loadedAt 0x2039).byteReadable rax 7 = false) ∧
    ((Instr.evex128PslldRm 1 ⟨2, false⟩ 2 (.mem rax)).wholeOperand? = some (rax, 16) ∧
      (loadedAt 0x2031).byteReadable rax 15 = false) ∧
    ((Instr.evex512PsllwImm 1 ⟨2, false⟩ (.mem rax) 1).wholeOperand? = some (rax, 64) ∧
      (loadedAt 0x2001).byteReadable rax 63 = false) := by decide +kernel

/-- The first clause: nothing is written, and every byte is refused. The second: the last element is written and its last
byte cannot be read. The third: no suppression. The fourth: the last byte of the operand lies in no memory. -/
theorem test_witness_FaultSuppression :
    (let s := refusingFrom (loadedAt 0x3000) 0x3000 0x3FFF (.page 0);
      s.cfg.faultSuppressF = true ∧ (∀ j, j < 512 / 32 → s.active ⟨2, false⟩ j = false) ∧
      (∀ o, o < VLen.v512.bits / 8 → s.outsideMem rax o = false) ∧ s.byteReadable rax 0 = false ∧
      s.ready (evexImmD .v512 1 ⟨2, false⟩ (.mem rax) 1).form = true ∧
      s.ready (evexImmQ .v128 1 ⟨2, false⟩ (.mem rax) 1).form = true) ∧
    ((withMask (loadedAt 0x2001) 2 0x8000).cfg.faultSuppressF = true ∧ 15 < VLen.v512.bits / 32 ∧
      (withMask (loadedAt 0x2001) 2 0x8000).active ⟨2, false⟩ 15 = true ∧
      (withMask (loadedAt 0x2001) 2 0x8000).byteReadable rax (15 * (32 / 8) + 3) = false ∧
      (withMask (loadedAt 0x203D) 2 0x8000).byteReadable rax 3 = false) ∧
    ((unsuppressed (loadedAt 0x2001)).cfg.faultSuppressF = false ∧ 63 < VLen.v512.bits / 8 ∧
      (unsuppressed (loadedAt 0x2001)).byteReadable rax 63 = false ∧
      (unsuppressed (loadedAt 0x203D)).byteReadable rax 3 = false) ∧
    (loadedAt 0x2001).outsideMem rax 63 = true ∧ (loadedAt 0x203D).outsideMem rax 3 = true := by decide +kernel

theorem test_witness_FaultKinds :
    exec (.mmxPsllwImm 0 1) (x87Pending loaded) = .fault (.mf 0x1000) ∧
    exec (.mmxPsllwRm 0 (.mem rax)) (alignChecked (loadedAt 0x2001)) = .fault (.ac 0x1000) ∧
    exec (.ssePsllwImm 0 1) State.reset = .fault (.ud 0xFFF0) ∧ (Instr.ssePsllwImm 0 1).memOp? = none := by
  refine ⟨eq_fault ?_, eq_fault ?_, eq_fault ?_, rfl⟩ <;> decide +kernel

/-- FLAGS and MXCSR differ at every bit but VM and AC. -/
theorem test_witness_FlagsAndMxcsrDoNotMatter :
    let f := ~~~(loaded.flags) ^^^ 0x60000#64
    f.getLsbD 17 = loaded.flags.getLsbD 17 ∧ f.getLsbD 18 = loaded.flags.getLsbD 18 ∧ f ≠ loaded.flags ∧
    goesOn (exec (.mmxPsllwRm 0 (.mem rax)) loaded) = true := by decide +kernel

/-- K[0] differs, and so do the bits at and above KL = 4. -/
theorem test_witness_MaskBitsThatAreNotRead :
    let i : Instr := .evex256PsllqRm 1 ⟨2, false⟩ 2 (.reg 0)
    let k : Vector Qword 8 := #v[0xFF, 0xF0, 0x10, 0xFFFFFFFFFFFFFFF0, 0, 0, 0, 0xF0]
    i.form = .evex .v256 .q .var ∧
    (∀ r : Fin 8, r ≠ 0 → ∀ j, j < VLen.v256.bits / Elem.q.bits → (k[r.val]).getLsbD j = (loaded.kr r).getLsbD j) ∧
    goesOn (exec i loaded) = true := by decide +kernel

theorem test_witness_RegisterFilesAreSeparate :
    isMmx (Instr.mmxPsllwRm 0 (.mem rax)).form = true ∧ isMmx (Instr.ssePsllqRm 0 (.mem rax)).form = false ∧
    goesOn (exec (.mmxPsllwRm 0 (.mem rax)) loaded) = true ∧ goesOn (exec (.ssePsllqRm 0 (.mem rax)) loaded) = true := by
  decide +kernel

theorem test_witness_RegisterFormsReadNoAddress : (Instr.evex512PslldImm 1 ⟨2, false⟩ (.reg 2) 1).memOp? = none ∧
    goesOn (exec (.evex512PslldImm 1 ⟨2, false⟩ (.reg 2) 1) loaded) = true := by decide +kernel

/-- From level 0 to level 3: a vector form under alignment checking, an MMX form without a memory operand, and an MMX form
with one where alignment checking is off. -/
theorem test_witness_PrivilegeLevelDoesNotMatter :
    let at3 := fun s : State => ({ s with ctrl := { s.ctrl with cpl := 3 } } : State)
    let checked : State := { alignChecked loaded with ctrl := { (alignChecked loaded).ctrl with cpl := 0 } }
    (∃ t, exec (.ssePsllqRm 0 (.mem rax)) checked = .next t) ∧ (at3 checked).alignCheck = true ∧
    isMmx (Instr.ssePsllqRm 0 (.mem rax)).form = false ∧
    (∃ t, exec (.mmxPsllqImm 0 1) checked = .next t) ∧ (Instr.mmxPsllqImm 0 1).memOp? = none ∧
    (∃ t, exec (.mmxPsllqRm 0 (.mem rax)) loaded = .next t) ∧ (at3 loaded).alignCheck = false ∧
    ∀ s ∈ [checked, loaded, refusing 0x2040 0x2FFF (.page 0)],
      ∀ o, o < 64 → (at3 s).translate (s.linear rax o) = s.translate (s.linear rax o) := by
  refine ⟨exists_next ?_, ?_, ?_, exists_next ?_, ?_, exists_next ?_, ?_, ?_⟩ <;> decide +kernel

/-- The machine about to run `VPSLLD ymm1, ymm2, 5` (C5 F5 72 F2 05), with another byte after it. -/
def program : State := start [0xC5, 0xF5, 0x72, 0xF2, 0x05, 0x90] 0x2000 [] [(2, z512)] [] []

theorem test_witness_StepRunsTheDecodedInstruction :
    decode program.cfg.mode program.fetchBytes = .ok (.vex256PslldImm 1 2 5, 5) ∧
    (Instr.vex256PslldImm 1 2 5).wf program.cfg.mode = true := by decide +kernel

theorem test_witness_StepRunsTheEncodedInstruction :
    (Instr.vex256PslldImm 1 2 5).wf program.cfg.mode = true ∧
    ∀ j, j < (encode program.cfg.mode (.vex256PslldImm 1 2 5)).length →
      program.fetchByte j = (encode program.cfg.mode (.vex256PslldImm 1 2 5))[j]? := by decide +kernel

theorem test_witness_FrameOfEveryStep : (∃ t, step program = .next t) ∧
    ∃ t, step (start [0x66, 0x0F, 0x71, 0xF0, 0x04] 0x2000 [] [(0, z512)] [] []) = .next t := by
  refine ⟨exists_next ?_, exists_next ?_⟩ <;> decide +kernel

/-- pc wraps at 2^64: an instruction of 3 bytes at FFFFFFFFFFFFFFFDH. A fault at an illegal encoding. -/
theorem test_witness_StepAdvancesPc :
    (match step { start [] 0xFFFFFFFFFFFFFFFD [0x0F, 0xF1, 0xC1] [] [] [] with pc := 0xFFFFFFFFFFFFFFFD } with
     | .next t => t.pc == 0
     | _ => false) = true ∧
    (∃ t, step program = .next t) ∧
    step (start [0xF0, 0x0F, 0xF1, 0xC1] 0x2000 [] [] [] []) = .fault (.ud 0x1000) := by
  refine ⟨?_, exists_next ?_, eq_fault ?_⟩ <;> decide +kernel

theorem test_witness_StepKeepsTheInvariant : (∃ t, step program = .next t) ∧ program.inv = true :=
  ⟨exists_next (by decide +kernel), by decide +kernel⟩

/-- Two MMX instructions run from a state with nothing pending. -/
theorem test_witness_NoMfInAnyRun : program.x87.pending = false ∧
    (match Sys2Proof.core.run 2 (start [0x0F, 0x71, 0xF0, 0x04, 0x0F, 0x71, 0xF0, 0x04] 0x2000 [] [] [(0, m64)] []) with
     | .next t => t.mmr 0 == 0x0100FF00FF003400#64
     | _ => false) = true := by decide +kernel

theorem test_witness_ControlValuesOutOfReset :
    State.reset.ctrl.cr0 = 0x60000010#64 ∧ State.reset.ctrl.cr4 = 0#64 ∧ State.reset.cfg.mode = .real ∧
    (isMmx (Instr.mmxPsllqImm 0 1).form = true ∧ State.reset.cfg.features.mmx = true ∧ State.reset.x87.pending = false ∧
      (Instr.mmxPsllqImm 0 1).memOp? = none) ∧
    isMmx (Instr.ssePsllqImm 0 1).form = false ∧ isMmx (Instr.vex128PsllqImm 0 0 1).form = false := by decide +kernel

theorem test_witness_LinearAddresses : loaded.cfg.mode = .mode64 ∧ State.reset.cfg.mode ≠ .mode64 ∧
    (loadedAt 0xFFFFFFFFFFFFFFFF).linear rax 1 = 0 := by decide +kernel

/-- The value of a read that raised no fault. -/
def valueOf {α : Type} : Except Fault α → Option α
  | .ok v => some v
  | .error _ => none

theorem test_witness_LittleEndianReads :
    valueOf (loaded.memRead 128 rax .any 16) = some 4#128 ∧ valueOf (loaded.memRead 64 rax .any 8) = some 4#64 ∧
    valueOf ((start [] 0x2000 zBytes [] [] []).memRead 512 rax .any 64) = some z512 := by decide +kernel

/-- Well-formed instructions in every mode, with the last register numbers of each. -/
theorem test_witness_DecodeOfEncode :
    (Instr.evex512PsllqRm 31 ⟨7, true⟩ 31 (.mem ⟨.gs, .wide true (.gpr 15) (some 15) 3 0x7FFFFFFF⟩)).wf .mode64 = true ∧
    (Instr.ssePsllwRm 7 (.mem ⟨.ds, .a16 .bxdi 0x8000⟩)).wf .real = true ∧
    (Instr.vex256PslldRm 7 7 (.mem ⟨.cs, .wide false .none none 0 0x80000000⟩)).wf .prot32 = true ∧
    (Instr.mmxPsllqImm 7 255).wf .v86 = true := by decide

theorem test_witness_DecodedInstructionsAreWellFormed :
    decode .mode64 [0x0F, 0xF1, 0xC1, 0x90] = .ok (.mmxPsllwRm 0 (.reg 1), 3) ∧
    decode .compat32 (List.replicate 11 0x2E ++ [0x0F, 0x71, 0xF3, 0x04]) = .ok (.mmxPsllwImm 3 4, 15) := by
  refine ⟨?_, ?_⟩ <;> rfl

theorem test_witness_DecodeReadsOnlyTheInstruction :
    decode .mode64 [0x0F, 0x71, 0xF3, 0x04, 0xFF] = .ok (.mmxPsllwImm 3 4, 4) := by rfl

/-- The key of one row, met by an instruction's bytes. -/
theorem test_witness_TableSelectsTheForm :
    (⟨0xA17330#24, 0xF1FF38#24, .evex .v512 .q .imm⟩ : TableRow) ∈ opcodeTable ∧
    (0xA173F3#24) &&& 0xF1FF38#24 = 0xA17330#24 ∧ keyOf (.evex .v512) 0x73 0xF3 = 0xA173F3#24 := by decide

theorem test_witness_NeighboursAreRefused :
    (ModRM.ofByte 0xD0).reg ≠ 6#3 ∧ (0xE9#8).extractLsb' 0 2 = 1#2 ∧ (0xE1#8).extractLsb' 0 5 = 1#5 ∧
    (0xF1#8).extractLsb' 0 4 = 1#4 ∧ (0x75#8).extractLsb' 0 3 = 5#3 ∧ (0x48#8).extractLsb' 5 2 ≠ 3#2 := by decide

theorem test_witness_PrefixesThatAreNotAllowed :
    decode .mode64 [0x66, 0x0F, 0xF1, 0xC1] = .ok (.ssePsllwRm 0 (.reg 1), 4) ∧
    decode .mode64 [0xC5, 0xE9, 0xF1, 0xCB] = .ok (.vex128PsllwRm 1 2 (.reg 3), 4) ∧
    isRex 0x40 = true ∧ isRex 0x4F = true := by
  refine ⟨?_, ?_, ?_, ?_⟩ <;> rfl

/-- 12 prefixes before an instruction of 4 bytes: 16 bytes, one too many. -/
theorem test_witness_TooLongIsGp :
    (Instr.mmxPsllwImm 3 4).wf .mode64 = true ∧ 15 < 12 + (encode .mode64 (.mmxPsllwImm 3 4)).length ∧
    decode .mode64 (start (List.replicate 12 0x2E#8 ++ [0x0F, 0x71, 0xF3, 0x04]) 0x2000 [] [] [] []).fetchBytes =
      .error .gpLength := by decide +kernel

/-- Each clause by a payload that meets it and no other (section 9.2). -/
theorem test_witness_IllegalEvexBits :
    ((0xF9#8).extractLsb' 0 3 = 1#3 ∧ (0xF9#8).getLsbD 3 = true) ∧
    ((0xF1#8).extractLsb' 0 3 = 1#3 ∧ (0x69#8).extractLsb' 0 2 = 1#2 ∧ (0x69#8).getLsbD 2 = false) ∧
    (0x68#8).extractLsb' 5 2 = 3#2 ∧
    ((0xF5#8).getLsbD 7 = true ∧ (0x75#8).getLsbD 7 = false ∧ (ModRM.ofByte 0xF3).reg = 6#3) ∧
    ((0x18#8).getLsbD 4 = true ∧ (ModRM.ofByte 0xF3).mod = 3#2) ∧
    ((0x88#8).getLsbD 7 = true ∧ (0x88#8).extractLsb' 0 3 = 0#3) := by decide

/-- Base register 0; and rm = 5, which is addressed through SS. -/
theorem test_witness_CompressedDisplacement :
    (0#3 : BitVec 3) ≠ 4#3 ∧ (5#3 : BitVec 3) ≠ 4#3 ∧
    decode .mode64 [0x62, 0xF1, 0xF5, 0x58, 0x73, 0x70, 0x01, 0x01] =
      .ok (.evex512PsllqImm 1 ⟨0, false⟩ (.bcst (at64 0 8)) 1, 8) := by
  refine ⟨?_, ?_, ?_⟩
  · decide
  · decide
  · rfl

theorem test_witness_RexDoesNotExtendMmx :
    decode .mode64 [0x45, 0x0F, 0xF1, 0xC1] = .ok (.mmxPsllwRm 0 (.reg 1), 4) ∧ (0#3 : BitVec 3) ≠ 4#3 ∧
    (0#3 : BitVec 3) ≠ 5#3 ∧
    decode .mode64 [0x42, 0x0F, 0xF1, 0x04, 0x20] =
      .ok (.mmxPsllwRm 0 (.mem ⟨.ds, .wide true (.gpr 0) (some 12) 0 0⟩), 5) := by
  refine ⟨?_, ?_, ?_, ?_⟩ <;> first | rfl | decide

/-- In a 16-bit code segment an SSE128, a VEX and an EVEX form; and C4 prefixes that name a register above 7 by B alone and
by vvvv alone. -/
theorem test_witness_PrefixesOutside64BitMode :
    Mode.prot32 ≠ .mode64 ∧ (0x3F#8).extractLsb' 6 2 ≠ 3#2 ∧ (0xBF#8).extractLsb' 6 2 ≠ 3#2 ∧ isRex 0x48 = true ∧
    decode .prot32 [0xC5, 0xF5, 0x72, 0xF2, 0x05] = .ok (.vex256PslldImm 1 2 5, 5) ∧
    decode .mode16 [0x66, 0x0F, 0xF1, 0xC1] = .ok (.ssePsllwRm 0 (.reg 1), 4) ∧
    decode .mode16 [0xC5, 0xE9, 0xF1, 0xCB] = .ok (.vex128PsllwRm 1 2 (.reg 3), 4) ∧
    decode .mode16 [0x62, 0xF1, 0x6D, 0x08, 0xF2, 0xCB] = .ok (.evex128PslldRm 1 ⟨0, false⟩ 2 (.reg 3), 6) ∧
    ((0xC1#8).extractLsb' 6 2 = 3#2 ∧ (0xC1#8).extractLsb' 0 5 = 1#5 ∧ (0x79#8).extractLsb' 0 2 = 1#2 ∧
      (0xC1#8).getLsbD 5 = false ∧ (0x79#8).getLsbD 6 = true) ∧
    ((0xE1#8).extractLsb' 6 2 = 3#2 ∧ (0xE1#8).extractLsb' 0 5 = 1#5 ∧ (0x39#8).extractLsb' 0 2 = 1#2 ∧
      (0xE1#8).getLsbD 5 = true ∧ (0x39#8).getLsbD 6 = false) := by
  refine ⟨?_, ?_, ?_, ?_, ?_, ?_, ?_, ?_, ?_, ?_⟩ <;> first | rfl | decide

end Sys2Proof.Tests
end

