-- ==== Sys2Proof/Proofs/Classes.lean ====
section
/-! SUPPORT. The 42 instructions as ten classes with the element width (and the vector length) as arguments: every
instruction is one of a class, and what an instruction names and does is said once for each class. -/

namespace Sys2Proof

/-- The vector length that VEX.L stands for (30_encoding.md R89, R109). -/
def vexLen : Bool → VLen
  | false => .v128
  | true => .v256

/-- A statement that holds of every class holds of every instruction. -/
theorem Instr.byClass {motive : Instr → Prop}
    (mmxRm : ∀ e dst cnt, motive (mmxRm e dst cnt))
    (mmxImm : ∀ e dst imm, motive (mmxImm e dst imm))
    (sseRm : ∀ e dst cnt, motive (sseRm e dst cnt))
    (sseImm : ∀ e dst imm, motive (sseImm e dst imm))
    (vexRm : ∀ l e dst src cnt, motive (vexRm l e dst src cnt))
    (vexImm : ∀ l e dst src imm, motive (vexImm l e dst src imm))
    (evexRm : ∀ l e dst msk src cnt, motive (evexRm l e dst msk src cnt))
    (evexImmW : ∀ l dst msk src imm, motive (evexImmW l dst msk src imm))
    (evexImmD : ∀ l dst msk src imm, motive (evexImmD l dst msk src imm))
    (evexImmQ : ∀ l dst msk src imm, motive (evexImmQ l dst msk src imm)) (i : Instr) : motive i := by
  cases i with
  | mmxPsllwRm a c => exact mmxRm .w a c
  | mmxPslldRm a c => exact mmxRm .d a c
  | mmxPsllqRm a c => exact mmxRm .q a c
  | mmxPsllwImm a n => exact mmxImm .w a n
  | mmxPslldImm a n => exact mmxImm .d a n
  | mmxPsllqImm a n => exact mmxImm .q a n
  | ssePsllwRm a c => exact sseRm .w a c
  | ssePslldRm a c => exact sseRm .d a c
  | ssePsllqRm a c => exact sseRm .q a c
  | ssePsllwImm a n => exact sseImm .w a n
  | ssePslldImm a n => exact sseImm .d a n
  | ssePsllqImm a n => exact sseImm .q a n
  | vex128PsllwRm a b c => exact vexRm false .w a b c
  | vex128PslldRm a b c => exact vexRm false .d a b c
  | vex128PsllqRm a b c => exact vexRm false .q a b c
  | vex256PsllwRm a b c => exact vexRm true .w a b c
  | vex256PslldRm a b c => exact vexRm true .d a b c
  | vex256PsllqRm a b c => exact vexRm true .q a b c
  | vex128PsllwImm a b n => exact vexImm false .w a b n
  | vex128PslldImm a b n => exact vexImm false .d a b n
  | vex128PsllqImm a b n => exact vexImm false .q a b n
  | vex256PsllwImm a b n => exact vexImm true .w a b n
  | vex256PslldImm a b n => exact vexImm true .d a b n
  | vex256PsllqImm a b n => exact vexImm true .q a b n
  | evex128PsllwRm a k b c => exact evexRm .v128 .w a k b c
  | evex256PsllwRm a k b c => exact evexRm .v256 .w a k b c
  | evex512PsllwRm a k b c => exact evexRm .v512 .w a k b c
  | evex128PslldRm a k b c => exact evexRm .v128 .d a k b c
  | evex256PslldRm a k b c => exact evexRm .v256 .d a k b c
  | evex512PslldRm a k b c => exact evexRm .v512 .d a k b c
  | evex128PsllqRm a k b c => exact evexRm .v128 .q a k b c
  | evex256PsllqRm a k b c => exact evexRm .v256 .q a k b c
  | evex512PsllqRm a k b c => exact evexRm .v512 .q a k b c
  | evex128PsllwImm a k b n => exact evexImmW .v128 a k b n
  | evex256PsllwImm a k b n => exact evexImmW .v256 a k b n
  | evex512PsllwImm a k b n => exact evexImmW .v512 a k b n
  | evex128PslldImm a k b n => exact evexImmD .v128 a k b n
  | evex256PslldImm a k b n => exact evexImmD .v256 a k b n
  | evex512PslldImm a k b n => exact evexImmD .v512 a k b n
  | evex128PsllqImm a k b n => exact evexImmQ .v128 a k b n
  | evex256PsllqImm a k b n => exact evexImmQ .v256 a k b n
  | evex512PsllqImm a k b n => exact evexImmQ .v512 a k b n

section Names

variable (l : VLen) (l' : Bool) (e : Elem) (r : MmReg) (dst src : VReg) (msk : Masking) (mc : RegMem MmReg)
  (cnt : RegMem VReg) (d : DataSrc) (imm : Byte)

/-! ## The form -/

@[simp] theorem form_mmxRm : (mmxRm e r mc).form = .mmx e .var := by cases e <;> rfl
@[simp] theorem form_mmxImm : (mmxImm e r imm).form = .mmx e .imm := by cases e <;> rfl
@[simp] theorem form_sseRm : (sseRm e dst cnt).form = .sse e .var := by cases e <;> rfl
@[simp] theorem form_sseImm : (sseImm e dst imm).form = .sse e .imm := by cases e <;> rfl
@[simp] theorem form_vexRm : (vexRm l' e dst src cnt).form = .vex (vexLen l') e .var := by cases l' <;> cases e <;> rfl
@[simp] theorem form_vexImm : (vexImm l' e dst src imm).form = .vex (vexLen l') e .imm := by cases l' <;> cases e <;> rfl
@[simp] theorem form_evexRm : (evexRm l e dst msk src cnt).form = .evex l e .var := by cases l <;> cases e <;> rfl
@[simp] theorem form_evexImmW : (evexImmW l dst msk cnt imm).form = .evex l .w .imm := by cases l <;> rfl
@[simp] theorem form_evexImmD : (evexImmD l dst msk d imm).form = .evex l .d .imm := by cases l <;> rfl
@[simp] theorem form_evexImmQ : (evexImmQ l dst msk d imm).form = .evex l .q .imm := by cases l <;> rfl

/-! ## The destination -/

@[simp] theorem dest_mmxRm : (mmxRm e r mc).dest = .mm r := by cases e <;> rfl
@[simp] theorem dest_mmxImm : (mmxImm e r imm).dest = .mm r := by cases e <;> rfl
@[simp] theorem dest_sseRm : (sseRm e dst cnt).dest = .v dst := by cases e <;> rfl
@[simp] theorem dest_sseImm : (sseImm e dst imm).dest = .v dst := by cases e <;> rfl
@[simp] theorem dest_vexRm : (vexRm l' e dst src cnt).dest = .v dst := by cases l' <;> cases e <;> rfl
@[simp] theorem dest_vexImm : (vexImm l' e dst src imm).dest = .v dst := by cases l' <;> cases e <;> rfl
@[simp] theorem dest_evexRm : (evexRm l e dst msk src cnt).dest = .v dst := by cases l <;> cases e <;> rfl
@[simp] theorem dest_evexImmW : (evexImmW l dst msk cnt imm).dest = .v dst := by cases l <;> rfl
@[simp] theorem dest_evexImmD : (evexImmD l dst msk d imm).dest = .v dst := by cases l <;> rfl
@[simp] theorem dest_evexImmQ : (evexImmQ l dst msk d imm).dest = .v dst := by cases l <;> rfl

/-! ## The memory operand -/

@[simp] theorem memOp?_mmxRm : (mmxRm e r mc).memOp? = mc.memOp? := by cases e <;> rfl
@[simp] theorem memOp?_mmxImm : (mmxImm e r imm).memOp? = none := by cases e <;> rfl
@[simp] theorem memOp?_sseRm : (sseRm e dst cnt).memOp? = cnt.memOp? := by cases e <;> rfl
@[simp] theorem memOp?_sseImm : (sseImm e dst imm).memOp? = none := by cases e <;> rfl
@[simp] theorem memOp?_vexRm : (vexRm l' e dst src cnt).memOp? = cnt.memOp? := by cases l' <;> cases e <;> rfl
@[simp] theorem memOp?_vexImm : (vexImm l' e dst src imm).memOp? = none := by cases l' <;> cases e <;> rfl
@[simp] theorem memOp?_evexRm : (evexRm l e dst msk src cnt).memOp? = cnt.memOp? := by cases l <;> cases e <;> rfl
@[simp] theorem memOp?_evexImmW : (evexImmW l dst msk cnt imm).memOp? = cnt.memOp? := by cases l <;> rfl
@[simp] theorem memOp?_evexImmD : (evexImmD l dst msk d imm).memOp? = d.memOp? := by cases l <;> rfl
@[simp] theorem memOp?_evexImmQ : (evexImmQ l dst msk d imm).memOp? = d.memOp? := by cases l <;> rfl

end Names

end Sys2Proof

namespace Sys2Proof.Machine

section Meanings

variable (l : VLen) (l' : Bool) (e : Elem) (r : MmReg) (dst src : VReg) (msk : Masking) (mc : RegMem MmReg)
  (cnt : RegMem VReg) (d : DataSrc) (imm : Byte) (s : State)

/-! ## The meaning -/

theorem exec_mmxRm : exec (mmxRm e r mc) s = mmxShift e.bits (.mmx e .var) r (fun s => s.mmxCount mc) s := by
  cases e <;> rfl

theorem exec_mmxImm : exec (mmxImm e r imm) s = mmxShift e.bits (.mmx e .imm) r (fun _ => .ok (immCount imm)) s := by
  cases e <;> rfl

theorem exec_sseRm : exec (sseRm e dst cnt) s = sseShift e.bits (.sse e .var) dst (fun s => s.xmmCount .sse16 cnt) s := by
  cases e <;> rfl

theorem exec_sseImm : exec (sseImm e dst imm) s = sseShift e.bits (.sse e .imm) dst (fun _ => .ok (immCount imm)) s := by
  cases e <;> rfl

theorem exec_vexRm : exec (vexRm l' e dst src cnt) s =
    vexShift (vexLen l').bits e.bits (.vex (vexLen l') e .var) dst src (fun s => s.xmmCount .any cnt) s := by
  cases l' <;> cases e <;> rfl

theorem exec_vexImm : exec (vexImm l' e dst src imm) s =
    vexShift (vexLen l').bits e.bits (.vex (vexLen l') e .imm) dst src (fun _ => .ok (immCount imm)) s := by
  cases l' <;> cases e <;> rfl

theorem exec_evexRm : exec (evexRm l e dst msk src cnt) s = evexShift l.bits e.bits (.evex l e .var) dst msk src cnt s := by
  cases l <;> cases e <;> rfl

theorem exec_evexImmW : exec (evexImmW l dst msk cnt imm) s =
    evexImmShift l.bits Elem.w.bits (.evex l .w .imm) dst msk (fun s => s.wholeSource l.bits cnt) imm s := by
  cases l <;> rfl

theorem exec_evexImmD : exec (evexImmD l dst msk d imm) s =
    evexImmShift l.bits Elem.d.bits (.evex l .d .imm) dst msk (fun s => s.dataSource l.bits Elem.d.bits msk d) imm s := by
  cases l <;> rfl

theorem exec_evexImmQ : exec (evexImmQ l dst msk d imm) s =
    evexImmShift l.bits Elem.q.bits (.evex l .q .imm) dst msk (fun s => s.dataSource l.bits Elem.q.bits msk d) imm s := by
  cases l <;> rfl

end Meanings

/-! ## What an instruction writes -/

/-- The state an instruction of each class leaves: an MMX form writes its MMX register and X87, an SSE128 form the low 128
bits of its vector register, a VEX or EVEX form the whole of it. -/
inductive Instr.Writes (i : Instr) (s : State) : State → Prop
  | mmx {dst : MmReg} (a : Qword) (hd : i.dest = .mm dst) (hf : isMmx i.form = true) : Writes i s (s.writeMmx dst a)
  | sse {dst : VReg} (a : BitVec 128) (hd : i.dest = .v dst) (hf : isMmx i.form = false) : Writes i s (s.writeSse dst a)
  | zeroUpper {dst : VReg} {W : Nat} (a : BitVec W) (hd : i.dest = .v dst) (hf : isMmx i.form = false)
      (hs : ∀ e c, i.form ≠ .sse e c) : Writes i s (s.writeZeroUpper dst a)

/-- The completed run of a form leaves what its body leaves. -/
theorem writes_of_withOperand_next {α : Type} {i : Instr} {s t : State} {f : Form} {operand : Except Fault α}
    {body : α → State} (h : s.withOperand f operand body = .next t) (hf : i.form = f) (hw : ∀ a, Instr.Writes i s (body a)) :
    s.ready i.form = true ∧ Instr.Writes i s t := by
  obtain ⟨hr, a, -, rfl⟩ := (State.withOperand_next_iff ..).mp h
  exact ⟨hf ▸ hr, hw a⟩

/-- An instruction that completes was ready, and leaves what its class writes. -/
theorem writes_of_exec_next {i : Instr} {s t : State} (h : exec i s = .next t) :
    s.ready i.form = true ∧ Instr.Writes i s t := by
  induction i using Instr.byClass with
  | mmxRm e dst cnt =>
    exact writes_of_withOperand_next (exec_mmxRm .. ▸ h) (form_mmxRm ..) fun _ => .mmx _ (by simp) (by simp [isMmx])
  | mmxImm e dst imm =>
    exact writes_of_withOperand_next (exec_mmxImm .. ▸ h) (form_mmxImm ..) fun _ => .mmx _ (by simp) (by simp [isMmx])
  | sseRm e dst cnt =>
    exact writes_of_withOperand_next (exec_sseRm .. ▸ h) (form_sseRm ..) fun _ => .sse _ (by simp) (by simp [isMmx])
  | sseImm e dst imm =>
    exact writes_of_withOperand_next (exec_sseImm .. ▸ h) (form_sseImm ..) fun _ => .sse _ (by simp) (by simp [isMmx])
  | vexRm l e dst src cnt =>
    exact writes_of_withOperand_next (exec_vexRm .. ▸ h) (form_vexRm ..) fun _ =>
      .zeroUpper _ (by simp) (by simp [isMmx]) (by simp)
  | vexImm l e dst src imm =>
    exact writes_of_withOperand_next (exec_vexImm .. ▸ h) (form_vexImm ..) fun _ =>
      .zeroUpper _ (by simp) (by simp [isMmx]) (by simp)
  | evexRm l e dst msk src cnt =>
    exact writes_of_withOperand_next (exec_evexRm .. ▸ h) (form_evexRm ..) fun _ =>
      .zeroUpper _ (by simp) (by simp [isMmx]) (by simp)
  | evexImmW l dst msk src imm =>
    exact writes_of_withOperand_next (exec_evexImmW .. ▸ h) (form_evexImmW ..) fun _ =>
      .zeroUpper _ (by simp) (by simp [isMmx]) (by simp)
  | evexImmD l dst msk src imm =>
    exact writes_of_withOperand_next (exec_evexImmD .. ▸ h) (form_evexImmD ..) fun _ =>
      .zeroUpper _ (by simp) (by simp [isMmx]) (by simp)
  | evexImmQ l dst msk src imm =>
    exact writes_of_withOperand_next (exec_evexImmQ .. ▸ h) (form_evexImmQ ..) fun _ =>
      .zeroUpper _ (by simp) (by simp [isMmx]) (by simp)

/-- Beside pc and the destination nothing changes (10_state.md R44). -/
theorem Instr.Writes.keepsBut {i : Instr} {s t : State} (h : Instr.Writes i s t) : s.keepsBut t i.dest := by
  cases h with
  | mmx a hd => rw [hd]; exact State.keepsBut_writeMmx s _ a
  | sse a hd => rw [hd]; exact State.keepsBut_writeSse s _ a
  | zeroUpper a hd => rw [hd]; exact State.keepsBut_writeZeroUpper s _ a

/-- The state left differs from the old one in the register files, X87 (of which X87Pending is kept) and pc alone. -/
theorem Instr.Writes.rest {i : Instr} {s t : State} (h : Instr.Writes i s t) :
    t.pc = s.nextPc ∧ t.mem = s.mem ∧ t.k = s.k ∧ t.flags = s.flags ∧ t.ctrl = s.ctrl ∧ t.segs = s.segs ∧ t.cfg = s.cfg ∧
      t.ilen = s.ilen ∧ t.x87.pending = s.x87.pending := by
  cases h <;> exact ⟨rfl, rfl, rfl, rfl, rfl, rfl, rfl, rfl, rfl⟩

/-- An SSE128 form keeps bits 511:128 of its destination (40_shift_core.md R141). -/
theorem Instr.Writes.upper_of_sse {i : Instr} {s t : State} (h : Instr.Writes i s t) {dst : VReg} (hd : i.dest = .v dst)
    {e : Elem} {c : CountKind} (hf : i.form = .sse e c) : (t.v dst).toNat / 2 ^ 128 = (s.v dst).toNat / 2 ^ 128 := by
  cases h with
  | mmx a hd' => rw [hd'] at hd; cases hd
  | sse a hd' =>
    rw [hd'] at hd
    cases hd
    exact State.upper_writeSse s dst a
  | zeroUpper a _ _ hs => exact absurd hf (hs e c)

/-! ## The pc of a fault (60_exceptions.md R228) -/

@[simp] theorem pc_raise (s : State) (x : Exc) : (s.raise x).pc = s.pc := by cases x <;> rfl

theorem pc_of_formFault {s : State} {f : Form} {x : Fault} (h : s.formFault f = some x) : x.pc = s.pc := by
  rcases State.formFault_cases h with ⟨rfl, -⟩ | ⟨rfl, -⟩ | ⟨rfl, -⟩ <;> rfl

theorem pc_of_accessFault {s : State} {m : MemOp} {rule : AlignRule} {offs : List Nat} {x : Fault}
    (h : s.accessFault m rule offs = some x) : x.pc = s.pc := by
  rcases State.accessFault_cases h with ⟨rfl, -⟩ | ⟨rfl, -⟩ | ⟨rfl, -⟩ | ⟨_, -, _, -, rfl⟩ | ⟨rfl, -⟩ | ⟨_, -, -, rfl⟩
  case inr.inl => exact pc_raise s _
  all_goals rfl

theorem pc_of_stuck {s : State} {m : MemOp} {n : Nat} {x : Fault} (h : s.stuck m n = some x) : x.pc = s.pc := by
  obtain ⟨_, -, -, rfl⟩ := State.stuck_cases h
  rfl

theorem pc_of_memRead_error {s : State} {W : Nat} {m : MemOp} {rule : AlignRule} {n : Nat} {x : Fault}
    (h : s.memRead W m rule n = .error x) : x.pc = s.pc :=
  pc_of_accessFault ((State.memRead_error_iff ..).mp h)

/-- A mapped result has the error of the result. -/
theorem map_eq_error_iff {ε α β : Type} (f : α → β) (r : Except ε α) (x : ε) : r.map f = .error x ↔ r = .error x := by
  cases r <;> simp [Except.map]

theorem pc_of_mmxCount_error {s : State} {cnt : RegMem MmReg} {x : Fault} (h : s.mmxCount cnt = .error x) :
    x.pc = s.pc := by
  cases cnt with
  | reg r => cases h
  | mem m => exact pc_of_memRead_error ((map_eq_error_iff ..).mp h)

theorem pc_of_xmmCount_error {s : State} {rule : AlignRule} {cnt : RegMem VReg} {x : Fault}
    (h : s.xmmCount rule cnt = .error x) : x.pc = s.pc := by
  cases cnt with
  | reg r => cases h
  | mem m => exact pc_of_memRead_error ((map_eq_error_iff ..).mp h)

theorem pc_of_wholeSource_error {s : State} {VL : Nat} {src : RegMem VReg} {x : Fault}
    (h : s.wholeSource VL src = .error x) : x.pc = s.pc := by
  cases src with
  | reg r => cases h
  | mem m => exact pc_of_memRead_error h

/-- The checks of a row F operand report pc. -/
theorem pc_of_rowFault {s : State} {m : MemOp} {offs : List Nat} {n : Nat} {x : Fault}
    (h : (s.accessFault m .any offs).or (s.stuck m n) = some x) : x.pc = s.pc := by
  rcases Option.or_eq_some_iff.mp h with h | ⟨-, h⟩
  · exact pc_of_accessFault h
  · exact pc_of_stuck h

theorem pc_of_dataSource_error {s : State} {VL N : Nat} {k : Masking} {src : DataSrc} {x : Fault}
    (h : s.dataSource VL N k src = .error x) : x.pc = s.pc := by
  cases src with
  | reg r => cases h
  | mem m => exact pc_of_rowFault ((State.dataSource_mem_error_iff ..).mp h)
  | bcst m => exact pc_of_rowFault ((State.dataSource_bcst_error_iff ..).mp h)

/-- A form whose operand reports pc reports pc. -/
theorem pc_of_withOperand_fault {α : Type} {s : State} {f : Form} {operand : Except Fault α} {body : α → State}
    {x : Fault} (h : s.withOperand f operand body = .fault x) (ho : operand = .error x → x.pc = s.pc) : x.pc = s.pc := by
  rcases (State.withOperand_fault_iff ..).mp h with h | ⟨-, h⟩
  · exact pc_of_formFault h
  · exact ho h

/-- Every fault of an instruction reports the unchanged pc. -/
theorem pc_of_exec_fault {i : Instr} {s : State} {x : Fault} (h : exec i s = .fault x) : x.pc = s.pc := by
  induction i using Instr.byClass with
  | mmxRm e dst cnt => exact pc_of_withOperand_fault (exec_mmxRm .. ▸ h) pc_of_mmxCount_error
  | mmxImm e dst imm => exact pc_of_withOperand_fault (exec_mmxImm .. ▸ h) (by nofun)
  | sseRm e dst cnt => exact pc_of_withOperand_fault (exec_sseRm .. ▸ h) pc_of_xmmCount_error
  | sseImm e dst imm => exact pc_of_withOperand_fault (exec_sseImm .. ▸ h) (by nofun)
  | vexRm l e dst src cnt => exact pc_of_withOperand_fault (exec_vexRm .. ▸ h) pc_of_xmmCount_error
  | vexImm l e dst src imm => exact pc_of_withOperand_fault (exec_vexImm .. ▸ h) (by nofun)
  | evexRm l e dst msk src cnt => exact pc_of_withOperand_fault (exec_evexRm .. ▸ h) pc_of_xmmCount_error
  | evexImmW l dst msk src imm => exact pc_of_withOperand_fault (exec_evexImmW .. ▸ h) pc_of_wholeSource_error
  | evexImmD l dst msk src imm => exact pc_of_withOperand_fault (exec_evexImmD .. ▸ h) pc_of_dataSource_error
  | evexImmQ l dst msk src imm => exact pc_of_withOperand_fault (exec_evexImmQ .. ▸ h) pc_of_dataSource_error

end Sys2Proof.Machine
end

