-- ==== Sys2Proof/Proofs/Noninterference.lean ====
section
/-! SUPPORT. What an instruction reads and writes: when a change of the state passes through it. -/

namespace Sys2Proof.Machine

/-! ## A change that the operands do not see -/

/-- Two states give the same answers to every check and read of the memory operand `m`. -/
structure State.SameMemory (s t : State) (m : MemOp) : Prop where
  accessFault : ∀ rule offs, t.accessFault m rule offs = s.accessFault m rule offs
  stuck : ∀ n, t.stuck m n = s.stuck m n
  operandByte : t.operandByte m = s.operandByte m

/-- Two states have the same element activity in a form with elements of width N in VL bits, and the same fault suppression. -/
structure State.SameMasks (s t : State) (VL N : Nat) : Prop where
  suppress : t.cfg.faultSuppressF = s.cfg.faultSuppressF
  bits : ∀ r : Fin 8, r ≠ 0 → ∀ j, j < VL / N → bit (t.kr r) j = bit (s.kr r) j

theorem memRead_congr {s t : State} {m : MemOp} (h : s.SameMemory t m) (W : Nat) (rule : AlignRule) (n : Nat) :
    t.memRead W m rule n = s.memRead W m rule n := by
  simp only [State.memRead, State.operandValue, h.accessFault, h.operandByte]

theorem mmxCount_congr {s t : State} {cnt : RegMem MmReg} (hr : ∀ r, t.mmr r = s.mmr r)
    (hm : ∀ m, cnt.memOp? = some m → s.SameMemory t m) : t.mmxCount cnt = s.mmxCount cnt := by
  cases cnt with
  | reg r => simp only [State.mmxCount, hr]
  | mem m => simp only [State.mmxCount, memRead_congr (hm m rfl)]

theorem xmmCount_congr {s t : State} {rule : AlignRule} {cnt : RegMem VReg} (hr : ∀ r, t.v r = s.v r)
    (hm : ∀ m, cnt.memOp? = some m → s.SameMemory t m) : t.xmmCount rule cnt = s.xmmCount rule cnt := by
  cases cnt with
  | reg r => simp only [State.xmmCount, hr]
  | mem m => simp only [State.xmmCount, memRead_congr (hm m rfl)]

theorem wholeSource_congr {s t : State} {VL : Nat} {src : RegMem VReg} (hr : ∀ r, t.v r = s.v r)
    (hm : ∀ m, src.memOp? = some m → s.SameMemory t m) : t.wholeSource VL src = s.wholeSource VL src := by
  cases src with
  | reg r => simp only [State.wholeSource, hr]
  | mem m => simp only [State.wholeSource, memRead_congr (hm m rfl)]

/-! ## Masks -/

theorem active_congr {s t : State} {VL N : Nat} (h : s.SameMasks t VL N) (k : Masking) {j : Nat} (hj : j < VL / N) :
    t.active k j = s.active k j := by
  by_cases hk : k.aaa = 0
  · simp [State.active, hk]
  · simp [State.active, h.bits k.aaa hk j hj]

/-- A byte of a vector lies in one of its elements. -/
theorem byte_in_element (l : VLen) (e : Elem) {o : Nat} (ho : o < l.bits / 8) : o / (e.bits / 8) < l.bits / e.bits := by
  cases l <;> cases e <;> simp only [VLen.bits, Elem.bits] at ho ⊢ <;> omega

theorem fullOffsets_congr {s t : State} {l : VLen} {e : Elem} (h : s.SameMasks t l.bits e.bits) (k : Masking) :
    t.fullOffsets l.bits e.bits k = s.fullOffsets l.bits e.bits k := by
  refine List.filter_congr fun o ho => ?_
  rw [h.suppress, active_congr h k (byte_in_element l e (List.mem_range.mp ho))]

theorem bcstOffsets_congr {s t : State} {VL N : Nat} (h : s.SameMasks t VL N) (k : Masking) :
    t.bcstOffsets VL N k = s.bcstOffsets VL N k := by
  have hany : (List.range (VL / N)).any (t.active k) = (List.range (VL / N)).any (s.active k) := by
    rw [Bool.eq_iff_iff, List.any_eq_true, List.any_eq_true]
    exact exists_congr fun j => and_congr_right fun hj => by rw [active_congr h k (List.mem_range.mp hj)]
  simp only [State.bcstOffsets, h.suppress, hany]

theorem dataSource_congr {s t : State} {l : VLen} {e : Elem} {k : Masking} {src : DataSrc} (hr : ∀ r, t.v r = s.v r)
    (hk : s.SameMasks t l.bits e.bits) (hm : ∀ m, src.memOp? = some m → s.SameMemory t m) :
    t.dataSource l.bits e.bits k src = s.dataSource l.bits e.bits k src := by
  cases src with
  | reg r => simp only [State.dataSource, hr]
  | mem m =>
    have h := hm m rfl
    simp only [State.dataSource, h.accessFault, h.stuck, h.operandByte, fullOffsets_congr hk]
  | bcst m =>
    have h := hm m rfl
    simp only [State.dataSource, h.accessFault, h.stuck, h.operandByte, bcstOffsets_congr hk]

theorem packLanes_congr (W : Nat) {N n : Nat} {f g : Nat → BitVec N} (h : ∀ j, j < n → f j = g j) :
    packLanes W N f n = packLanes W N g n := by
  induction n with
  | zero => rfl
  | succ n ih => rw [packLanes, packLanes, ih fun j hj => h j (Nat.lt_succ_of_lt hj), h n (Nat.lt_succ_self n)]

/-- Of the mask, a masked write reads the bits below KL of a register other than K[0] (10_state.md R28). -/
theorem maskWrite_congr {s t : State} {VL N : Nat} (h : s.SameMasks t VL N) (k : Masking) (tmp old : BitVec VL) :
    maskWrite VL N tmp old (t.kr k.aaa) (k.aaa == 0) k.z = maskWrite VL N tmp old (s.kr k.aaa) (k.aaa == 0) k.z :=
  packLanes_congr VL fun j hj => by
    have ha : (k.aaa == 0 || bit (t.kr k.aaa) j) = (k.aaa == 0 || bit (s.kr k.aaa) j) := active_congr h k hj
    rw [ha]

/-! ## A change that passes through an instruction -/

/-- The change `F` of the state is not seen by instruction `i` in state `s`, and what `i` writes does not undo it. -/
structure PassesThrough (F : State → State) (i : Instr) (s : State) : Prop where
  checks : (F s).formFault i.form = s.formFault i.form
  mmr : isMmx i.form = true → ∀ r, (F s).mmr r = s.mmr r
  writeMmx : isMmx i.form = true → ∀ r a, (F s).writeMmx r a = F (s.writeMmx r a)
  v : isMmx i.form = false → ∀ r, (F s).v r = s.v r
  writeV : isMmx i.form = false → ∀ r a, ((F s).setV r a).advance = F (s.setV r a).advance
  memory : ∀ m, i.memOp? = some m → s.SameMemory (F s) m
  masks : ∀ l e c, i.form = .evex l e c → s.SameMasks (F s) l.bits e.bits

theorem withOperand_mapNext {α : Type} {F : State → State} {s : State} {f : Form} {operand operand' : Except Fault α}
    {body body' : α → State} (hf : (F s).formFault f = s.formFault f) (ho : operand' = operand)
    (hb : ∀ a, body' a = F (body a)) :
    (F s).withOperand f operand' body' = Result.mapNext F (s.withOperand f operand body) := by
  subst ho
  unfold State.withOperand
  rw [hf]
  cases s.formFault f with
  | some x => rfl
  | none =>
    cases operand' with
    | error x => rfl
    | ok a => exact congrArg Host.Outcome.next (hb a)

section Classes

variable {F : State → State} {i : Instr} {s : State}

theorem mmxShift_mapNext (h : PassesThrough F i s) {e : Elem} {c : CountKind} (hf : i.form = .mmx e c) {dst : MmReg}
    {count : State → Except Fault Nat} (hc : count (F s) = count s) :
    mmxShift e.bits (.mmx e c) dst count (F s) = Result.mapNext F (mmxShift e.bits (.mmx e c) dst count s) := by
  have hm : isMmx i.form = true := by rw [hf]; rfl
  refine withOperand_mapNext (hf ▸ h.checks) hc fun a => ?_
  rw [h.mmr hm, h.writeMmx hm]

theorem sseShift_mapNext (h : PassesThrough F i s) {e : Elem} {c : CountKind} (hf : i.form = .sse e c) {dst : VReg}
    {count : State → Except Fault Nat} (hc : count (F s) = count s) :
    sseShift e.bits (.sse e c) dst count (F s) = Result.mapNext F (sseShift e.bits (.sse e c) dst count s) := by
  have hm : isMmx i.form = false := by rw [hf]; rfl
  refine withOperand_mapNext (hf ▸ h.checks) hc fun a => ?_
  rw [State.writeSse, State.writeSse, h.v hm, h.writeV hm]

theorem vexShift_mapNext (h : PassesThrough F i s) {l : VLen} {e : Elem} {c : CountKind} (hf : i.form = .vex l e c)
    {dst src : VReg} {count : State → Except Fault Nat} (hc : count (F s) = count s) :
    vexShift l.bits e.bits (.vex l e c) dst src count (F s) =
      Result.mapNext F (vexShift l.bits e.bits (.vex l e c) dst src count s) := by
  have hm : isMmx i.form = false := by rw [hf]; rfl
  refine withOperand_mapNext (hf ▸ h.checks) hc fun a => ?_
  rw [State.writeZeroUpper, State.writeZeroUpper, h.v hm, h.writeV hm]

theorem writeMasked_mapNext (h : PassesThrough F i s) {l : VLen} {e : Elem} {c : CountKind} (hf : i.form = .evex l e c)
    (dst : VReg) (k : Masking) (tmp : BitVec l.bits) :
    (F s).writeMasked l.bits e.bits dst k tmp = F (s.writeMasked l.bits e.bits dst k tmp) := by
  have hm : isMmx i.form = false := by rw [hf]; rfl
  rw [State.writeMasked, State.writeMasked, maskWrite_congr (h.masks l e c hf), h.v hm, State.writeZeroUpper,
    State.writeZeroUpper, h.writeV hm]

theorem evexShift_mapNext (h : PassesThrough F i s) {l : VLen} {e : Elem} (hf : i.form = .evex l e .var) {dst src : VReg}
    {k : Masking} {cnt : RegMem VReg} (hm : i.memOp? = cnt.memOp?) :
    evexShift l.bits e.bits (.evex l e .var) dst k src cnt (F s) =
      Result.mapNext F (evexShift l.bits e.bits (.evex l e .var) dst k src cnt s) := by
  have hv := h.v (by rw [hf]; rfl)
  refine withOperand_mapNext (hf ▸ h.checks) (xmmCount_congr hv (hm ▸ h.memory)) fun a => ?_
  rw [hv, writeMasked_mapNext h hf]

theorem evexImmShift_mapNext (h : PassesThrough F i s) {l : VLen} {e : Elem} (hf : i.form = .evex l e .imm) {dst : VReg}
    {k : Masking} {source : State → Except Fault (BitVec l.bits)} {imm : Byte} (hs : source (F s) = source s) :
    evexImmShift l.bits e.bits (.evex l e .imm) dst k source imm (F s) =
      Result.mapNext F (evexImmShift l.bits e.bits (.evex l e .imm) dst k source imm s) :=
  withOperand_mapNext (hf ▸ h.checks) hs fun _ => writeMasked_mapNext h hf ..

end Classes

/-- A change that an instruction does not see passes through it: the outcome is the old one, with the change. -/
theorem exec_mapNext {F : State → State} {i : Instr} {s : State} (h : PassesThrough F i s) :
    exec i (F s) = Result.mapNext F (exec i s) := by
  induction i using Instr.byClass with
  | mmxRm e dst cnt =>
    simp only [exec_mmxRm]
    exact mmxShift_mapNext h (form_mmxRm ..) (mmxCount_congr (h.mmr (by simp [isMmx])) (memOp?_mmxRm .. ▸ h.memory))
  | mmxImm e dst imm =>
    simp only [exec_mmxImm]
    exact mmxShift_mapNext h (form_mmxImm ..) rfl
  | sseRm e dst cnt =>
    simp only [exec_sseRm]
    exact sseShift_mapNext h (form_sseRm ..) (xmmCount_congr (h.v (by simp [isMmx])) (memOp?_sseRm .. ▸ h.memory))
  | sseImm e dst imm =>
    simp only [exec_sseImm]
    exact sseShift_mapNext h (form_sseImm ..) rfl
  | vexRm l e dst src cnt =>
    simp only [exec_vexRm]
    exact vexShift_mapNext h (form_vexRm ..) (xmmCount_congr (h.v (by simp [isMmx])) (memOp?_vexRm .. ▸ h.memory))
  | vexImm l e dst src imm =>
    simp only [exec_vexImm]
    exact vexShift_mapNext h (form_vexImm ..) rfl
  | evexRm l e dst msk src cnt =>
    simp only [exec_evexRm]
    exact evexShift_mapNext h (form_evexRm ..) (memOp?_evexRm ..)
  | evexImmW l dst msk src imm =>
    simp only [exec_evexImmW]
    exact evexImmShift_mapNext h (form_evexImmW ..)
      (wholeSource_congr (h.v (by simp [isMmx])) (memOp?_evexImmW .. ▸ h.memory))
  | evexImmD l dst msk src imm =>
    simp only [exec_evexImmD]
    exact evexImmShift_mapNext h (form_evexImmD ..)
      (dataSource_congr (h.v (by simp [isMmx])) (h.masks l .d .imm (form_evexImmD ..)) (memOp?_evexImmD .. ▸ h.memory))
  | evexImmQ l dst msk src imm =>
    simp only [exec_evexImmQ]
    exact evexImmShift_mapNext h (form_evexImmQ ..)
      (dataSource_congr (h.v (by simp [isMmx])) (h.masks l .q .imm (form_evexImmQ ..)) (memOp?_evexImmQ .. ▸ h.memory))

/-! ## FLAGS and MXCSR (10_state.md R36, R37) -/

/-- The checks before the operands depend on CTRL, VM, the parameters and, in an MMX form, X87Pending. -/
theorem formFault_congr {s t : State} {f : Form} (hpc : t.pc = s.pc) (hc : t.ctrl = s.ctrl) (hp : t.cfg = s.cfg)
    (hvm : t.flagVM = s.flagVM) (hx : isMmx f = true → t.x87.pending = s.x87.pending) : t.formFault f = s.formFault f := by
  have ha : t.avail f = s.avail f := by
    simp only [State.avail, State.realOrV86, State.em, State.osfxsr, State.osxsave, State.xcrAvx, State.xcrZmm, hc, hp, hvm]
  have hd : t.deviceReady = s.deviceReady := by simp only [State.deviceReady, hc]
  have hpend : (isMmx f && t.x87.pending) = (isMmx f && s.x87.pending) := by
    cases hm : isMmx f with
    | false => rfl
    | true => rw [hx hm]
  simp only [State.formFault, State.raise, ha, hd, hpend, hpc]

/-- Of FLAGS, the checks of a memory operand read AC alone. -/
theorem sameMemory_flags (s : State) {f : BitVec 64} (w : BitVec 32) (hac : f.getLsbD 18 = s.flags.getLsbD 18) (m : MemOp) :
    s.SameMemory { s with flags := f, mxcsr := w } m where
  accessFault rule offs := by
    have ha : State.alignCheck { s with flags := f, mxcsr := w } = s.alignCheck := by
      simp only [State.alignCheck, State.flagAC, bit, hac]
    unfold State.accessFault
    rw [ha]
    rfl
  stuck _ := rfl
  operandByte := rfl

/-- Settles O32: the change of FLAGS and MXCSR passes through, since VM and AC are the bits the checks read. -/
theorem flagsAndMxcsrDoNotMatter : Obligations.FlagsAndMxcsrDoNotMatter := by
  intro i s f w hvm hac
  exact exec_mapNext (F := fun t => { t with flags := f, mxcsr := w })
    { checks := formFault_congr rfl rfl rfl hvm fun _ => rfl
      mmr := fun _ _ => rfl
      writeMmx := fun _ _ _ => rfl
      v := fun _ _ => rfl
      writeV := fun _ _ _ => rfl
      memory := fun m _ => sameMemory_flags s w hac m
      masks := fun _ _ _ _ => ⟨rfl, fun _ _ _ _ => rfl⟩ }

/-- Settles O33: no check and no memory operand reads a mask, and the masked write reads bits KL-1:0 of K[1] to K[7]. -/
theorem maskBitsThatAreNotRead : Obligations.MaskBitsThatAreNotRead := by
  intro i s k hk
  exact exec_mapNext (F := fun t => { t with k := k })
    { checks := rfl
      mmr := fun _ _ => rfl
      writeMmx := fun _ _ _ => rfl
      v := fun _ _ => rfl
      writeV := fun _ _ _ => rfl
      memory := fun _ _ => ⟨fun _ _ => rfl, fun _ => rfl, rfl⟩
      masks := fun l e c hf => ⟨rfl, hk l e c hf⟩ }

/-- V is neither read nor written by an MMX form. -/
theorem passesThrough_vec {i : Instr} (s : State) (v : Vector Vec 32) (hm : isMmx i.form = true) :
    PassesThrough (fun t => { t with vec := v }) i s where
  checks := rfl
  mmr _ _ := rfl
  writeMmx _ _ _ := rfl
  v h := by simp [hm] at h
  writeV h := by simp [hm] at h
  memory _ _ := ⟨fun _ _ => rfl, fun _ => rfl, rfl⟩
  masks _ _ _ _ := ⟨rfl, fun _ _ _ _ => rfl⟩

/-- MM and X87 are neither read nor written by a form that is not MMX. -/
theorem passesThrough_mm_x87 {i : Instr} (s : State) (mm : Vector Qword 8) (y : X87) (hm : isMmx i.form = false) :
    PassesThrough (fun t => { t with mm := mm, x87 := y }) i s where
  checks := formFault_congr rfl rfl rfl rfl (by simp [hm])
  mmr h := by simp [hm] at h
  writeMmx h := by simp [hm] at h
  v _ _ := rfl
  writeV _ _ _ := rfl
  memory _ _ := ⟨fun _ _ => rfl, fun _ => rfl, rfl⟩
  masks _ _ _ _ := ⟨rfl, fun _ _ _ _ => rfl⟩

/-- Settles O34: each change of a register file passes through the forms that do not name it. -/
theorem registerFilesAreSeparate : Obligations.RegisterFilesAreSeparate := by
  intro i s v mm y
  exact ⟨fun hm => exec_mapNext (passesThrough_vec s v hm), fun hm => exec_mapNext (passesThrough_mm_x87 s mm y hm)⟩

/-- Settles O35: the general registers, the segment registers and memory are read for a memory operand alone. -/
theorem registerFormsReadNoAddress : Obligations.RegisterFormsReadNoAddress := by
  intro i s x g mem hi
  exact exec_mapNext (F := fun t => { t with x := x, segs := g, mem := mem })
    { checks := rfl
      mmr := fun _ _ => rfl
      writeMmx := fun _ _ _ => rfl
      v := fun _ _ => rfl
      writeV := fun _ _ _ => rfl
      memory := fun m hm => by rw [hi] at hm; cases hm
      masks := fun _ _ _ _ => ⟨rfl, fun _ _ _ _ => rfl⟩ }

end Sys2Proof.Machine
end

