-- ==== Sys2Proof/Proofs/DecodeEncode.lean ====
section
/-! SUPPORT. The decoder reads back what the encoder writes, class by class: the prefixes, the fields, the operands. -/

namespace Sys2Proof

/-! ## Encodings and well-formedness, class by class -/

section Names

variable (m : Mode) (l : VLen) (l' : Bool) (e : Elem) (r : MmReg) (dst src : VReg) (msk : Masking) (mc : RegMem MmReg)
  (cnt : RegMem VReg) (d : DataSrc) (imm : Byte)

theorem encode_mmxRm : encode m (mmxRm e r mc) = encMmxRm m e r mc := by cases e <;> rfl
theorem encode_mmxImm : encode m (mmxImm e r imm) = encMmxImm e r imm := by cases e <;> rfl
theorem encode_sseRm : encode m (sseRm e dst cnt) = encSseRm m e dst cnt := by cases e <;> rfl
theorem encode_sseImm : encode m (sseImm e dst imm) = encSseImm e dst imm := by cases e <;> rfl
theorem encode_vexRm : encode m (vexRm l' e dst src cnt) = encVexRm m l' e dst src cnt := by cases l' <;> cases e <;> rfl
theorem encode_vexImm : encode m (vexImm l' e dst src imm) = encVexImm l' e dst src imm := by cases l' <;> cases e <;> rfl
theorem encode_evexRm : encode m (evexRm l e dst msk src cnt) = encEvexRm m l e dst msk src cnt := by
  cases l <;> cases e <;> rfl
theorem encode_evexImmW : encode m (evexImmW l dst msk cnt imm) = encEvexImmW m l dst msk cnt imm := by cases l <;> rfl
theorem encode_evexImmD : encode m (evexImmD l dst msk d imm) = encEvexImm m l .d dst msk d imm := by cases l <;> rfl
theorem encode_evexImmQ : encode m (evexImmQ l dst msk d imm) = encEvexImm m l .q dst msk d imm := by cases l <;> rfl

theorem operandsWf_mmxRm : (mmxRm e r mc).operandsWf m = mc.wfMm m := by cases e <;> rfl
theorem operandsWf_sseRm : (sseRm e dst cnt).operandsWf m = (wfVex m dst && cnt.wfV m m.vexRegs) := by cases e <;> rfl
theorem operandsWf_sseImm : (sseImm e dst imm).operandsWf m = wfVex m dst := by cases e <;> rfl
theorem operandsWf_vexRm : (vexRm l' e dst src cnt).operandsWf m = (wfVex m dst && wfVex m src && cnt.wfV m m.vexRegs) := by
  cases l' <;> cases e <;> rfl
theorem operandsWf_vexImm : (vexImm l' e dst src imm).operandsWf m = (wfVex m dst && wfVex m src) := by
  cases l' <;> cases e <;> rfl
theorem operandsWf_evexRm :
    (evexRm l e dst msk src cnt).operandsWf m = (wfEvex m dst && msk.wf && wfEvex m src && cnt.wfV m m.evexRegs) := by
  cases l <;> cases e <;> rfl
theorem operandsWf_evexImmW :
    (evexImmW l dst msk cnt imm).operandsWf m = (wfEvex m dst && msk.wf && cnt.wfV m m.evexRegs) := by cases l <;> rfl
theorem operandsWf_evexImmD : (evexImmD l dst msk d imm).operandsWf m = (wfEvex m dst && msk.wf && d.wf m) := by
  cases l <;> rfl
theorem operandsWf_evexImmQ : (evexImmQ l dst msk d imm).operandsWf m = (wfEvex m dst && msk.wf && d.wf m) := by
  cases l <;> rfl

end Names

/-- The encoding of every instruction has 3 to 15 bytes (30_encoding.md R115, R116). -/
theorem length_encode (m : Mode) (i : Instr) : 3 ≤ (encode m i).length ∧ (encode m i).length ≤ 15 := by
  induction i using Instr.byClass with
  | mmxRm e dst cnt => exact encode_mmxRm .. ▸ length_encLegacy _ _ _ _ _ _ (length_encMmRm m cnt) (by simp)
  | mmxImm e dst imm => exact encode_mmxImm .. ▸ length_encLegacy _ _ _ _ _ _ (by simp [encMmreg]) (by simp)
  | sseRm e dst cnt => exact encode_sseRm .. ▸ length_encLegacy _ _ _ _ _ _ (length_encVRm m 1 cnt) (by simp)
  | sseImm e dst imm => exact encode_sseImm .. ▸ length_encLegacy _ _ _ _ _ _ (by simp [encVreg]) (by simp)
  | vexRm l e dst src cnt => exact encode_vexRm .. ▸ length_encVex _ _ _ _ _ _ _ (length_encVRm m 1 cnt) (by simp)
  | vexImm l e dst src imm => exact encode_vexImm .. ▸ length_encVex _ _ _ _ _ _ _ (by simp [encVreg]) (by simp)
  | evexRm l e dst msk src cnt =>
    exact encode_evexRm .. ▸ length_encEvex _ _ _ _ _ _ _ _ _ _ _ (length_encVRm m 16 cnt) (by simp)
  | evexImmW l dst msk src imm =>
    exact encode_evexImmW .. ▸ length_encEvex _ _ _ _ _ _ _ _ _ _ _ (length_encVRm m _ src) (by simp)
  | evexImmD l dst msk src imm => exact encode_evexImmD .. ▸ length_encEvexImm m l .d dst msk src imm
  | evexImmQ l dst msk src imm => exact encode_evexImmQ .. ▸ length_encEvexImm m l .q dst msk src imm

/-! ## Register numbers and their bits -/

theorem regBit_eq_false {n i : Nat} (h : n < 2 ^ i) : regBit n i = false := Nat.testBit_lt_two_pow h

theorem lt_of_wfVex {m : Mode} {r : VReg} (h : wfVex m r = true) : r.val < 16 ∧ (m.is64 = false → r.val < 8) := by
  have h' : r.val < m.vexRegs := by simpa [wfVex] using h
  unfold Mode.vexRegs at h'
  cases h64 : m.is64 with
  | true => simpa [h64] using h'
  | false => simp [h64] at h'; omega

theorem lt_of_wfEvex {m : Mode} {r : VReg} (h : wfEvex m r = true) (h64 : m.is64 = false) : r.val < 8 := by
  simpa [wfEvex, Mode.evexRegs, h64] using h

/-- The register named by three bits and one extension bit: a legacy or VEX register. -/
theorem vregOf_false {r : VReg} (h : r.val < 16) : vregOf false (regBit r.val 3) (low3 r.val) = r := by
  rw [← regBit_eq_false (i := 4) h, vregOf_regBit]

theorem vvvvReg_regBit : ∀ r : VReg, vvvvReg (regBit r.val 4) (BitVec.ofNat 4 r.val) = r := by decide

theorem vvvvReg_false {r : VReg} (h : r.val < 16) : vvvvReg false (BitVec.ofNat 4 r.val) = r := by
  rw [← regBit_eq_false (i := 4) h, vvvvReg_regBit]

/-! ## The r/m operand -/

/-- `o` is the encoding of an r/m operand: a register, or the memory operand that stands in the second place. -/
inductive EncRm.Spells (m : Mode) (n : Nat) : EncRm → Option MemOp → Prop
  | reg (x b : Bool) (rm : BitVec 3) : Spells m n { mod := 3#2, rm := rm, x := x, b := b } none
  | mem (a : MemOp) (h : a.wf m = true) : Spells m n (encMem m n a) (some a)

theorem spells_encMmRm {m : Mode} {c : RegMem MmReg} (h : c.wfMm m = true) : (encMmRm m c).Spells m 1 c.memOp? := by
  cases c with
  | reg r => exact .reg ..
  | mem a => exact .mem a h

theorem spells_encVRm {m : Mode} {k : Nat} {c : RegMem VReg} (n : Nat) (h : c.wfV m k = true) :
    (encVRm m n c).Spells m n c.memOp? := by
  cases c with
  | reg r => exact .reg ..
  | mem a => exact .mem a h

/-- The operand that is read: memory if there is some, else the register. -/
def RegMem.ofMem? {α : Type} (v : α) : Option MemOp → RegMem α
  | none => .reg v
  | some a => .mem a

theorem RegMem.ofMem?_memOp? {α : Type} {v : α} {c : RegMem α} (h : ∀ r, c = .reg r → v = r) : ofMem? v c.memOp? = c := by
  cases c with
  | reg r => rw [h r rfl]; rfl
  | mem a => rfl

/-- What the address-size and segment prefixes of an r/m operand say. -/
def rmPrefixes (m : Mode) : Option MemOp → Prefixes
  | none => {}
  | some a => memPrefixes m a

theorem rmPrefixes_eq (m : Mode) (a? : Option MemOp) :
    (rmPrefixes m a?).opsize = false ∧ (rmPrefixes m a?).rep = false ∧ (rmPrefixes m a?).lock = false ∧
      (rmPrefixes m a?).rex = none := by
  cases a? <;> exact ⟨rfl, rfl, rfl, rfl⟩

theorem scanPrefixes_spells {m : Mode} {n : Nat} {o : EncRm} {a? : Option MemOp} (h : o.Spells m n a?) (t : List Byte) :
    scanPrefixes m.is64 {} (o.pre ++ t) = scanPrefixes m.is64 (rmPrefixes m a?) t := by
  cases h with
  | reg x b rm => rfl
  | mem a h => exact scanPrefixes_encMem m n a t

/-- The r/m operand is read back; `v` is the register its fields name when it is no memory operand. -/
theorem readRm_spells {α : Type} {m : Mode} {n : Nat} {o : EncRm} {a? : Option MemOp} (h : o.Spells m n a?) {p : Prefixes}
    (hp : p.asize = (rmPrefixes m a?).asize ∧ p.seg = (rmPrefixes m a?).seg) (reg : BitVec 3) (v : α) (t : List Byte) :
    readRm m p o.x o.b n ⟨o.mod, reg, o.rm⟩ v (o.tail ++ t) = .ok (RegMem.ofMem? v a?, t) := by
  cases h with
  | reg x b rm => rfl
  | mem a h =>
    obtain ⟨hread, hmod⟩ := readMem_encMem m n a h p hp reg t
    rw [readRm, if_neg hmod, hread]
    rfl

theorem encWide_ext (n : Nat) {base : Base} {index : Option GReg} (scale : Fin 4) (d : BitVec 32)
    (hb : ∀ r, base = .gpr r → r.val < 8) (hx : indexExt index = false) :
    (encWide n base index scale d).x = false ∧ (encWide n base index scale d).b = false := by
  cases base with
  | rip => exact ⟨rfl, rfl⟩
  | none => exact ⟨hx, rfl⟩
  | gpr r =>
    have hr : regBit r.val 3 = false := regBit_eq_false (hb r rfl)
    simp only [encWide]
    split
    · exact ⟨hx, hr⟩
    · exact ⟨rfl, hr⟩

/-- Outside 64-bit mode a memory operand needs no extension bit (30_encoding.md R95). -/
theorem encMem_ext {m : Mode} (n : Nat) {a : MemOp} (h : a.wf m = true) (h64 : m.is64 = false) :
    (encMem m n a).x = false ∧ (encMem m n a).b = false := by
  obtain ⟨g, ea⟩ := a
  cases ea with
  | a16 base d =>
    simp only [encMem, encA16]
    repeat' split
    all_goals exact ⟨rfl, rfl⟩
  | wide is64 base index scale d =>
    simp only [MemOp.wf, EffAddr.wf, h64, Mode.gprs, Bool.and_eq_true] at h
    obtain ⟨⟨-, hb⟩, hi⟩ := h
    refine encWide_ext n scale d (fun r e => ?_) ?_
    · subst e
      simpa [Base.wf, Mode.gprs, h64] using hb
    · cases index with
      | none => rfl
      | some i =>
        have hi' : i.val < 8 := by simp at hi; exact hi.1.1
        exact regBit_eq_false hi'

theorem encVRm_ext {m : Mode} {k : Nat} {c : RegMem VReg} (n : Nat) (h : c.wfV m k = true) (hk : m.is64 = false → k ≤ 8)
    (h64 : m.is64 = false) : (encVRm m n c).x = false ∧ (encVRm m n c).b = false := by
  cases c with
  | reg r =>
    have hr : r.val < 8 := lt_of_lt_of_le (by simpa [RegMem.wfV] using h) (hk h64)
    exact ⟨regBit_eq_false (lt_of_lt_of_le hr (by decide)), regBit_eq_false hr⟩
  | mem a => exact encMem_ext n h h64

/-! ## The end of the instruction -/

/-- The instruction ends where its encoding does. -/
theorem finish_append {bs : List Byte} (h : bs.length ≤ 15) (tail : List Byte) (i : Instr) :
    finish (bs ++ tail).length tail (.ok i) = .ok (i, bs.length) := by
  rw [finish_ok_iff]
  simpa using h

/-! ## Opcodes -/

theorem opcodeOf_opByte (e : Elem) (c : CountKind) : opcodeOf (opByte e c) = some (e, c) := by cases e <;> cases c <;> rfl

theorem selectForm_var (k : EncClass) (e : Elem) (r : ModRM) : selectForm k (opByte e .var) r = some (k.form e .var) := by
  simp only [selectForm, opcodeOf_opByte]

theorem selectForm_imm {k : EncClass} (e : Elem) {r : ModRM} (hr : r.reg = 6#3) (hm : k.immRegOnly = true → r.mod = 3#2) :
    selectForm k (opByte e .imm) r = some (k.form e .imm) := by
  simp only [selectForm, opcodeOf_opByte]
  rw [if_pos ⟨hr, hm⟩]

/-! ## The legacy class -/

/-- A byte that is none of the prefixes ends the scan. -/
theorem scanPrefixes_stop (is64 : Bool) {p : Prefixes} {b : Byte} (t : List Byte) (ha : p.add b = none)
    (hr : isRex b = false) : scanPrefixes is64 p (b :: t) = (p, b :: t) := by
  simp [scanPrefixes, ha, hr]

/-- A REX byte in 64-bit mode is read, and the scan goes on. -/
theorem scanPrefixes_rex {p : Prefixes} {b : Byte} (t : List Byte) (ha : p.add b = none) (hr : isRex b = true)
    (hp : p.rex = none) : scanPrefixes true p (b :: t) = scanPrefixes true { p with rex := some b } t := by
  simp [scanPrefixes, ha, hr, hp]

/-- The REX byte with the given bits (30_encoding.md R83). -/
def rexByte (w r x b : Bool) : Byte := 4#4 ++ BitVec.ofBool w ++ BitVec.ofBool r ++ BitVec.ofBool x ++ BitVec.ofBool b

theorem add_rexByte (p : Prefixes) (w r x b : Bool) : p.add (rexByte w r x b) = none := by
  cases w <;> cases r <;> cases x <;> cases b <;> rfl

theorem isRex_rexByte : ∀ w r x b : Bool, isRex (rexByte w r x b) = true := by decide

theorem bit_rexByte : ∀ w r x b : Bool,
    bit (rexByte w r x b) 2 = r ∧ bit (rexByte w r x b) 1 = x ∧ bit (rexByte w r x b) 0 = b := by decide

theorem rexPrefix_eq (r x b : Bool) : rexPrefix r x b = if r || x || b then [rexByte false r x b] else [] := rfl

/-- The prefixes of a legacy encoding. -/
def legacyPrefixes (m : Mode) (a? : Option MemOp) (p66 r x b : Bool) : Prefixes :=
  { rmPrefixes m a? with opsize := p66, rex := (rexPrefix r x b).head? }

@[simp] theorem opsize_legacyPrefixes (m : Mode) (a? : Option MemOp) (p66 r x b : Bool) :
    (legacyPrefixes m a? p66 r x b).opsize = p66 := rfl

@[simp] theorem rep_legacyPrefixes (m : Mode) (a? : Option MemOp) (p66 r x b : Bool) :
    (legacyPrefixes m a? p66 r x b).rep = false := (rmPrefixes_eq m a?).2.1

@[simp] theorem lock_legacyPrefixes (m : Mode) (a? : Option MemOp) (p66 r x b : Bool) :
    (legacyPrefixes m a? p66 r x b).lock = false := (rmPrefixes_eq m a?).2.2.1

theorem rexBit_legacyPrefixes (m : Mode) (a? : Option MemOp) (p66 r x b : Bool) :
    (legacyPrefixes m a? p66 r x b).rexBit 2 = r ∧ (legacyPrefixes m a? p66 r x b).rexBit 1 = x ∧
      (legacyPrefixes m a? p66 r x b).rexBit 0 = b := by
  cases h : r || x || b with
  | true =>
    simp only [legacyPrefixes, rexPrefix_eq, h, if_true, List.head?_cons, Prefixes.rexBit]
    exact bit_rexByte false r x b
  | false =>
    obtain ⟨⟨rfl, rfl⟩, rfl⟩ : (r = false ∧ x = false) ∧ b = false := by simpa using h
    exact ⟨rfl, rfl, rfl⟩

/-- The REX byte, if there is one, is the last of the prefixes before the escape byte 0F. -/
theorem scanPrefixes_rexPrefix {m : Mode} {p : Prefixes} (hp : p.rex = none) {r x b : Bool}
    (h64 : m.is64 = false → r = false ∧ x = false ∧ b = false) (t : List Byte) :
    scanPrefixes m.is64 p (rexPrefix r x b ++ 0x0F#8 :: t) = ({ p with rex := (rexPrefix r x b).head? }, 0x0F#8 :: t) := by
  cases h : r || x || b with
  | true =>
    have hm : m.is64 = true := by
      by_contra hm
      obtain ⟨rfl, rfl, rfl⟩ := h64 (by simpa using hm)
      cases h
    simp only [rexPrefix_eq, h, if_true, List.cons_append, List.nil_append, List.head?_cons, hm]
    rw [scanPrefixes_rex _ (add_rexByte ..) (isRex_rexByte ..) hp, scanPrefixes_stop _ _ rfl rfl]
  | false =>
    simp only [rexPrefix_eq, h, Bool.false_eq_true, if_false, List.nil_append, List.head?_nil]
    rw [scanPrefixes_stop _ _ rfl rfl, ← hp]

theorem scanPrefixes_66 (is64 : Bool) {p : Prefixes} (hp : p.rex = none) (ho : p.opsize = false) (p66 : Bool)
    (t : List Byte) :
    scanPrefixes is64 p ((if p66 then [0x66#8] else []) ++ t) = scanPrefixes is64 { p with opsize := p66 } t := by
  cases p66 with
  | false =>
    have hsame : { p with opsize := false } = p := by rw [← ho]
    rw [hsame]
    rfl
  | true =>
    have ha : p.add 0x66#8 = some { p with opsize := true } := by
      have : p.add 0x66#8 = some { p with opsize := true, rex := none } := rfl
      rw [this, ← hp]
    simp [scanPrefixes, ha]

/-- The prefixes of a legacy encoding are read, and the bytes from the opcode on are left. -/
theorem decode_encLegacy {m : Mode} {o : EncRm} {a? : Option MemOp} (ho : o.Spells m 1 a?) {p66 r : Bool} (op : Byte)
    (reg : BitVec 3) (imm tail : List Byte) (h64 : m.is64 = false → r = false ∧ o.x = false ∧ o.b = false) :
    decode m (encLegacy p66 op r reg o imm ++ tail) =
      decodeLegacy m (legacyPrefixes m a? p66 r o.x o.b) (encLegacy p66 op r reg o imm ++ tail).length
        (op :: (ModRM.mk o.mod reg o.rm).toByte :: (o.tail ++ (imm ++ tail))) := by
  obtain ⟨hops, -, -, hrex⟩ := rmPrefixes_eq m a?
  have hscan : scanPrefixes m.is64 {} (encLegacy p66 op r reg o imm ++ tail) = (legacyPrefixes m a? p66 r o.x o.b,
      0x0F#8 :: op :: (ModRM.mk o.mod reg o.rm).toByte :: (o.tail ++ (imm ++ tail))) := by
    simp only [encLegacy, List.append_assoc, List.cons_append, List.nil_append]
    rw [scanPrefixes_spells ho, scanPrefixes_66 _ hrex hops,
      scanPrefixes_rexPrefix (p := { rmPrefixes m a? with opsize := p66 }) hrex h64]
    rfl
  rw [decode, hscan]
  rfl

section Legacy

variable {m : Mode} {p : Prefixes} (hrep : p.rep = false) (hlock : p.lock = false) (e : Elem) (r : ModRM) (imm : Byte)
  (total : Nat) {bs tail : List Byte}

include hrep hlock

theorem decodeLegacy_mmxRm (h66 : p.opsize = false) {c : RegMem MmReg}
    (hc : readRm m p (p.rexBit 1) (p.rexBit 0) 1 r (mmregOf r.rm) bs = .ok (c, tail)) :
    decodeLegacy m p total (opByte e .var :: r.toByte :: bs) = finish total tail (.ok (mmxRm e (mmregOf r.reg) c)) := by
  simp [decodeLegacy, opcodeOf_opByte, selectForm_var, EncClass.form, hrep, hlock, h66, hc, bind, Except.bind]

theorem decodeLegacy_mmxImm (h66 : p.opsize = false) (hreg : r.reg = 6#3) (hmod : r.mod = 3#2) :
    decodeLegacy m p total (opByte e .imm :: r.toByte :: imm :: tail) =
      finish total tail (.ok (mmxImm e (mmregOf r.rm) imm)) := by
  simp [decodeLegacy, opcodeOf_opByte, selectForm_imm e hreg fun _ => hmod, EncClass.form, hrep, hlock, h66, readImm, bind,
    Except.bind]

theorem decodeLegacy_sseRm (h66 : p.opsize = true) {c : RegMem VReg}
    (hc : readRm m p (p.rexBit 1) (p.rexBit 0) 1 r (vregOf false (p.rexBit 0) r.rm) bs = .ok (c, tail)) :
    decodeLegacy m p total (opByte e .var :: r.toByte :: bs) =
      finish total tail (.ok (sseRm e (vregOf false (p.rexBit 2) r.reg) c)) := by
  simp [decodeLegacy, opcodeOf_opByte, selectForm_var, EncClass.form, hrep, hlock, h66, hc, bind, Except.bind]

theorem decodeLegacy_sseImm (h66 : p.opsize = true) (hreg : r.reg = 6#3) (hmod : r.mod = 3#2) :
    decodeLegacy m p total (opByte e .imm :: r.toByte :: imm :: tail) =
      finish total tail (.ok (sseImm e (vregOf false (p.rexBit 0) r.rm) imm)) := by
  simp [decodeLegacy, opcodeOf_opByte, selectForm_imm e hreg fun _ => hmod, EncClass.form, hrep, hlock, h66, readImm, bind,
    Except.bind]

end Legacy

theorem readRm_legacyPrefixes {α : Type} {m : Mode} {o : EncRm} {a? : Option MemOp} (ho : o.Spells m 1 a?)
    (p66 r : Bool) (reg : BitVec 3) (v : α) (t : List Byte) :
    readRm m (legacyPrefixes m a? p66 r o.x o.b) ((legacyPrefixes m a? p66 r o.x o.b).rexBit 1)
        ((legacyPrefixes m a? p66 r o.x o.b).rexBit 0) 1 ⟨o.mod, reg, o.rm⟩ v (o.tail ++ t) =
      .ok (RegMem.ofMem? v a?, t) := by
  obtain ⟨-, hx, hb⟩ := rexBit_legacyPrefixes m a? p66 r o.x o.b
  rw [hx, hb]
  exact readRm_spells ho ⟨rfl, rfl⟩ reg v t

/-- An instruction is read back from its encoding, whatever bytes follow. -/
def ReadsBack (m : Mode) (i : Instr) : Prop := ∀ tail, decode m (encode m i ++ tail) = .ok (i, (encode m i).length)

/-- It is enough that the decoder comes to `finish` with the instruction and the bytes that follow. -/
theorem readsBack_of_finish {m : Mode} {i : Instr} {bs : List Byte} (he : encode m i = bs)
    (h : ∀ tail, decode m (bs ++ tail) = finish (bs ++ tail).length tail (.ok i)) : ReadsBack m i := fun tail => by
  have hlen := (length_encode m i).2
  rw [he] at hlen ⊢
  rw [h tail, finish_append hlen]

theorem readsBack_mmxRm {m : Mode} {e : Elem} {dst : MmReg} {cnt : RegMem MmReg} (h : cnt.wfMm m = true) :
    ReadsBack m (mmxRm e dst cnt) := by
  have ho := spells_encMmRm h
  have hext : m.is64 = false → (encMmRm m cnt).x = false ∧ (encMmRm m cnt).b = false := fun h64 => by
    cases cnt with
    | reg r => exact ⟨rfl, rfl⟩
    | mem a => exact encMem_ext 1 h h64
  have hc : RegMem.ofMem? (mmregOf (encMmRm m cnt).rm) cnt.memOp? = cnt :=
    RegMem.ofMem?_memOp? fun r hr => by rw [hr]; exact mmregOf_low3 r
  refine readsBack_of_finish (encode_mmxRm ..) fun tail => ?_
  rw [encMmxRm, decode_encLegacy ho _ _ _ _ fun h64 => ⟨rfl, hext h64⟩,
    decodeLegacy_mmxRm (by simp) (by simp) _ _ _ rfl (readRm_legacyPrefixes ho ..), hc, mmregOf_low3]
  rfl

theorem readsBack_mmxImm {m : Mode} (e : Elem) (dst : MmReg) (imm : Byte) : ReadsBack m (mmxImm e dst imm) := by
  refine readsBack_of_finish (encode_mmxImm ..) fun tail => ?_
  rw [encMmxImm, decode_encLegacy (o := encMmreg dst) (.reg ..) _ _ _ _ fun _ => ⟨rfl, rfl, rfl⟩]
  exact (decodeLegacy_mmxImm (by simp) (by simp) e _ imm _ rfl rfl rfl).trans (by rw [encMmreg, mmregOf_low3]; rfl)

theorem readsBack_sseRm {m : Mode} {e : Elem} {dst : VReg} {cnt : RegMem VReg} (hd : wfVex m dst = true)
    (h : cnt.wfV m m.vexRegs = true) : ReadsBack m (sseRm e dst cnt) := by
  have ho := spells_encVRm 1 h
  obtain ⟨hd16, hd8⟩ := lt_of_wfVex hd
  have hc : RegMem.ofMem? (vregOf false (encVRm m 1 cnt).b (encVRm m 1 cnt).rm) cnt.memOp? = cnt :=
    RegMem.ofMem?_memOp? fun r hr => by subst hr; exact vregOf_false (lt_of_wfVex h).1
  refine readsBack_of_finish (encode_sseRm ..) fun tail => ?_
  rw [encSseRm, decode_encLegacy ho _ _ _ _ fun h64 =>
      ⟨regBit_eq_false (hd8 h64), encVRm_ext 1 h (by simp [Mode.vexRegs, h64]) h64⟩,
    decodeLegacy_sseRm (by simp) (by simp) _ _ _ rfl (readRm_legacyPrefixes ho ..), (rexBit_legacyPrefixes ..).1,
    (rexBit_legacyPrefixes ..).2.2, hc, vregOf_false hd16]
  rfl

theorem readsBack_sseImm {m : Mode} (e : Elem) {dst : VReg} (imm : Byte) (hd : wfVex m dst = true) :
    ReadsBack m (sseImm e dst imm) := by
  obtain ⟨hd16, hd8⟩ := lt_of_wfVex hd
  refine readsBack_of_finish (encode_sseImm ..) fun tail => ?_
  rw [encSseImm, decode_encLegacy (o := encVreg dst) (.reg ..) _ _ _ _ fun h64 =>
    ⟨rfl, regBit_eq_false (lt_of_lt_of_le hd16 (by decide)), regBit_eq_false (hd8 h64)⟩]
  refine (decodeLegacy_sseImm (by simp) (by simp) e _ imm _ rfl rfl rfl).trans ?_
  rw [(rexBit_legacyPrefixes ..).2.2, encVreg, vregOf_false hd16]
  rfl

/-! ## The VEX class -/

/-- The fields that a VEX form is written with. -/
def writtenVex (l r x b : Bool) (vvvv : VReg) : VexFields := ⟨r, x, b, 1#5, BitVec.ofNat 4 vvvv.val, l, 1#2⟩

theorem vex2Fields_written : ∀ (l r : Bool) (v : BitVec 4),
    vex2Fields (BitVec.ofBool (!r) ++ ~~~v ++ BitVec.ofBool l ++ 1#2) = ⟨r, false, false, 1#5, v, l, 1#2⟩ := by decide

theorem vex3Byte1_written : ∀ r x b : Bool,
    let p : Byte := BitVec.ofBool (!r) ++ BitVec.ofBool (!x) ++ BitVec.ofBool (!b) ++ 1#5
    (!bit p 7) = r ∧ (!bit p 6) = x ∧ (!bit p 5) = b ∧ p.extractLsb' 0 5 = 1#5 := by decide

theorem vex3Byte2_written : ∀ (l : Bool) (v : BitVec 4), let p : Byte := 0#1 ++ ~~~v ++ BitVec.ofBool l ++ 1#2
    ~~~(p.extractLsb' 3 4) = v ∧ bit p 2 = l ∧ p.extractLsb' 0 2 = 1#2 := by decide

theorem vex3Fields_written (l r x b : Bool) (v : BitVec 4) :
    vex3Fields (BitVec.ofBool (!r) ++ BitVec.ofBool (!x) ++ BitVec.ofBool (!b) ++ 1#5)
        (0#1 ++ ~~~v ++ BitVec.ofBool l ++ 1#2) =
      ⟨r, x, b, 1#5, v, l, 1#2⟩ := by
  obtain ⟨hr, hx, hb, hmap⟩ := vex3Byte1_written r x b
  obtain ⟨hv, hl, hpp⟩ := vex3Byte2_written l v
  rw [vex3Fields, hr, hx, hb, hmap, hv, hl, hpp]

/-- Outside 64-bit mode two-byte VEX with registers below 8 is no other instruction (30_encoding.md R93). -/
theorem vex2_top : ∀ (l : Bool) (v : Fin 8),
    (BitVec.ofBool (!false) ++ ~~~(BitVec.ofNat 4 v.val) ++ BitVec.ofBool l ++ 1#2 : Byte).extractLsb' 6 2 = 3#2 := by decide

theorem otherInstruction_eq_false {m : Mode} {b : Byte} (h : m.is64 = false → b.extractLsb' 6 2 = 3#2) :
    otherInstruction m b = false := by
  cases h64 : m.is64 with
  | true => simp [otherInstruction, h64]
  | false => simp [otherInstruction, h h64]

theorem clash_rmPrefixes (m : Mode) (a? : Option MemOp) : (rmPrefixes m a?).clash = false := by
  cases a? <;> rfl

/-- The VEX bytes are read, and the bytes from the opcode on are left. -/
theorem decode_encVex {m : Mode} {o : EncRm} {a? : Option MemOp} (ho : o.Spells m 1 a?) {l r : Bool} (op : Byte)
    (reg : BitVec 3) {v : VReg} (imm tail : List Byte)
    (h64 : m.is64 = false → r = false ∧ (o.x = false ∧ o.b = false) ∧ v.val < 8) :
    decode m (encVex l op r reg v o imm ++ tail) =
      decodeVex m (rmPrefixes m a?) (encVex l op r reg v o imm ++ tail).length (writtenVex l r o.x o.b v)
        (op :: (ModRM.mk o.mod reg o.rm).toByte :: (o.tail ++ (imm ++ tail))) := by
  have hscan : ∀ b t, Prefixes.add (rmPrefixes m a?) b = none → isRex b = false →
      scanPrefixes m.is64 {} (o.pre ++ b :: t) = (rmPrefixes m a?, b :: t) := fun b t ha hr => by
    rw [scanPrefixes_spells ho, scanPrefixes_stop _ t ha hr]
  cases hxb : o.x || o.b with
  | true =>
    have hm : m.is64 = true := by
      by_contra hm
      obtain ⟨-, ⟨hx, hb⟩, -⟩ := h64 (by simpa using hm)
      simp [hx, hb] at hxb
    simp only [decode, encVex, vexPrefix, hxb, if_true, List.append_assoc, List.cons_append, List.nil_append]
    rw [hscan _ _ rfl rfl]
    simp [decodeClass, otherInstruction, hm, vex3Fields_written, writtenVex]
  | false =>
    obtain ⟨hx, hb⟩ : o.x = false ∧ o.b = false := by simpa using hxb
    have hother : otherInstruction m (BitVec.ofBool (!r) ++ ~~~(BitVec.ofNat 4 v.val) ++ BitVec.ofBool l ++ 1#2) = false :=
      otherInstruction_eq_false fun h => by
        obtain ⟨rfl, -, hv⟩ := h64 h
        exact vex2_top l ⟨v.val, hv⟩
    simp only [decode, encVex, vexPrefix, hxb, Bool.false_eq_true, if_false, List.append_assoc, List.cons_append,
      List.nil_append]
    rw [hscan _ _ rfl rfl]
    simp [decodeClass, hother, vex2Fields_written, writtenVex, hx, hb]

/-- Registers below 8 are named in every mode. -/
theorem lowOnly_ok {m : Mode} {rs : List VReg} (i : Instr) (h : m.is64 = false → ∀ r ∈ rs, r.val < 8) :
    lowOnly m rs i = .ok i := by
  rw [lowOnly_ok_iff]
  cases h64 : m.is64 with
  | true => exact ⟨rfl, .inl rfl⟩
  | false => exact ⟨rfl, .inr (h h64)⟩

theorem regs_lt_of_wfV {m : Mode} {k : Nat} {c : RegMem VReg} (h : c.wfV m k = true) (hk : k ≤ 8) :
    ∀ r ∈ c.regs, r.val < 8 := by
  cases c with
  | reg r =>
    have hr : r.val < 8 := lt_of_lt_of_le (by simpa [RegMem.wfV] using h) hk
    simpa [RegMem.regs] using hr
  | mem a => simp [RegMem.regs]

section Vex

variable {m : Mode} (hv : m.hasVex = true) {p : Prefixes} (hp : p.clash = false) (l : Bool) (e : Elem)
  (r : ModRM) (imm : Byte) (total : Nat) {bs tail : List Byte} (hi x b : Bool) (v : VReg)

include hv hp

theorem decodeVex_vexRm {c : RegMem VReg}
    (hc : readRm m p (m.is64 && x) (m.is64 && b) 1 r (vregOf false b r.rm) bs = .ok (c, tail)) :
    decodeVex m p total (writtenVex l hi x b v) (opByte e .var :: r.toByte :: bs) =
      finish total tail (lowOnly m (vregOf false hi r.reg :: vvvvReg false (BitVec.ofNat 4 v.val) :: c.regs)
        (vexRm l e (vregOf false hi r.reg) (vvvvReg false (BitVec.ofNat 4 v.val)) c)) := by
  have hf : selectForm (.vex l) (opByte e .var) r = some (.vex (vexLen l) e .var) := by
    rw [selectForm_var]; cases l <;> rfl
  simp [decodeVex, writtenVex, hp, opcodeOf_opByte, hf, hv, hc, bind, Except.bind]

theorem decodeVex_vexImm (hreg : r.reg = 6#3) (hmod : r.mod = 3#2) :
    decodeVex m p total (writtenVex l hi x b v) (opByte e .imm :: r.toByte :: imm :: tail) =
      finish total tail (lowOnly m [vvvvReg false (BitVec.ofNat 4 v.val), vregOf false b r.rm]
        (vexImm l e (vvvvReg false (BitVec.ofNat 4 v.val)) (vregOf false b r.rm) imm)) := by
  have hf : selectForm (.vex l) (opByte e .imm) r = some (.vex (vexLen l) e .imm) := by
    rw [selectForm_imm e hreg fun _ => hmod]; cases l <;> rfl
  simp [decodeVex, writtenVex, hp, opcodeOf_opByte, hf, hv, readImm, bind, Except.bind]

end Vex

/-- The r/m operand of a VEX or EVEX form, whose extension bits are cut to 0 outside 64-bit mode. -/
theorem readRm_cut {α : Type} {m : Mode} {n : Nat} {o : EncRm} {a? : Option MemOp} (ho : o.Spells m n a?)
    (h64 : m.is64 = false → o.x = false ∧ o.b = false) (reg : BitVec 3) (v : α) (t : List Byte) :
    readRm m (rmPrefixes m a?) (m.is64 && o.x) (m.is64 && o.b) n ⟨o.mod, reg, o.rm⟩ v (o.tail ++ t) =
      .ok (RegMem.ofMem? v a?, t) := by
  have hcut : (m.is64 && o.x) = o.x ∧ (m.is64 && o.b) = o.b := by
    cases h : m.is64 with
    | true => exact ⟨rfl, rfl⟩
    | false => obtain ⟨hx, hb⟩ := h64 h; rw [hx, hb]; exact ⟨rfl, rfl⟩
  rw [hcut.1, hcut.2]
  exact readRm_spells ho ⟨rfl, rfl⟩ reg v t

theorem readsBack_vexRm {m : Mode} (hv : m.hasVex = true) {l : Bool} {e : Elem} {dst src : VReg} {cnt : RegMem VReg}
    (hd : wfVex m dst = true) (hs : wfVex m src = true) (h : cnt.wfV m m.vexRegs = true) :
    ReadsBack m (vexRm l e dst src cnt) := by
  have ho := spells_encVRm 1 h
  obtain ⟨hd16, hd8⟩ := lt_of_wfVex hd
  obtain ⟨hs16, hs8⟩ := lt_of_wfVex hs
  have hk : m.is64 = false → m.vexRegs ≤ 8 := fun h64 => by simp [Mode.vexRegs, h64]
  have hc : RegMem.ofMem? (vregOf false (encVRm m 1 cnt).b (encVRm m 1 cnt).rm) cnt.memOp? = cnt :=
    RegMem.ofMem?_memOp? fun r hr => by subst hr; exact vregOf_false (lt_of_wfVex h).1
  refine readsBack_of_finish (encode_vexRm ..) fun tail => ?_
  rw [encVexRm, decode_encVex ho _ _ _ _ fun h64 => ⟨regBit_eq_false (hd8 h64), encVRm_ext 1 h hk h64, hs8 h64⟩,
    decodeVex_vexRm hv (clash_rmPrefixes ..) _ _ _ _ _ _ _ _ (readRm_cut ho (encVRm_ext 1 h hk) ..), hc, vregOf_false hd16,
    vvvvReg_false hs16, lowOnly_ok]
  · rfl
  · intro h64
    simpa [hd8 h64, hs8 h64] using regs_lt_of_wfV h (hk h64)

theorem readsBack_vexImm {m : Mode} (hv : m.hasVex = true) (l : Bool) (e : Elem) {dst src : VReg} (imm : Byte)
    (hd : wfVex m dst = true) (hs : wfVex m src = true) : ReadsBack m (vexImm l e dst src imm) := by
  obtain ⟨hd16, hd8⟩ := lt_of_wfVex hd
  obtain ⟨hs16, hs8⟩ := lt_of_wfVex hs
  refine readsBack_of_finish (encode_vexImm ..) fun tail => ?_
  rw [encVexImm, decode_encVex (o := encVreg src) (.reg ..) _ _ _ _ fun h64 =>
    ⟨rfl, ⟨regBit_eq_false (lt_of_lt_of_le hs16 (by decide)), regBit_eq_false (hs8 h64)⟩, hd8 h64⟩]
  refine (decodeVex_vexImm hv (clash_rmPrefixes ..) l e _ imm _ _ _ _ _ rfl rfl).trans ?_
  rw [encVreg, vvvvReg_false hd16, vregOf_false hs16, lowOnly_ok]
  · rfl
  · intro h64
    simp [hd8 h64, hs8 h64]

/-! ## The EVEX class -/

/-- The fields that an EVEX form is written with. -/
def writtenEvex (l : VLen) (e : Elem) (k : Masking) (bc r' r x b : Bool) (vvvv : VReg) : EvexFields :=
  { r := r, x := x, b := b, r' := r', fixed0 := false, map := 1#3, w := evexW e, vvvv := BitVec.ofNat 4 vvvv.val,
    fixed1 := true, pp := 1#2, z := k.z, ll := llOf l, bc := bc, v' := regBit vvvv.val 4, aaa := BitVec.ofNat 3 k.aaa.val }

theorem evexByte0_written : ∀ r x b r' : Bool,
    let p : Byte := BitVec.ofBool (!r) ++ BitVec.ofBool (!x) ++ BitVec.ofBool (!b) ++ BitVec.ofBool (!r') ++ 0#1 ++ 1#3
    (!bit p 7) = r ∧ (!bit p 6) = x ∧ (!bit p 5) = b ∧ (!bit p 4) = r' ∧ bit p 3 = false ∧ p.extractLsb' 0 3 = 1#3 := by decide

theorem evexByte1_written : ∀ (w : Bool) (v : BitVec 4), let p : Byte := BitVec.ofBool w ++ ~~~v ++ 1#1 ++ 1#2
    bit p 7 = w ∧ ~~~(p.extractLsb' 3 4) = v ∧ bit p 2 = true ∧ p.extractLsb' 0 2 = 1#2 := by decide

theorem evexByte2_written : ∀ (z bc v' : Bool) (ll : BitVec 2) (a : BitVec 3),
    let p : Byte := BitVec.ofBool z ++ ll ++ BitVec.ofBool bc ++ BitVec.ofBool (!v') ++ a
    bit p 7 = z ∧ p.extractLsb' 5 2 = ll ∧ bit p 4 = bc ∧ (!bit p 3) = v' ∧ p.extractLsb' 0 3 = a := by decide

theorem evexFields_written (l : VLen) (e : Elem) (k : Masking) (bc r' r x b : Bool) (v : VReg) :
    evexFields (BitVec.ofBool (!r) ++ BitVec.ofBool (!x) ++ BitVec.ofBool (!b) ++ BitVec.ofBool (!r') ++ 0#1 ++ 1#3)
        (BitVec.ofBool (evexW e) ++ ~~~(BitVec.ofNat 4 v.val) ++ 1#1 ++ 1#2)
        (BitVec.ofBool k.z ++ llOf l ++ BitVec.ofBool bc ++ BitVec.ofBool (!regBit v.val 4) ++ BitVec.ofNat 3 k.aaa.val) =
      writtenEvex l e k bc r' r x b v := by
  obtain ⟨hr, hx, hb, hr', h0, hmap⟩ := evexByte0_written r x b r'
  obtain ⟨hw, hv, h1, hpp⟩ := evexByte1_written (evexW e) (BitVec.ofNat 4 v.val)
  obtain ⟨hz, hll, hbc, hv', ha⟩ := evexByte2_written k.z bc (regBit v.val 4) (llOf l) (BitVec.ofNat 3 k.aaa.val)
  rw [evexFields, hr, hx, hb, hr', h0, hmap, hw, hv, h1, hpp, hz, hll, hbc, hv', ha, writtenEvex]

theorem evexByte0_top : ∀ b r' : Bool,
    (BitVec.ofBool (!false) ++ BitVec.ofBool (!false) ++ BitVec.ofBool (!b) ++ BitVec.ofBool (!r') ++ 0#1 ++
      1#3 : Byte).extractLsb' 6 2 = 3#2 := by decide

/-- The EVEX bytes are read, and the bytes from the opcode on are left. -/
theorem decode_encEvex {m : Mode} {n : Nat} {o : EncRm} {a? : Option MemOp} (ho : o.Spells m n a?) (l : VLen) (e : Elem)
    (c : CountKind) (k : Masking) (bc r' : Bool) {r : Bool} (reg : BitVec 3) (v : VReg) (imm tail : List Byte)
    (h64 : m.is64 = false → r = false ∧ o.x = false) :
    decode m (encEvex l e c k bc r' r reg v o imm ++ tail) =
      decodeEvex m (rmPrefixes m a?) (encEvex l e c k bc r' r reg v o imm ++ tail).length
        (writtenEvex l e k bc r' r o.x o.b v)
        (opByte e c :: (ModRM.mk o.mod reg o.rm).toByte :: (o.tail ++ (imm ++ tail))) := by
  have hother : otherInstruction m
      (BitVec.ofBool (!r) ++ BitVec.ofBool (!o.x) ++ BitVec.ofBool (!o.b) ++ BitVec.ofBool (!r') ++ 0#1 ++ 1#3) = false :=
    otherInstruction_eq_false fun h => by
      obtain ⟨rfl, hx⟩ := h64 h
      rw [hx]
      exact evexByte0_top ..
  simp only [decode, encEvex, List.append_assoc, List.cons_append, List.nil_append]
  rw [scanPrefixes_spells ho, scanPrefixes_stop _ _ rfl rfl, ← evexFields_written]
  simp [decodeClass, hother]

theorem vlenOf_llOf (l : VLen) : vlenOf (llOf l) = some l := by cases l <;> rfl

theorem evexWBad_evexW (e : Elem) : evexWBad e (evexW e) = false := by cases e <;> rfl

theorem ofNat_aaa : ∀ a : Fin 8, (BitVec.ofNat 3 a.val).toFin = a ∧ (BitVec.ofNat 3 a.val == 0#3) = (a == 0) := by decide

/-- The instruction an EVEX immediate form is read as, by element width (30_encoding.md R104, R105). -/
def evexImm (l : VLen) (e : Elem) (dst : VReg) (k : Masking) (bc : Bool) (o : RegMem VReg) (imm : Byte) : Instr :=
  match e with
  | .w => evexImmW l dst k o imm
  | .d => evexImmD l dst k (dataSrcOf bc o) imm
  | .q => evexImmQ l dst k (dataSrcOf bc o) imm

section Evex

variable {m : Mode} (hv : m.hasVex = true) {p : Prefixes} (hp : p.clash = false) {k : Masking} (hk : k.wf = true) (l : VLen)
  (e : Elem) (r : ModRM) (imm : Byte) (total : Nat) {bs tail : List Byte} (hi' hi x b : Bool) (v : VReg) {o : RegMem VReg}

include hv hp hk

theorem decodeEvex_evexRm
    (hc : readRm m p (m.is64 && x) (m.is64 && b) 16 r (vregOf x b r.rm) bs = .ok (o, tail)) :
    decodeEvex m p total (writtenEvex l e k false hi' hi x b v) (opByte e .var :: r.toByte :: bs) =
      finish total tail (lowOnly m (vregOf hi' hi r.reg :: v :: o.regs) (evexRm l e (vregOf hi' hi r.reg) k v o)) := by
  obtain ⟨hka, hkz⟩ := ofNat_aaa k.aaa
  have hz : (k.z && (k.aaa == 0)) = false := by simpa only [Masking.wf, Bool.not_eq_true'] using hk
  simp only [decodeEvex, writtenEvex, vlenOf_llOf, hp, opcodeOf_opByte, selectForm_var, ModRM.ofByte_toByte, EncClass.form, hv,
    evexWBad_evexW, evexBBad, disp8Factor, hkz, hz, hka, vvvvReg_regBit]
  simp [hc, bind, Except.bind]

theorem decodeEvex_evexImm {bc : Bool} (hreg : r.reg = 6#3) (hbc : evexBBad e .imm bc r = false)
    (hc : readRm m p (m.is64 && x) (m.is64 && b) (disp8Factor l e .imm bc) r (vregOf x b r.rm) bs = .ok (o, imm :: tail)) :
    decodeEvex m p total (writtenEvex l e k bc hi' hi x b v) (opByte e .imm :: r.toByte :: bs) =
      finish total tail (lowOnly m (v :: o.regs) (evexImm l e v k bc o imm)) := by
  obtain ⟨hka, hkz⟩ := ofNat_aaa k.aaa
  have hz : (k.z && (k.aaa == 0)) = false := by simpa only [Masking.wf, Bool.not_eq_true'] using hk
  have hf : selectForm (.evex l) (opByte e .imm) r = some (.evex l e .imm) := selectForm_imm e hreg nofun
  simp only [decodeEvex, writtenEvex, vlenOf_llOf, hp, opcodeOf_opByte, hf, ModRM.ofByte_toByte, hv,
    evexWBad_evexW, hbc, hkz, hz, hka, vvvvReg_regBit]
  cases e <;> simp [hc, bind, Except.bind, readImm, evexImm]

end Evex

theorem spells_mod {m : Mode} {n : Nat} {o : EncRm} {a : MemOp} (ho : o.Spells m n (some a)) : o.mod ≠ 3#2 := by
  cases ho with
  | mem a h => exact (readMem_encMem m n a h (p := memPrefixes m a) ⟨rfl, rfl⟩ 0#3 []).2

theorem evexRegs_le {m : Mode} (h64 : m.is64 = false) : m.evexRegs ≤ 8 := by simp [Mode.evexRegs, h64]

theorem readsBack_evexRm {m : Mode} (hv : m.hasVex = true) {l : VLen} {e : Elem} {dst src : VReg} {k : Masking}
    {cnt : RegMem VReg} (hd : wfEvex m dst = true) (hk : k.wf = true) (hs : wfEvex m src = true)
    (h : cnt.wfV m m.evexRegs = true) : ReadsBack m (evexRm l e dst k src cnt) := by
  have ho := spells_encVRm 16 h
  have hext := encVRm_ext 16 h evexRegs_le
  have hc : RegMem.ofMem? (vregOf (encVRm m 16 cnt).x (encVRm m 16 cnt).b (encVRm m 16 cnt).rm) cnt.memOp? = cnt :=
    RegMem.ofMem?_memOp? fun r hr => by subst hr; exact vregOf_regBit r
  refine readsBack_of_finish (encode_evexRm ..) fun tail => ?_
  rw [encEvexRm, decode_encEvex ho _ _ _ _ _ _ _ _ _ _ fun h64 => ⟨regBit_eq_false (lt_of_wfEvex hd h64), (hext h64).1⟩,
    decodeEvex_evexRm hv (clash_rmPrefixes ..) hk _ _ _ _ _ _ _ _ _ (readRm_cut ho hext ..), hc, vregOf_regBit, lowOnly_ok]
  · rfl
  · intro h64
    simpa [lt_of_wfEvex hd h64, lt_of_wfEvex hs h64] using regs_lt_of_wfV h (evexRegs_le h64)

/-- An EVEX immediate form is read back; `c` is its source as a register or memory operand, `bc` the broadcast bit. -/
theorem readsBack_evexImm {m : Mode} (hv : m.hasVex = true) {l : VLen} {e : Elem} {dst : VReg} {k : Masking} {bc : Bool}
    {c : RegMem VReg} {imm : Byte} (hd : wfEvex m dst = true) (hk : k.wf = true) (h : c.wfV m m.evexRegs = true)
    (hbc : bc = true → e ≠ .w ∧ c.memOp?.isSome = true)
    (he : encode m (evexImm l e dst k bc c imm) =
      encEvex l e .imm k bc false false 6#3 dst (encVRm m (disp8Factor l e .imm bc) c) [imm]) :
    ReadsBack m (evexImm l e dst k bc c imm) := by
  have ho := spells_encVRm (disp8Factor l e .imm bc) h
  have hext := encVRm_ext (disp8Factor l e .imm bc) h evexRegs_le
  generalize hrm : encVRm m (disp8Factor l e .imm bc) c = o at ho hext he
  have hc : RegMem.ofMem? (vregOf o.x o.b o.rm) c.memOp? = c :=
    RegMem.ofMem?_memOp? fun r hr => by subst hr; subst hrm; exact vregOf_regBit r
  have hbad : evexBBad e .imm bc ⟨o.mod, 6#3, o.rm⟩ = false := by
    cases bc with
    | false => rfl
    | true =>
      obtain ⟨hw, hm⟩ := hbc rfl
      obtain ⟨a, ha⟩ := Option.isSome_iff_exists.mp hm
      have hmod : o.mod ≠ 3#2 := spells_mod (ha ▸ ho)
      cases e <;> simp_all [evexBBad]
  refine readsBack_of_finish he fun tail => ?_
  rw [decode_encEvex ho _ _ _ _ _ _ _ _ _ _ fun h64 => ⟨rfl, (hext h64).1⟩, List.singleton_append,
    decodeEvex_evexImm hv (clash_rmPrefixes ..) hk _ _ _ imm _ _ _ _ _ _ rfl hbad (readRm_cut ho hext ..), hc, lowOnly_ok]
  intro h64
  simpa [lt_of_wfEvex hd h64] using regs_lt_of_wfV h (evexRegs_le h64)

/-- A VPSLLD or VPSLLQ immediate form `mk d` is read back: `d` is a register, memory, or a broadcast. -/
theorem readsBack_dataSrc {m : Mode} (hv : m.hasVex = true) {l : VLen} {e : Elem} (hw : e ≠ .w) {dst : VReg} {k : Masking}
    {imm : Byte} {mk : DataSrc → Instr} (hmk : ∀ bc o, evexImm l e dst k bc o imm = mk (dataSrcOf bc o))
    (he : ∀ d, encode m (mk d) = encEvexImm m l e dst k d imm) (hd : wfEvex m dst = true) (hk : k.wf = true) {d : DataSrc}
    (h : d.wf m = true) : ReadsBack m (mk d) := by
  cases d with
  | reg r => exact hmk false (.reg r) ▸ readsBack_evexImm hv hd hk h nofun (hmk false (.reg r) ▸ he (.reg r))
  | mem a => exact hmk false (.mem a) ▸ readsBack_evexImm hv hd hk h nofun (hmk false (.mem a) ▸ he (.mem a))
  | bcst a => exact hmk true (.mem a) ▸ readsBack_evexImm hv hd hk h (fun _ => ⟨hw, rfl⟩) (hmk true (.mem a) ▸ he (.bcst a))

/-! ## All classes -/

/-- In every mode, decoding the encoding of a well-formed instruction gives it back (30_encoding.md R122). -/
theorem readsBack_of_wf {m : Mode} {i : Instr} (h : i.wf m = true) : ReadsBack m i := by
  simp only [Instr.wf, Bool.and_eq_true] at h
  obtain ⟨hf, ho⟩ := h
  induction i using Instr.byClass with
  | mmxRm e dst cnt => exact readsBack_mmxRm (operandsWf_mmxRm .. ▸ ho)
  | mmxImm e dst imm => exact readsBack_mmxImm e dst imm
  | sseRm e dst cnt =>
    simp only [operandsWf_sseRm, Bool.and_eq_true] at ho
    exact readsBack_sseRm ho.1 ho.2
  | sseImm e dst imm => exact readsBack_sseImm e imm (operandsWf_sseImm .. ▸ ho)
  | vexRm l e dst src cnt =>
    simp only [operandsWf_vexRm, Bool.and_eq_true] at ho
    obtain ⟨⟨hd, hs⟩, hc⟩ := ho
    exact readsBack_vexRm (by simpa [Form.isLegacy] using hf) hd hs hc
  | vexImm l e dst src imm =>
    simp only [operandsWf_vexImm, Bool.and_eq_true] at ho
    exact readsBack_vexImm (by simpa [Form.isLegacy] using hf) l e imm ho.1 ho.2
  | evexRm l e dst msk src cnt =>
    simp only [operandsWf_evexRm, Bool.and_eq_true] at ho
    obtain ⟨⟨⟨hd, hk⟩, hs⟩, hc⟩ := ho
    exact readsBack_evexRm (by simpa [Form.isLegacy] using hf) hd hk hs hc
  | evexImmW l dst msk src imm =>
    simp only [operandsWf_evexImmW, Bool.and_eq_true] at ho
    obtain ⟨⟨hd, hk⟩, hs⟩ := ho
    exact readsBack_evexImm (e := .w) (bc := false) (by simpa [Form.isLegacy] using hf) hd hk hs nofun (encode_evexImmW ..)
  | evexImmD l dst msk src imm =>
    simp only [operandsWf_evexImmD, Bool.and_eq_true] at ho
    obtain ⟨⟨hd, hk⟩, hs⟩ := ho
    exact readsBack_dataSrc (e := .d) (by simpa [Form.isLegacy] using hf) nofun (fun _ _ => rfl)
      (encode_evexImmD m l dst msk · imm) hd hk hs
  | evexImmQ l dst msk src imm =>
    simp only [operandsWf_evexImmQ, Bool.and_eq_true] at ho
    obtain ⟨⟨hd, hk⟩, hs⟩ := ho
    exact readsBack_dataSrc (e := .q) (by simpa [Form.isLegacy] using hf) nofun (fun _ _ => rfl)
      (encode_evexImmQ m l dst msk · imm) hd hk hs

end Sys2Proof
end

