-- ==== Sys2Proof/Proofs/DecodeLength.lean ====
section
/-! SUPPORT. How many bytes a decoded instruction has: the decoder reads the escape byte or a VEX or
EVEX byte, the opcode and ModRM at least, and no part of it gives bytes back (30_encoding.md R115, R116). -/

namespace Sys2Proof

/-! ## Results of a reading that succeeds -/

theorem map_eq_ok_iff {ε α β : Type} {f : α → β} {r : Except ε α} {b : β} :
    r.map f = .ok b ↔ ∃ a, r = .ok a ∧ f a = b := by
  cases r <;> simp [Except.map]

theorem bind_eq_ok_iff {ε α β : Type} {f : α → Except ε β} {r : Except ε α} {b : β} :
    r >>= f = .ok b ↔ ∃ a, r = .ok a ∧ f a = .ok b := by
  cases r <;> simp [bind, Except.bind]

/-! ## What is left after a reading -/

/-- What is left when `r`, a reading of `bs`, succeeds is no longer than `bs`. -/
structure Shortens {α : Type} (r : Except Reject (α × List Byte)) (bs : List Byte) : Prop where
  le : ∀ x, r = .ok x → x.2.length ≤ bs.length

theorem shortens_ok {α : Type} {a : α} {rest bs : List Byte} (h : rest.length ≤ bs.length) :
    Shortens (.ok (a, rest)) bs where
  le := by
    rintro x ⟨⟩
    exact h

theorem shortens_error {α : Type} (x : Reject) (bs : List Byte) : Shortens (α := α) (.error x) bs where
  le := nofun

theorem Shortens.map {α β : Type} {r : Except Reject (α × List Byte)} {bs : List Byte} (h : Shortens r bs)
    {f : α × List Byte → β × List Byte} (hf : ∀ x, (f x).2 = x.2) : Shortens (r.map f) bs where
  le y hy := by
    obtain ⟨x, hx, rfl⟩ := map_eq_ok_iff.mp hy
    exact hf x ▸ h.le x hx

theorem Shortens.cons {α : Type} {r : Except Reject (α × List Byte)} {bs : List Byte} (h : Shortens r bs) (b : Byte) :
    Shortens r (b :: bs) where
  le x hx := Nat.le_succ_of_le (h.le x hx)

theorem shortens_readLe32 (bs : List Byte) : Shortens (readLe32 bs) bs := by
  unfold readLe32
  split
  · exact shortens_ok (by simp only [List.length_cons]; omega)
  · exact shortens_error ..

theorem shortens_readLe16 (bs : List Byte) : Shortens (readLe16 bs) bs := by
  unfold readLe16
  split
  · exact shortens_ok (by simp only [List.length_cons]; omega)
  · exact shortens_error ..

theorem shortens_readDisp (n : Nat) (mod : BitVec 2) (bs : List Byte) : Shortens (readDisp n mod bs) bs := by
  unfold readDisp
  split
  · exact shortens_ok (le_refl _)
  split
  · split
    · exact shortens_ok (by simp)
    · exact shortens_error ..
  · exact shortens_readLe32 bs

theorem shortens_readWide (m : Mode) (is64 x b : Bool) (n : Nat) (r : ModRM) (bs : List Byte) :
    Shortens (readWide m is64 x b n r bs) bs := by
  unfold readWide
  split
  · split
    · exact shortens_error ..
    · next sib bs =>
      dsimp only
      refine Shortens.cons ?_ sib
      split
      · exact (shortens_readLe32 bs).map fun _ => rfl
      · exact (shortens_readDisp n r.mod bs).map fun _ => rfl
  split
  · exact (shortens_readLe32 bs).map fun _ => rfl
  · exact (shortens_readDisp n r.mod bs).map fun _ => rfl

theorem shortens_readA16 (n : Nat) (r : ModRM) (bs : List Byte) : Shortens (readA16 n r bs) bs := by
  unfold readA16
  split
  · split
    · exact (shortens_readLe16 bs).map fun _ => rfl
    · exact shortens_ok (le_refl _)
  split
  · split
    · exact shortens_ok (by simp)
    · exact shortens_error ..
  · exact (shortens_readLe16 bs).map fun _ => rfl

theorem shortens_readMem (m : Mode) (p : Prefixes) (x b : Bool) (n : Nat) (r : ModRM) (bs : List Byte) :
    Shortens (readMem m p x b n r bs) bs := by
  unfold readMem
  refine Shortens.map ?_ fun _ => rfl
  split
  · exact shortens_readA16 n r bs
  · exact shortens_readWide m false x b n r bs
  · exact shortens_readWide m true x b n r bs

theorem shortens_readRm {α : Type} (m : Mode) (p : Prefixes) (x b : Bool) (n : Nat) (r : ModRM) (reg : α) (bs : List Byte) :
    Shortens (readRm m p x b n r reg bs) bs := by
  unfold readRm
  split
  · exact shortens_ok (le_refl _)
  · exact (shortens_readMem m p x b n r bs).map fun _ => rfl

theorem shortens_readImm (bs : List Byte) : Shortens (readImm bs) bs := by
  cases bs with
  | nil => exact shortens_error ..
  | cons b bs => exact shortens_ok (by simp)

theorem length_scanPrefixes (is64 : Bool) (p : Prefixes) (bs : List Byte) :
    (scanPrefixes is64 p bs).2.length ≤ bs.length := by
  induction bs generalizing p with
  | nil => exact le_refl _
  | cons b bs ih =>
    simp only [scanPrefixes]
    cases p.add b with
    | some p' => exact Nat.le_succ_of_le (ih p')
    | none =>
      dsimp only
      split
      · exact Nat.le_succ_of_le (ih _)
      · exact le_refl _

/-! ## The length -/

/-- A decoding that succeeds gives an instruction of 3 to 15 bytes, all of them among the `total` bytes given. -/
structure GoodLength (total : Nat) (r : Except Reject (Instr × Nat)) : Prop where
  bounds : ∀ i n, r = .ok (i, n) → 3 ≤ n ∧ n ≤ 15 ∧ n ≤ total

theorem goodLength_error (total : Nat) (x : Reject) : GoodLength total (.error x) where
  bounds _ _ h := by cases h

theorem goodLength_finish {total : Nat} {rest : List Byte} (h : rest.length + 3 ≤ total) (i : Except Reject Instr) :
    GoodLength total (finish total rest i) where
  bounds j n hj := by
    obtain ⟨-, hn, h15⟩ := (finish_ok_iff ..).mp hj
    omega

/-- A reading that leaves no more than it was given, and then the rest of the decoding. -/
theorem goodLength_bind {α : Type} {total : Nat} {r : Except Reject (α × List Byte)} {bs : List Byte} (hr : Shortens r bs)
    {f : α × List Byte → Except Reject (Instr × Nat)} (hf : ∀ x, x.2.length ≤ bs.length → GoodLength total (f x)) :
    GoodLength total (r >>= f) where
  bounds i n h := by
    obtain ⟨x, hx, hfx⟩ := bind_eq_ok_iff.mp h
    exact (hf x (hr.le x hx)).bounds i n hfx

/-- After a reading the instruction ends. -/
theorem goodLength_read {α : Type} {total : Nat} {r : Except Reject (α × List Byte)} {bs : List Byte} (hr : Shortens r bs)
    (h : bs.length + 3 ≤ total) (g : α × List Byte → Except Reject Instr) :
    GoodLength total (r >>= fun x => finish total x.2 (g x)) :=
  goodLength_bind hr fun x hle => goodLength_finish (by omega) (g x)

theorem goodLength_decodeLegacy (m : Mode) (p : Prefixes) {total : Nat} {bs : List Byte} (h : bs.length + 1 ≤ total) :
    GoodLength total (decodeLegacy m p total bs) := by
  unfold decodeLegacy
  split
  · exact goodLength_error ..
  next op bs =>
  split
  · exact goodLength_error ..
  split
  · exact goodLength_error ..
  next mb bs =>
  have hlen : bs.length + 3 ≤ total := by simp only [List.length_cons] at h; omega
  dsimp only
  split
  · exact goodLength_error ..
  split
  · exact goodLength_error ..
  split
  · exact goodLength_error ..
  split
  · exact goodLength_read (shortens_readRm ..) hlen _
  · exact goodLength_read (shortens_readImm bs) hlen _
  · exact goodLength_read (shortens_readRm ..) hlen _
  · exact goodLength_read (shortens_readImm bs) hlen _
  · exact goodLength_error ..

theorem goodLength_decodeVex (m : Mode) (p : Prefixes) (v : VexFields) {total : Nat} {bs : List Byte}
    (h : bs.length + 1 ≤ total) : GoodLength total (decodeVex m p total v bs) := by
  unfold decodeVex
  dsimp only
  split
  · exact goodLength_error ..
  split
  · exact goodLength_error ..
  split
  · exact goodLength_error ..
  next op bs =>
  split
  · exact goodLength_error ..
  split
  · exact goodLength_error ..
  next mb bs =>
  have hlen : bs.length + 3 ≤ total := by simp only [List.length_cons] at h; omega
  split
  · exact goodLength_error ..
  · split
    · exact goodLength_error ..
    split
    · exact goodLength_read (shortens_readRm ..) hlen _
    · exact goodLength_read (shortens_readImm bs) hlen _
  · exact goodLength_error ..

theorem goodLength_decodeEvex (m : Mode) (p : Prefixes) (v : EvexFields) {total : Nat} {bs : List Byte}
    (h : bs.length + 1 ≤ total) : GoodLength total (decodeEvex m p total v bs) := by
  unfold decodeEvex
  split
  · exact goodLength_error ..
  split
  · exact goodLength_error ..
  split
  · exact goodLength_error ..
  split
  · exact goodLength_error ..
  split
  · exact goodLength_error ..
  next op bs =>
  split
  · exact goodLength_error ..
  split
  · exact goodLength_error ..
  next mb bs =>
  have hlen : bs.length + 3 ≤ total := by simp only [List.length_cons] at h; omega
  dsimp only
  split
  · exact goodLength_error ..
  · split
    · exact goodLength_error ..
    · refine goodLength_bind (shortens_readRm ..) fun x hx => ?_
      split
      · exact goodLength_finish (by omega) _
      · exact goodLength_read (shortens_readImm x.2) (by omega) _
  · exact goodLength_error ..

theorem goodLength_decodeClass (m : Mode) (p : Prefixes) {total : Nat} {bs : List Byte} (h : bs.length ≤ total) :
    GoodLength total (decodeClass m p total bs) := by
  unfold decodeClass
  split
  · exact goodLength_error ..
  · rw [List.length_cons] at h
    split
    · exact goodLength_decodeLegacy m p h
    split
    · split
      · exact goodLength_error ..
      split
      · exact goodLength_error ..
      · exact goodLength_decodeVex m p _ (by simp only [List.length_cons] at h; omega)
    split
    · split
      · exact goodLength_error ..
      split
      · exact goodLength_error ..
      split
      · exact goodLength_error ..
      · exact goodLength_decodeVex m p _ (by simp only [List.length_cons] at h; omega)
    split
    · split
      · exact goodLength_error ..
      split
      · exact goodLength_error ..
      split
      · exact goodLength_decodeEvex m p _ (by simp only [List.length_cons] at h; omega)
      · exact goodLength_error ..
    · exact goodLength_error ..

/-- A decoded instruction has 3 to 15 bytes, all of them among the bytes given (30_encoding.md R115, R116). -/
theorem goodLength_decode (m : Mode) (bs : List Byte) : GoodLength bs.length (decode m bs) :=
  goodLength_decodeClass m _ (length_scanPrefixes m.is64 {} bs)

end Sys2Proof
end

