-- ==== Sys2Proof/Proofs/Rex.lean ====
section
/-! SUPPORT. What a REX byte does to an MMX form (10_state.md R26). -/

namespace Sys2Proof

/-- In 64-bit mode a REX byte before the escape byte is one of the prefixes. -/
theorem decode_rexByte (w r x b : Bool) (bs : List Byte) :
    decode .mode64 (rexByte w r x b :: 0x0F#8 :: bs) =
      decodeLegacy .mode64 { rex := some (rexByte w r x b) } (bs.length + 2) bs := by
  have hscan : scanPrefixes Mode.mode64.is64 {} (rexByte w r x b :: 0x0F#8 :: bs) =
      ({ rex := some (rexByte w r x b) }, 0x0F#8 :: bs) :=
    (scanPrefixes_rex _ (add_rexByte ..) (isRex_rexByte ..) rfl).trans (scanPrefixes_stop _ _ rfl rfl)
  rw [decode, hscan]
  rfl

theorem rexBit_rexByte (w r x b : Bool) :
    Prefixes.rexBit { rex := some (rexByte w r x b) } 1 = x ∧ Prefixes.rexBit { rex := some (rexByte w r x b) } 0 = b :=
  (bit_rexByte w r x b).2

/-- The instruction ends where the bytes that follow it begin. -/
theorem finish_of_length {total n : Nat} {tail : List Byte} (h : total = tail.length + n) (hn : n ≤ 15) (i : Instr) :
    finish total tail (.ok i) = .ok (i, n) := by
  rw [finish_ok_iff]
  exact ⟨rfl, by omega, hn⟩

/-- An MMX variable-count form after a REX byte; `k` bytes of the r/m operand follow ModRM. -/
theorem decode_rex_mmxRm (w r x b : Bool) (e : Elem) (q : ModRM) {bs tail : List Byte} {k : Nat} {c : RegMem MmReg}
    (hc : readRm .mode64 { rex := some (rexByte w r x b) } x b 1 q (mmregOf q.rm) bs = .ok (c, tail))
    (hlen : bs.length = tail.length + k) (hk : k ≤ 11) :
    decode .mode64 (rexByte w r x b :: 0x0F#8 :: opByte e .var :: q.toByte :: bs) =
      .ok (mmxRm e (mmregOf q.reg) c, k + 4) := by
  obtain ⟨hx, hb⟩ := rexBit_rexByte w r x b
  rw [decode_rexByte, decodeLegacy_mmxRm rfl rfl e q _ rfl (by rw [hx, hb]; exact hc)]
  exact finish_of_length (by simp only [List.length_cons]; omega) (by omega) _

/-- The default segment of a base register whose low bits are not those of RSP or RBP is DS (30_encoding.md R97). -/
theorem gregOf_ne_stack : ∀ (b : Bool) (rm : BitVec 3), rm ≠ 4#3 → rm ≠ 5#3 → ¬(gregOf b rm = 4 ∨ gregOf b rm = 5) := by
  decide

theorem indexOf_eq_some : ∀ (x : Bool) (f : BitVec 3), x = true ∨ f ≠ 4#3 → indexOf x f = some (gregOf x f) := by decide

/-- A base register alone: `[rm]`. -/
theorem readRm_base (p : Prefixes) (hp : p.asize = false ∧ p.seg = none) (x b : Bool) (reg : BitVec 3) {rm : BitVec 3}
    (h4 : rm ≠ 4#3) (h5 : rm ≠ 5#3) (v : MmReg) (tail : List Byte) :
    readRm .mode64 p x b 1 ⟨0#2, reg, rm⟩ v tail =
      .ok (.mem ⟨.ds, .wide true (.gpr (gregOf b rm)) none 0 0#32⟩, tail) := by
  simp [readRm, readMem, addrSize, Mode.is64, readWide, readDisp, Except.map, EffAddr.defaultSeg, hp, h4, h5,
    gregOf_ne_stack b rm h4 h5]

/-- A base and an index register: `[rm + index]`, by a SIB byte. -/
theorem readRm_base_index (p : Prefixes) (hp : p.asize = false ∧ p.seg = none) {x : Bool} (b : Bool) (reg : BitVec 3)
    {index rm : BitVec 3} (hi : x = true ∨ index ≠ 4#3) (h4 : rm ≠ 4#3) (h5 : rm ≠ 5#3) (v : MmReg) (tail : List Byte) :
    readRm .mode64 p x b 1 ⟨0#2, reg, 4#3⟩ v (sibByte 0 index rm :: tail) =
      .ok (.mem ⟨.ds, .wide true (.gpr (gregOf b rm)) (some (gregOf x index)) 0 0#32⟩, tail) := by
  obtain ⟨hbase, hindex, hscale⟩ := sib_fields 0 index rm
  simp [readRm, readMem, addrSize, Mode.is64, readWide, readDisp, Except.map, EffAddr.defaultSeg, hp, h5, hbase, hindex,
    hscale, indexOf_eq_some x index hi, gregOf_ne_stack b rm h4 h5]

/-- Settles O58: the register operands are those of ModRM alone, the base and the index take REX.B and REX.X. -/
theorem rexDoesNotExtendMmx : Obligations.RexDoesNotExtendMmx := by
  intro w r x b e reg rm imm tail
  refine ⟨?_, ?_, fun h4 h5 => ?_, fun hi h4 h5 => ?_⟩
  · exact decode_rex_mmxRm w r x b e ⟨3#2, reg, rm⟩ (k := 0) rfl rfl (by decide)
  · refine (decode_rexByte w r x b _).trans ?_
    refine (decodeLegacy_mmxImm rfl rfl e ⟨3#2, 6#3, rm⟩ imm _ rfl rfl rfl).trans ?_
    exact finish_of_length (by simp only [List.length_cons]) (by decide) _
  · exact decode_rex_mmxRm w r x b e ⟨0#2, reg, rm⟩ (k := 0) (readRm_base _ ⟨rfl, rfl⟩ x b reg h4 h5 _ tail) rfl (by decide)
  · exact decode_rex_mmxRm w r x b e ⟨0#2, 0#3, 4#3⟩ (k := 1) (readRm_base_index _ ⟨rfl, rfl⟩ b 0#3 hi h4 h5 _ tail) rfl
      (by decide)

end Sys2Proof
end

