-- ==== Sys2Proof/Proofs/Steps.lean ====
section
/-! SUPPORT. The step: what it fetches, what it changes, and the state it starts from (10_state.md). -/

namespace Sys2Proof.Machine

/-! ## Fetch: the bytes of an encoding that stand at pc are all of them fetched -/

/-- A byte of the program text is a listed byte of memory. -/
theorem read_of_fetchByte {s : State} {j : Nat} {b : Byte} (h : s.fetchByte j = some b) :
    s.mem.read (s.fetchAddr j) = some b := by
  unfold State.fetchByte at h
  split at h <;> exact (Option.ite_none_right_eq_some.mp h).2

theorem mem_keys_of_find {mem : Memory} {a : Nat} {b : Byte} (h : mem.find a = some b) : a ∈ mem.map Prod.fst := by
  induction mem with
  | nil => cases h
  | cons c cells ih =>
    obtain ⟨d, w⟩ := c
    rw [Memory.find] at h
    split at h
    · next e => simp [e]
    · exact List.mem_cons_of_mem _ (ih h)

/-- Bytes less than 2^32 apart are fetched from different addresses. -/
theorem fetchAddr_inj (s : State) {i j : Nat} (hi : i < 2 ^ 32) (hj : j < 2 ^ 32)
    (h : (s.fetchAddr i).toNat = (s.fetchAddr j).toNat) : i = j := by
  unfold State.fetchAddr at h
  split at h
  · simp only [BitVec.toNat_add, BitVec.toNat_ofNat] at h
    omega
  · simp only [BitVec.toNat_setWidth, BitVec.toNat_add, BitVec.toNat_ofNat] at h
    omega

/-- The fuel of `fetchBytes` is enough: memory lists every byte of the program text. -/
theorem length_le_of_fetch {s : State} {n : Nat} (hn : n ≤ 2 ^ 32) (h : ∀ j, j < n → ∃ b, s.fetchByte j = some b) :
    n ≤ s.mem.length := by
  have hnodup : ((List.range n).map fun j => (s.fetchAddr j).toNat).Nodup :=
    List.Nodup.map_on (fun i hi j hj e => fetchAddr_inj s (lt_of_lt_of_le (List.mem_range.mp hi) hn)
      (lt_of_lt_of_le (List.mem_range.mp hj) hn) e) List.nodup_range
  have hsub : ((List.range n).map fun j => (s.fetchAddr j).toNat) ⊆ s.mem.map Prod.fst := fun a ha => by
    obtain ⟨j, hj, rfl⟩ := List.mem_map.mp ha
    obtain ⟨b, hb⟩ := h j (List.mem_range.mp hj)
    exact mem_keys_of_find (read_of_fetchByte hb)
  simpa using (List.subperm_of_subset hnodup hsub).length_le

/-- The bytes that stand from `off` bytes after pc on are the first that are fetched. -/
theorem fetchFrom_of_bytes {s : State} {bs : List Byte} {fuel off : Nat} (hf : bs.length ≤ fuel)
    (h : ∀ j, j < bs.length → s.fetchByte (off + j) = bs[j]?) : ∃ tail, s.fetchFrom fuel off = bs ++ tail := by
  induction bs generalizing fuel off with
  | nil => exact ⟨_, rfl⟩
  | cons b bs ih =>
    cases fuel with
    | zero => simp at hf
    | succ fuel =>
      have h0 : s.fetchByte off = some b := h 0 (by simp)
      obtain ⟨tail, ht⟩ := ih (fuel := fuel) (off := off + 1) (by simpa using hf) fun j hj => by
        have := h (j + 1) (by simpa using hj)
        rwa [show off + 1 + j = off + (j + 1) by omega]
      exact ⟨tail, by rw [State.fetchFrom, h0, ht, List.cons_append]⟩

/-- The bytes that stand at pc, whatever follows them, are the first that are fetched. -/
theorem fetchBytes_of_bytes {s : State} {bs : List Byte} (hlen : bs.length ≤ 2 ^ 32)
    (h : ∀ j, j < bs.length → s.fetchByte j = bs[j]?) : ∃ tail, s.fetchBytes = bs ++ tail :=
  fetchFrom_of_bytes (length_le_of_fetch hlen fun j hj => ⟨bs[j], by rw [h j hj, List.getElem?_eq_getElem hj]⟩)
    (by simpa using h)

/-! ## The step -/

theorem step_of_decode {s : State} {i : Instr} {n : Nat} (h : decode s.cfg.mode s.fetchBytes = .ok (i, n)) :
    step s = exec i (s.latch n) := by
  rw [step, h]

/-- A step that completes ran a decoded instruction of 3 to 15 bytes, and left what it writes. -/
theorem step_next {s t : State} (h : step s = .next t) :
    ∃ i n, decode s.cfg.mode s.fetchBytes = .ok (i, n) ∧ (3 ≤ n ∧ n ≤ 15) ∧ Instr.Writes i (s.latch n) t := by
  cases hd : decode s.cfg.mode s.fetchBytes with
  | error r =>
    rw [step, hd] at h
    cases r <;> cases h
  | ok p =>
    obtain ⟨i, n⟩ := p
    obtain ⟨h3, h15, -⟩ := (goodLength_decode _ _).bounds i n hd
    rw [step_of_decode hd] at h
    exact ⟨i, n, rfl, ⟨h3, h15⟩, (writes_of_exec_next h).2⟩

/-- A step that faults reports the unchanged pc. -/
theorem pc_of_step_fault {s : State} {x : Fault} (h : step s = .fault x) : x.pc = s.pc := by
  cases hd : decode s.cfg.mode s.fetchBytes with
  | error r =>
    rw [step, hd] at h
    cases r <;> cases h <;> rfl
  | ok p =>
    obtain ⟨i, n⟩ := p
    rw [step_of_decode hd] at h
    rw [pc_of_exec_fault h, State.latch_pc]

/-- Settles O37, by the definition of the step. -/
theorem stepRunsTheDecodedInstruction : Obligations.StepRunsTheDecodedInstruction :=
  fun _ _ _ h _ => step_of_decode h

/-- Settles O38: the bytes that are fetched begin with the encoding, and the decoder reads it back. -/
theorem stepRunsTheEncodedInstruction : Obligations.StepRunsTheEncodedInstruction := by
  intro s i hwf hbytes
  have hlen : (encode s.cfg.mode i).length ≤ 2 ^ 32 := le_trans (length_encode _ i).2 (by decide)
  obtain ⟨tail, hfetch⟩ := fetchBytes_of_bytes hlen hbytes
  exact step_of_decode (by rw [hfetch]; exact readsBack_of_wf hwf tail)

/-- Settles O39, from what the instruction of the step writes. -/
theorem frameOfEveryStep : Obligations.FrameOfEveryStep := by
  intro s t h
  obtain ⟨i, n, hd, -, hw⟩ := step_next h
  obtain ⟨-, hmem, hk, -⟩ := hw.rest
  exact ⟨i, n, hd, hw.keepsBut, hmem, hk, fun dst e c hdst hf => hw.upper_of_sse hdst hf⟩

/-- Settles O40: the latched length is that of the decoded instruction. -/
theorem stepAdvancesPc : Obligations.StepAdvancesPc := by
  refine fun s => ⟨fun t h => ?_, fun x h => pc_of_step_fault h⟩
  obtain ⟨i, n, hd, ⟨h3, h15⟩, hw⟩ := step_next h
  refine ⟨i, n, hd, h3, h15, ?_⟩
  rw [hw.rest.1, State.nextPc, BitVec.toNat_add, BitVec.toNat_ofNat, State.latch_pc, State.latch_ilen, Nat.add_mod_mod]

/-- Settles O41: a step changes nothing that the readiness of a form or the canonical form of memory depends on. -/
theorem stepKeepsTheInvariant : Obligations.StepKeepsTheInvariant := by
  intro s t h
  obtain ⟨i, n, -, ⟨-, h15⟩, hw⟩ := step_next h
  obtain ⟨-, hmem, -, hflags, hctrl, hsegs, hcfg, hilen, hpend⟩ := hw.rest
  have hready : ∀ f, t.ready f = s.ready f := State.ready_congr hctrl hflags hcfg hpend
  refine ⟨fun hinv => ?_, hready, hctrl, hsegs, hcfg⟩
  simp only [State.inv, Bool.and_eq_true, decide_eq_true_eq] at hinv ⊢
  obtain ⟨⟨hwf, hr⟩, -⟩ := hinv
  exact ⟨⟨by rw [hmem]; exact hwf, by rw [hready]; exact hr⟩, by rw [hilen]; exact h15⟩

/-! ## Control bits (10_state.md R38) -/

theorem realOrV86_eq_false_iff (s : State) : s.realOrV86 = false ↔
    s.cfg.mode ≠ .real ∧ s.cfg.mode ≠ .v86 ∧ s.ctrl.cr0.getLsbD 0 = true ∧ s.flags.getLsbD 17 = false := by
  simp [State.realOrV86, State.flagVM, bit, and_assoc]

theorem avail_mmx_iff (s : State) (e : Elem) (c : CountKind) :
    s.avail (.mmx e c) = true ↔ s.cfg.features.mmx = true ∧ s.ctrl.cr0.getLsbD 2 = false := by
  simp [State.avail, Features.has, State.em, bit]

theorem avail_sse_iff (s : State) (e : Elem) (c : CountKind) : s.avail (.sse e c) = true ↔
    s.cfg.features.sse2 = true ∧ s.ctrl.cr0.getLsbD 2 = false ∧ s.ctrl.cr4.getLsbD 9 = true := by
  simp [State.avail, Features.has, State.em, State.osfxsr, bit]

theorem avail_vex_iff (s : State) (l : VLen) (e : Elem) (c : CountKind) : s.avail (.vex l e c) = true ↔
    s.cfg.features.has (.vex l e c) = true ∧ s.realOrV86 = false ∧
      s.ctrl.cr4.getLsbD 18 = true ∧ s.ctrl.xcr0.getLsbD 1 = true ∧ s.ctrl.xcr0.getLsbD 2 = true := by
  simp [State.avail, State.osxsave, State.xcrAvx, bit, and_assoc]

theorem avail_evex_iff (s : State) (l : VLen) (e : Elem) (c : CountKind) : s.avail (.evex l e c) = true ↔
    s.cfg.features.has (.evex l e c) = true ∧ s.realOrV86 = false ∧
      (s.ctrl.cr4.getLsbD 18 = true ∧ s.ctrl.xcr0.getLsbD 1 = true ∧ s.ctrl.xcr0.getLsbD 2 = true) ∧
      s.ctrl.xcr0.getLsbD 5 = true ∧ s.ctrl.xcr0.getLsbD 6 = true ∧ s.ctrl.xcr0.getLsbD 7 = true := by
  simp [State.avail, State.osxsave, State.xcrAvx, State.xcrZmm, bit, and_assoc]

/-- The features of an EVEX form (00_scope.md R3): AVX512BW for words, else AVX512F; and AVX512VL below 512 bits. -/
theorem has_evex_iff (f : Features) (l : VLen) (e : Elem) (c : CountKind) : f.has (.evex l e c) = true ↔
    (if e = .w then f.avx512bw else f.avx512f) = true ∧ (l = .v512 ∨ f.avx512vl = true) := by
  cases l <;> cases e <;> simp [Features.has]

/-- Settles O23, class by class. -/
theorem availabilityBits : Obligations.AvailabilityBits := by
  intro s e c l
  refine ⟨avail_mmx_iff s e c, avail_sse_iff s e c, ?_, ?_, ?_, ?_⟩
  · rw [avail_vex_iff, realOrV86_eq_false_iff]
    rfl
  · rw [avail_vex_iff, realOrV86_eq_false_iff]
    rfl
  · rw [avail_evex_iff, realOrV86_eq_false_iff, has_evex_iff, and_assoc]
  · simp [State.deviceReady, bit]

/-! ## Reset (10_state.md R43) -/

/-- Settles O42: at reset memory is empty, the MMX forms are ready and no length is latched. -/
theorem invariantAtReset : Obligations.InvariantAtReset := by
  have hready : State.reset.ready (.mmx .w .var) = true := by decide
  simp only [Obligations.InvariantAtReset, State.inv, reset_mem_wf, hready]
  rfl

/-- Settles O45: the register files are filled with 0, and the other values are those written in the reset state. -/
theorem resetValues : Obligations.ResetValues :=
  ⟨fun r => Vector.getElem_replicate r.isLt, fun r => Vector.getElem_replicate r.isLt,
    fun r => Vector.getElem_replicate r.isLt, fun r => Vector.getElem_replicate r.isLt,
    rfl, rfl, rfl, rfl, rfl, rfl, rfl, rfl, rfl, rfl, rfl, rfl, rfl⟩

end Sys2Proof.Machine
end

