-- ==== Sys2Proof/Proofs/MemoryOperands.lean ====
section
/-! SUPPORT. Memory operands: what a read that succeeds says of the bytes, and when an instruction that has a memory operand
completes or faults (20_memory.md). -/

namespace Sys2Proof

section Names

variable (l : VLen) (l' : Bool) (e : Elem) (r : MmReg) (dst src : VReg) (msk : Masking) (mc : RegMem MmReg)
  (cnt : RegMem VReg) (d : DataSrc) (imm : Byte)

/-! ## The operand that is accessed whole, class by class -/

@[simp] theorem wholeOperand?_mmxRm : (mmxRm e r mc).wholeOperand? = mc.memOp?.map (·, 8) := by
  simp [Instr.wholeOperand?, Option.map_eq_bind]
@[simp] theorem wholeOperand?_sseRm : (sseRm e dst cnt).wholeOperand? = cnt.memOp?.map (·, 16) := by
  simp [Instr.wholeOperand?, Option.map_eq_bind]
@[simp] theorem wholeOperand?_vexRm : (vexRm l' e dst src cnt).wholeOperand? = cnt.memOp?.map (·, 16) := by
  simp [Instr.wholeOperand?, Option.map_eq_bind]
@[simp] theorem wholeOperand?_evexRm : (evexRm l e dst msk src cnt).wholeOperand? = cnt.memOp?.map (·, 16) := by
  simp [Instr.wholeOperand?, Option.map_eq_bind]
@[simp] theorem wholeOperand?_evexImmW : (evexImmW l dst msk cnt imm).wholeOperand? = cnt.memOp?.map (·, l.bits / 8) := by
  simp [Instr.wholeOperand?, Option.map_eq_bind]

@[simp] theorem wholeOperand?_mmxImm : (mmxImm e r imm).wholeOperand? = none := by simp [Instr.wholeOperand?]
@[simp] theorem wholeOperand?_sseImm : (sseImm e dst imm).wholeOperand? = none := by simp [Instr.wholeOperand?]
@[simp] theorem wholeOperand?_vexImm : (vexImm l' e dst src imm).wholeOperand? = none := by simp [Instr.wholeOperand?]
@[simp] theorem wholeOperand?_evexImmD : (evexImmD l dst msk d imm).wholeOperand? = none := by simp [Instr.wholeOperand?]
@[simp] theorem wholeOperand?_evexImmQ : (evexImmQ l dst msk d imm).wholeOperand? = none := by simp [Instr.wholeOperand?]

end Names

end Sys2Proof

namespace Sys2Proof.Machine

/-! ## Little-endian values (20_memory.md R50) -/

/-- A byte of the value of an operand is the byte of the operand. -/
theorem extractLsb'_operandValue (s : State) {W : Nat} (m : MemOp) {n i : Nat} (hW : n * 8 ≤ W) (hi : i < n) :
    (s.operandValue W m n).extractLsb' (8 * i) 8 = s.operandByte m i := by
  rw [Nat.mul_comm]
  exact lane_packLanes _ hi hW

/-- The first bytes of an operand are the low bits of its value. -/
theorem setWidth_operandValue (s : State) {V W : Nat} (m : MemOp) {a b : Nat} (hV : a * 8 = V) (hab : a ≤ b)
    (hW : b * 8 ≤ W) : (s.operandValue W m b).setWidth V = s.operandValue V m a := by
  refine eq_of_lanes hV fun j hj => ?_
  calc lane 8 ((s.operandValue W m b).setWidth V) j
      = lane 8 (s.operandValue W m b) j := lane_setWidth _ (by omega)
    _ = s.operandByte m j := lane_packLanes _ (by omega) hW
    _ = lane 8 (s.operandValue V m a) j := (lane_packLanes _ hj (le_of_eq hV)).symm

/-- Memory holds the byte of an operand that can be read. -/
theorem read_of_byteReadable {s : State} {m : MemOp} {o : Nat} (h : s.byteReadable m o = true) :
    s.mem.read (s.linear m o) = some (s.operandByte m o) := by
  obtain ⟨-, -, -, hread⟩ := (State.byteReadable_iff s m o).mp h
  obtain ⟨b, hb⟩ := Option.isSome_iff_exists.mp hread
  rw [State.operandByte, hb, Option.getD_some]

/-- The checks of MemRead pass on bytes that can be read, all of them. -/
theorem bytesReadable_of_accessFault {s : State} {m : MemOp} {rule : AlignRule} {n : Nat}
    (h : s.accessFault m rule (List.range n) = none) : s.bytesReadable m n = true := by
  obtain ⟨hbytes, -⟩ := (State.accessFault_eq_none_iff ..).mp h
  exact (State.bytesReadable_iff s m n).mpr fun o ho => hbytes o (List.mem_range.mpr ho)

/-- One byte that cannot be read makes an operand that cannot be read. -/
theorem bytesReadable_eq_false {s : State} {m : MemOp} {n o : Nat} (ho : o < n) (hb : s.byteReadable m o = false) :
    s.bytesReadable m n = false :=
  Bool.eq_false_iff.mpr fun h => by simp [(State.bytesReadable_iff s m n).mp h o ho] at hb

/-- Without an alignment rule MemRead succeeds on every operand that can be read. -/
theorem memRead_any_of_bytesReadable {s : State} {m : MemOp} {n : Nat} (W : Nat) (h : s.bytesReadable m n = true) :
    s.memRead W m .any n = .ok (s.operandValue W m n) := by
  refine (State.memRead_ok_iff ..).mpr ⟨(State.accessFault_eq_none_iff ..).mpr ⟨fun o ho => ?_, nofun, nofun⟩, rfl⟩
  exact (State.bytesReadable_iff s m n).mp h o (List.mem_range.mp ho)

/-- Settles O48: a read that succeeds gives the packed bytes of the operand, each of which memory holds. -/
theorem littleEndianReads : Obligations.LittleEndianReads := by
  refine fun s m rule => ⟨fun n _ v h i hi => ?_, fun v h => ?_⟩
  · obtain ⟨hchecks, rfl⟩ := (State.memRead_ok_iff ..).mp h
    rw [extractLsb'_operandValue s m (le_of_eq (Nat.mul_comm n 8)) hi]
    exact read_of_byteReadable ((State.bytesReadable_iff s m n).mp (bytesReadable_of_accessFault hchecks) i hi)
  · obtain ⟨hchecks, rfl⟩ := (State.memRead_ok_iff ..).mp h
    have hbytes := (State.bytesReadable_iff s m 8).mp (bytesReadable_of_accessFault hchecks)
    rw [setWidth_operandValue s m (a := 4) rfl (by decide) (by decide)]
    exact memRead_any_of_bytesReadable 32 ((State.bytesReadable_iff s m 4).mpr fun o ho => hbytes o (by omega))

/-! ## An instruction completes or faults -/

theorem exec_ne_refused (i : Instr) (s : State) (r : Refusal) : exec i s ≠ .refused r := by
  induction i using Instr.byClass with
  | mmxRm e dst cnt => exact exec_mmxRm .. ▸ State.withOperand_ne_refused _ _ _ _ _
  | mmxImm e dst imm => exact exec_mmxImm .. ▸ State.withOperand_ne_refused _ _ _ _ _
  | sseRm e dst cnt => exact exec_sseRm .. ▸ State.withOperand_ne_refused _ _ _ _ _
  | sseImm e dst imm => exact exec_sseImm .. ▸ State.withOperand_ne_refused _ _ _ _ _
  | vexRm l e dst src cnt => exact exec_vexRm .. ▸ State.withOperand_ne_refused _ _ _ _ _
  | vexImm l e dst src imm => exact exec_vexImm .. ▸ State.withOperand_ne_refused _ _ _ _ _
  | evexRm l e dst msk src cnt => exact exec_evexRm .. ▸ State.withOperand_ne_refused _ _ _ _ _
  | evexImmW l dst msk src imm => exact exec_evexImmW .. ▸ State.withOperand_ne_refused _ _ _ _ _
  | evexImmD l dst msk src imm => exact exec_evexImmD .. ▸ State.withOperand_ne_refused _ _ _ _ _
  | evexImmQ l dst msk src imm => exact exec_evexImmQ .. ▸ State.withOperand_ne_refused _ _ _ _ _

/-- An instruction that does not complete faults. -/
theorem exists_fault_of_not_next {i : Instr} {s : State} (h : ¬ ∃ t, exec i s = .next t) : ∃ x, exec i s = .fault x := by
  cases he : exec i s with
  | next t => exact absurd ⟨t, he⟩ h
  | fault x => exact ⟨x, rfl⟩
  | refused r => exact absurd he (exec_ne_refused i s r)

/-- A form completes exactly when it is ready and its operand is read. -/
theorem withOperand_completes_iff {α : Type} (s : State) (f : Form) (operand : Except Fault α) (body : α → State) :
    (∃ t, s.withOperand f operand body = .next t) ↔ s.ready f = true ∧ ∃ a, operand = .ok a := by
  simp only [State.withOperand_next_iff]
  constructor
  · rintro ⟨_, hr, a, ha, -⟩
    exact ⟨hr, a, ha⟩
  · rintro ⟨hr, a, ha⟩
    exact ⟨_, hr, a, ha, rfl⟩

/-! ## Misaligned counts (20_memory.md R56, R58) -/

theorem exists_mmxRm_of_mem {i : Instr} {dst : MmReg} {cnt : RegMem MmReg}
    (hi : i ∈ [Instr.mmxPsllwRm dst cnt, .mmxPslldRm dst cnt, .mmxPsllqRm dst cnt]) : ∃ e, i = mmxRm e dst cnt := by
  simp only [List.mem_cons, List.not_mem_nil, or_false] at hi
  rcases hi with rfl | rfl | rfl
  exacts [⟨.w, rfl⟩, ⟨.d, rfl⟩, ⟨.q, rfl⟩]

theorem exists_sseRm_of_mem {i : Instr} {dst : VReg} {cnt : RegMem VReg}
    (hi : i ∈ [Instr.ssePsllwRm dst cnt, .ssePslldRm dst cnt, .ssePsllqRm dst cnt]) : ∃ e, i = sseRm e dst cnt := by
  simp only [List.mem_cons, List.not_mem_nil, or_false] at hi
  rcases hi with rfl | rfl | rfl
  exacts [⟨.w, rfl⟩, ⟨.d, rfl⟩, ⟨.q, rfl⟩]

/-- The check of an SSE128 operand that passes the segment checks and is not a multiple of 16: #GP(0), ahead of #PF. -/
theorem accessFault_sse16_of_misaligned {s : State} {m : MemOp} {offs : List Nat}
    (hseg : ∀ o ∈ offs, s.segmentOk m o = true ∧ s.translateSegment (s.linear m o) = false)
    (ha : (s.linear m 0).toNat % 16 ≠ 0) : s.accessFault m .sse16 offs = some (.gp s.pc) := by
  have hpass : ¬ offs.any (fun o => !s.segmentOk m o || s.translateSegment (s.linear m o)) = true := by
    rw [List.any_eq_true]
    rintro ⟨o, ho, hfail⟩
    simp [hseg o ho] at hfail
  have hmis : AlignRule.sse16 = .sse16 ∧ (s.linear m 0).toNat % 16 ≠ 0 := ⟨rfl, ha⟩
  rw [State.accessFault, if_neg hpass, if_pos hmis]
  exact ite_self _

/-- The check of an MMX operand that can be read and is not a multiple of 8, under alignment checking: #AC(0). -/
theorem accessFault_mmx8_of_misaligned {s : State} {m : MemOp} {offs : List Nat}
    (hb : ∀ o ∈ offs, s.byteReadable m o = true) (hac : s.alignCheck = true) (ha : (s.linear m 0).toNat % 8 ≠ 0) :
    s.accessFault m .mmx8 offs = some (.ac s.pc) := by
  have hb' := fun o ho => (State.byteReadable_iff s m o).mp (hb o ho)
  cases hx : s.accessFault m .mmx8 offs with
  | none =>
    obtain ⟨-, -, halign⟩ := (State.accessFault_eq_none_iff ..).mp hx
    exact absurd (halign rfl hac) ha
  | some x =>
    rcases State.accessFault_cases hx with ⟨-, hrule, -⟩ | ⟨-, o, ho, hseg⟩ | ⟨-, hrule, -⟩ | ⟨o, ho, c, hpage, -⟩ |
      ⟨rfl, -⟩ | ⟨o, ho, hread, -⟩
    · cases hrule
    · obtain ⟨hok, htr, -⟩ := hb' o ho
      simp [hok, htr] at hseg
    · cases hrule
    · obtain ⟨-, -, hnone, -⟩ := hb' o ho
      simp [hnone] at hpage
    · rfl
    · obtain ⟨-, -, -, hsome⟩ := hb' o ho
      simp [hread] at hsome

/-- Settles O25: of the checks that come before the alignment only one of SSE128 in real mode can fail, and it too is #GP(0). -/
theorem misalignedSseCount : Obligations.MisalignedSseCount := by
  intro s dst m i hi hready hseg ha
  obtain ⟨e, rfl⟩ := exists_sseRm_of_mem hi
  rw [form_sseRm] at hready
  have hfault := accessFault_sse16_of_misaligned (fun o ho => hseg o (List.mem_range.mp ho)) ha
  rw [exec_sseRm, sseShift_fault_iff]
  exact .inr ⟨hready, (map_eq_error_iff ..).mpr ((State.memRead_error_iff ..).mpr hfault)⟩

theorem alignCheck_iff (s : State) : s.alignCheck = true ↔
    s.ctrl.cr0.getLsbD 18 = true ∧ s.flags.getLsbD 18 = true ∧ s.ctrl.cpl = 3#2 := by
  simp [State.alignCheck, State.flagAC, bit, and_assoc]

/-- Settles O26: alignment checking decides between #AC(0) and the count. -/
theorem misalignedMmxCount : Obligations.MisalignedMmxCount := by
  intro s dst m i hi hready hb ha
  obtain ⟨e, rfl⟩ := exists_mmxRm_of_mem hi
  rw [form_mmxRm] at hready
  simp only [← alignCheck_iff, exec_mmxRm]
  split
  · next hac =>
    have hbytes := (State.bytesReadable_iff s m 8).mp hb
    have hfault := accessFault_mmx8_of_misaligned (fun o ho => hbytes o (List.mem_range.mp ho)) hac ha
    rw [mmxShift_fault_iff]
    exact .inr ⟨hready, (map_eq_error_iff ..).mpr ((State.memRead_error_iff ..).mpr hfault)⟩
  · next hac =>
    refine (withOperand_completes_iff ..).mpr ⟨hready, _, (State.mmxCount_ok_iff ..).mpr ⟨?_, rfl⟩⟩
    simp [State.mmxCountReadable, hb, hac]

/-! ## Operands that are accessed whole (20_memory.md R54, R62, R72) -/

section Whole

variable {m : MemOp} {n : Nat}

/-- All 8 bytes of an MMX count are read (20_memory.md R53). -/
theorem bytesReadable_of_mmxCount {s : State} {cnt : RegMem MmReg} {c : Nat} (h : s.mmxCount cnt = .ok c)
    (hm : cnt.memOp? = some m) : s.bytesReadable m 8 = true := by
  cases cnt with
  | reg r => cases hm
  | mem m' =>
    cases hm
    obtain ⟨hchecks, -⟩ := (State.memRead_map_ok_iff ..).mp h
    exact bytesReadable_of_accessFault hchecks

/-- All 16 bytes of the other counts are read, the ignored upper ones among them (20_memory.md R54). -/
theorem bytesReadable_of_xmmCount {s : State} {rule : AlignRule} {cnt : RegMem VReg} {c : Nat}
    (h : s.xmmCount rule cnt = .ok c) (hm : cnt.memOp? = some m) : s.bytesReadable m 16 = true := by
  cases cnt with
  | reg r => cases hm
  | mem m' =>
    cases hm
    obtain ⟨hchecks, -⟩ := (State.memRead_map_ok_iff ..).mp h
    exact bytesReadable_of_accessFault hchecks

/-- The whole vector of a VPSLLW source is read, whatever the mask (20_memory.md R62). -/
theorem bytesReadable_of_wholeSource {s : State} {VL : Nat} {src : RegMem VReg} {v : BitVec VL}
    (h : s.wholeSource VL src = .ok v) (hm : src.memOp? = some m) : s.bytesReadable m (VL / 8) = true := by
  cases src with
  | reg r => cases hm
  | mem m' =>
    cases hm
    obtain ⟨hchecks, -⟩ := (State.memRead_ok_iff ..).mp h
    exact bytesReadable_of_accessFault hchecks

/-- An instruction that completes has read every byte of the operand that it accesses whole. -/
theorem bytesReadable_of_exec_next {i : Instr} {s t : State} (h : exec i s = .next t)
    (hw : i.wholeOperand? = some (m, n)) : s.bytesReadable m n = true := by
  induction i using Instr.byClass with
  | mmxRm e dst cnt =>
    obtain ⟨hm, rfl⟩ : cnt.memOp? = some m ∧ 8 = n := by simpa using hw
    obtain ⟨-, c, hc, -⟩ := (mmxShift_next_iff ..).mp (exec_mmxRm .. ▸ h)
    exact bytesReadable_of_mmxCount hc hm
  | sseRm e dst cnt =>
    obtain ⟨hm, rfl⟩ : cnt.memOp? = some m ∧ 16 = n := by simpa using hw
    obtain ⟨-, c, hc, -⟩ := (sseShift_next_iff ..).mp (exec_sseRm .. ▸ h)
    exact bytesReadable_of_xmmCount hc hm
  | vexRm l e dst src cnt =>
    obtain ⟨hm, rfl⟩ : cnt.memOp? = some m ∧ 16 = n := by simpa using hw
    obtain ⟨-, c, hc, -⟩ := (vexShift_next_iff ..).mp (exec_vexRm .. ▸ h)
    exact bytesReadable_of_xmmCount hc hm
  | evexRm l e dst msk src cnt =>
    obtain ⟨hm, rfl⟩ : cnt.memOp? = some m ∧ 16 = n := by simpa using hw
    obtain ⟨-, c, hc, -⟩ := (evexShift_next_iff ..).mp (exec_evexRm .. ▸ h)
    exact bytesReadable_of_xmmCount hc hm
  | evexImmW l dst msk src imm =>
    obtain ⟨hm, rfl⟩ : src.memOp? = some m ∧ l.bits / 8 = n := by simpa using hw
    obtain ⟨-, v, hv, -⟩ := (evexImmShift_next_iff ..).mp (exec_evexImmW .. ▸ h)
    exact bytesReadable_of_wholeSource hv hm
  | mmxImm e dst imm => simp at hw
  | sseImm e dst imm => simp at hw
  | vexImm l e dst src imm => simp at hw
  | evexImmD l dst msk src imm => simp at hw
  | evexImmQ l dst msk src imm => simp at hw

end Whole

/-- Settles O29: an instruction that completes has read every byte, so one that cannot be read makes it fault. -/
theorem everyByteOfAWholeOperandIsChecked : Obligations.EveryByteOfAWholeOperandIsChecked := by
  intro s i m n o hw ho hbyte
  refine exists_fault_of_not_next ?_
  rintro ⟨t, ht⟩
  have hread := bytesReadable_of_exec_next ht hw
  simp [bytesReadable_eq_false ho hbyte] at hread

/-! ## Fault suppression (20_memory.md R62, R64; 60_exceptions.md R226) -/

section RowF

variable {s : State} {l : VLen} {e : Elem} {k : Masking} {m : MemOp}

/-- VPSLLD and VPSLLQ immediate complete exactly when the form is ready and the bytes that masking does not suppress can be
read. -/
theorem evexImmShift_dataSource_completes_iff (f : Form) (dst : VReg) (d : DataSrc) (imm : Byte) :
    (∃ t, evexImmShift l.bits e.bits f dst k (fun s => s.dataSource l.bits e.bits k d) imm s = .next t) ↔
      s.ready f = true ∧ s.dataReadable l.bits e.bits k d = true := by
  rw [← State.dataSource_ok_iff]
  exact withOperand_completes_iff ..

/-- Byte `o` of element `j` is a byte of the vector, and of that element. -/
theorem element_byte {j o : Nat} (hj : j < l.bits / e.bits) (ho : o < e.bits / 8) :
    j * (e.bits / 8) + o < l.bits / 8 ∧ (j * (e.bits / 8) + o) / (e.bits / 8) = j := by
  constructor
  · cases l <;> cases e <;> simp only [VLen.bits, Elem.bits] at hj ho ⊢ <;> omega
  · rw [Nat.mul_comm, Nat.mul_add_div (by omega), Nat.div_eq_of_lt ho, Nat.add_zero]

/-- With fault suppression and no element written, only a byte in no ordinary memory can stop a full-width operand. -/
theorem dataReadable_mem_of_suppressed (hf : s.cfg.faultSuppressF = true)
    (ha : ∀ j, j < l.bits / e.bits → s.active k j = false) (ho : ∀ o, o < l.bits / 8 → s.outsideMem m o = false) :
    s.dataReadable l.bits e.bits k (.mem m) = true := by
  refine List.all_eq_true.mpr fun o hmem => ?_
  have hlt := List.mem_range.mp hmem
  simp [hf, ha _ (byte_in_element l e hlt), ho o hlt]

/-- The same of the element that is broadcast, which is no longer than the vector. -/
theorem dataReadable_bcst_of_suppressed (hf : s.cfg.faultSuppressF = true)
    (ha : ∀ j, j < l.bits / e.bits → s.active k j = false) (ho : ∀ o, o < l.bits / 8 → s.outsideMem m o = false) :
    s.dataReadable l.bits e.bits k (.bcst m) = true := by
  have hle : e.bits / 8 ≤ l.bits / 8 := by cases l <;> cases e <;> decide
  have hinactive : (List.range (l.bits / e.bits)).all (fun j => !s.active k j) = true :=
    List.all_eq_true.mpr fun j hj => by simp [ha j (List.mem_range.mp hj)]
  have hinside : (List.range (e.bits / 8)).all (fun o => !s.outsideMem m o) = true :=
    List.all_eq_true.mpr fun o hmem => by simp [ho o (lt_of_lt_of_le (List.mem_range.mp hmem) hle)]
  simp [State.dataReadable, hf, hinactive, hinside]

variable {VL N o : Nat}

/-- A byte that cannot be read stops a full-width operand where faults are not suppressed, where its element is written, and
where nothing but the want of memory keeps it from being read. -/
theorem not_dataReadable_mem (ho : o < VL / 8) (hb : s.byteReadable m o = false)
    (hs : s.cfg.faultSuppressF = false ∨ s.active k (o / (N / 8)) = true ∨ s.outsideMem m o = true) :
    s.dataReadable VL N k (.mem m) ≠ true := by
  intro h
  have hbyte := List.all_eq_true.mp h o (List.mem_range.mpr ho)
  rcases hs with hs | hs | hs <;> simp [hb, hs] at hbyte

/-- The same of the element that is broadcast, which every element that is written takes. -/
theorem not_dataReadable_bcst (ho : o < N / 8) (hb : s.byteReadable m o = false)
    (hs : s.cfg.faultSuppressF = false ∨ (∃ j, j < VL / N ∧ s.active k j = true) ∨ s.outsideMem m o = true) :
    s.dataReadable VL N k (.bcst m) ≠ true := by
  intro h
  simp only [State.dataReadable, bytesReadable_eq_false ho hb, Bool.false_or, Bool.and_eq_true, List.all_eq_true,
    List.mem_range, Bool.not_eq_true'] at h
  obtain ⟨⟨hf, hinactive⟩, hinside⟩ := h
  rcases hs with hs | ⟨j, hj, hs⟩ | hs
  · simp [hs] at hf
  · simp [hinactive j hj] at hs
  · simp [hinside o ho] at hs

theorem byteReadable_of_outsideMem (h : s.outsideMem m o = true) : s.byteReadable m o = false :=
  Bool.eq_false_iff.mpr fun hb => by simp [State.outsideMem_of_byteReadable hb] at h

end RowF

/-- VPSLLD and VPSLLQ immediate share one rule for when they complete, with their own element width. The form is the same
for every data source, so the readiness is that of the form with a full-width operand. -/
theorem rowF_completes_iff (s : State) (l : VLen) (dst : VReg) (k : Masking) (m : MemOp) (imm : Byte) :
    ∀ p ∈ [(fun d => evexImmD l dst k d imm, 32), (fun d => evexImmQ l dst k d imm, 64)],
      ∃ e : Elem, p.2 = e.bits ∧ ∀ d, (∃ t, exec (p.1 d) s = .next t) ↔
        s.ready (p.1 (.mem m)).form = true ∧ s.dataReadable l.bits e.bits k d = true := by
  simp only [List.forall_mem_cons, form_evexImmD, form_evexImmQ, exec_evexImmD, exec_evexImmQ]
  exact ⟨⟨.d, rfl, fun _ => evexImmShift_dataSource_completes_iff ..⟩,
    ⟨.q, rfl, fun _ => evexImmShift_dataSource_completes_iff ..⟩, nofun⟩

/-- Settles O30: the form completes exactly when it is ready and every byte of the operand can be read or is suppressed. -/
theorem faultSuppression : Obligations.FaultSuppression := by
  intro s l dst k m imm p hp
  obtain ⟨e, hbits, hcompletes⟩ := rowF_completes_iff s l dst k m imm p hp
  have hfault : ∀ d, s.dataReadable l.bits e.bits k d ≠ true → ∃ x, exec (p.1 d) s = .fault x := fun d hd =>
    exists_fault_of_not_next fun ht => hd ((hcompletes d).mp ht).2
  rw [hbits]
  refine ⟨fun hf ha ho hready => ?_, fun j o _ hj ha ho => ⟨fun hb => ?_, fun hb => ?_⟩,
    fun o hf hb => ⟨fun ho => ?_, fun ho => ?_⟩, fun o hout => ⟨fun ho => ?_, fun ho => ?_⟩⟩
  · exact ⟨(hcompletes _).mpr ⟨hready, dataReadable_mem_of_suppressed hf ha ho⟩,
      (hcompletes _).mpr ⟨hready, dataReadable_bcst_of_suppressed hf ha ho⟩⟩
  · obtain ⟨hlt, hdiv⟩ := element_byte hj ho
    exact hfault _ (not_dataReadable_mem hlt hb (.inr (.inl (by rw [hdiv]; exact ha))))
  · exact hfault _ (not_dataReadable_bcst ho hb (.inr (.inl ⟨j, hj, ha⟩)))
  · exact hfault _ (not_dataReadable_mem ho hb (.inl hf))
  · exact hfault _ (not_dataReadable_bcst ho hb (.inl hf))
  · exact hfault _ (not_dataReadable_mem ho (byteReadable_of_outsideMem hout) (.inr (.inr hout)))
  · exact hfault _ (not_dataReadable_bcst ho (byteReadable_of_outsideMem hout) (.inr (.inr hout)))

end Sys2Proof.Machine
end

