-- ==== Sys2Proof/Proofs/Addresses.lean ====
section
/-! SUPPORT. Addresses: effective and linear addresses as sums of integers, and the check of the bytes of an operand
(30_encoding.md R95 to R97). -/

namespace Sys2Proof.Machine

/-! ## Effective addresses (30_encoding.md R95, R96) -/

/-- The base of an effective address as an integer. -/
def State.baseInt (s : State) : Base → Int
  | .none => 0
  | .rip => s.pc.toNat + s.ilen
  | .gpr r => (s.xr r).toNat

/-- The scaled index of an effective address as an integer. -/
def State.indexInt (s : State) (scale : Fin 4) : Option GReg → Int
  | none => 0
  | some r => (s.xr r).toNat * 2 ^ scale.val

/-- The register part of a 16-bit effective address as an integer. -/
def State.base16Int (s : State) : Base16 → Int
  | .bxsi => (s.xr 3).toNat + (s.xr 6).toNat
  | .bxdi => (s.xr 3).toNat + (s.xr 7).toNat
  | .bpsi => (s.xr 5).toNat + (s.xr 6).toNat
  | .bpdi => (s.xr 5).toNat + (s.xr 7).toNat
  | .si => (s.xr 6).toNat
  | .di => (s.xr 7).toNat
  | .bp => (s.xr 5).toNat
  | .bx => (s.xr 3).toNat
  | .none => 0

/-- A word is the integer it stands for, cut to its width. -/
theorem ofInt_toNat {w : Nat} (v : BitVec w) : BitVec.ofInt w v.toNat = v := by simp

theorem cast_toNat_ofInt (w : Nat) (n : Int) : ((BitVec.ofInt w n).toNat : Int) = n % 2 ^ w := by
  rw [BitVec.toNat_ofInt, Int.toNat_of_nonneg (Int.emod_nonneg _ (by positivity))]
  simp

theorem setWidth_ofInt {v w : Nat} (h : v ≤ w) (n : Int) : (BitVec.ofInt w n).setWidth v = BitVec.ofInt v n := by
  have hcut : ((((BitVec.ofInt w n).setWidth v).toNat : Nat) : Int) = n % 2 ^ v := by
    rw [BitVec.toNat_setWidth, Int.natCast_emod, cast_toNat_ofInt, Nat.cast_pow, Nat.cast_ofNat,
      Int.emod_emod_of_dvd _ (pow_dvd_pow 2 h)]
  rw [← cast_toNat_ofInt] at hcut
  exact BitVec.eq_of_toNat_eq (Int.ofNat_inj.mp hcut)

theorem baseValue_eq (s : State) (b : Base) : s.baseValue b = BitVec.ofInt 64 (s.baseInt b) := by
  cases b with
  | none => rfl
  | rip => simp [State.baseValue, State.baseInt, State.nextPc, BitVec.ofInt_add]
  | gpr r => exact (ofInt_toNat _).symm

theorem twoPow_scale : ∀ k : Fin 4, BitVec.twoPow 64 k.val = BitVec.ofInt 64 (2 ^ k.val) := by decide

theorem indexValue_eq (s : State) (scale : Fin 4) (i : Option GReg) :
    s.indexValue scale i = BitVec.ofInt 64 (s.indexInt scale i) := by
  cases i with
  | none => rfl
  | some r =>
    rw [State.indexValue, State.indexInt, BitVec.ofInt_mul, ofInt_toNat, BitVec.shiftLeft_eq_mul_twoPow, twoPow_scale]

theorem base16Value_eq (s : State) (b : Base16) : s.base16Value b = BitVec.ofInt 16 (s.base16Int b) := by
  have hx (r : GReg) : s.xr16 r = BitVec.ofInt 16 (s.xr r).toNat := by
    rw [State.xr16, ← setWidth_ofInt (w := 64) (by decide), ofInt_toNat]
  cases b <;> simp only [State.base16Value, State.base16Int, BitVec.ofInt_add, hx]
  rfl

/-- EA as an integer sum, for the address sizes 64, 32 and 16. -/
theorem effAddr_wide64 (s : State) (b : Base) (i : Option GReg) (scale : Fin 4) (d : BitVec 32) :
    ((s.effAddr (.wide true b i scale d)).toNat : Int) = (s.baseInt b + s.indexInt scale i + d.toInt) % 2 ^ 64 := by
  rw [← cast_toNat_ofInt, BitVec.ofInt_add, BitVec.ofInt_add, ← baseValue_eq, ← indexValue_eq]
  rfl

theorem effAddr_wide32 (s : State) (b : Base) (i : Option GReg) (scale : Fin 4) (d : BitVec 32) :
    ((s.effAddr (.wide false b i scale d)).toNat : Int) = (s.baseInt b + s.indexInt scale i + d.toInt) % 2 ^ 32 := by
  have hsum : s.effAddr (.wide false b i scale d) = ((s.effAddr (.wide true b i scale d)).setWidth 32).setWidth 64 := rfl
  rw [hsum, BitVec.toNat_setWidth_of_le (by decide), BitVec.toNat_setWidth, Int.natCast_emod, effAddr_wide64]
  exact Int.emod_emod_of_dvd _ (by decide)

theorem effAddr_a16 (s : State) (b : Base16) (d : BitVec 16) :
    ((s.effAddr (.a16 b d)).toNat : Int) = (s.base16Int b + d.toInt) % 2 ^ 16 := by
  have hsum : s.effAddr (.a16 b d) = (s.base16Value b + d).setWidth 64 := rfl
  rw [hsum, BitVec.toNat_setWidth_of_le (by decide), base16Value_eq, ← cast_toNat_ofInt, BitVec.ofInt_add,
    BitVec.ofInt_toInt]

/-- Settles O46, from the three sums: a register may be cut to the address size before it is added. -/
theorem effectiveAddresses : Obligations.EffectiveAddresses := by
  intro s b i scale d d16
  simp only [effAddr_wide64, effAddr_wide32, effAddr_a16, State.baseInt, State.indexInt, State.base16Int,
    Int.natCast_emod, Nat.cast_pow, Nat.cast_ofNat, zero_add, add_zero, true_and, Int.emod_add_emod]
  simp only [Int.add_emod, Int.mul_emod, Int.emod_emod_of_dvd, and_self, dvd_refl]

/-! ## Linear addresses (30_encoding.md R97) -/

theorem is64_iff (m : Mode) : m.is64 = true ↔ m = .mode64 := by cases m <;> decide

theorem is64_eq_false_iff (m : Mode) : m.is64 = false ↔ m ≠ .mode64 := by cases m <;> decide

theorem linear_of_is64 {s : State} (h : s.cfg.mode.is64 = true) (m : MemOp) (o : Nat) :
    (s.linear m o).toNat = ((s.segBase m.seg).toNat + (s.effAddr m.ea).toNat + o) % 2 ^ 64 := by
  simp [State.linear, State.linearCut, h]

theorem linear_of_not_is64 {s : State} (h : s.cfg.mode.is64 = false) (m : MemOp) (o : Nat) :
    (s.linear m o).toNat = ((s.segBase m.seg).toNat + (s.effAddr m.ea).toNat + o) % 2 ^ 32 := by
  simp only [State.linear, State.linearCut, h, BitVec.toNat_add, BitVec.toNat_ofNat, Bool.false_eq_true, if_false,
    BitVec.toNat_setWidth]
  omega

/-- In 64-bit mode only FS and GS contribute a base. -/
theorem segBase_of_is64 {s : State} (h : s.cfg.mode.is64 = true) (g : SegReg) : (s.segBase g).toNat =
    if g = .fs then s.segs.fs.base.toNat else if g = .gs then s.segs.gs.base.toNat else 0 := by
  simp only [State.segBase, h, if_true]
  cases g <;> rfl

theorem segBase_of_not_is64 {s : State} (h : s.cfg.mode.is64 = false) (g : SegReg) :
    s.segBase g = (s.segs.get g).base := by
  simp [State.segBase, h]

/-- Settles O47, from the base that a segment contributes. -/
theorem linearAddresses : Obligations.LinearAddresses := by
  refine fun s m o => ⟨fun h => ?_, fun h => ?_⟩
  · have h64 := (is64_iff _).mpr h
    rw [linear_of_is64 h64, segBase_of_is64 h64]
  · have h64 := (is64_eq_false_iff _).mpr h
    rw [linear_of_not_is64 h64, segBase_of_not_is64 h64]

/-! ## The segment check of an operand that is accessed whole (60_exceptions.md R221, R229) -/

/-- A byte that fails the segment or canonical check decides the fault, but for the #GP(0) of an SSE128 operand in real mode
(60_exceptions.md R222). -/
theorem accessFault_of_segment {s : State} {m : MemOp} {rule : AlignRule} {offs : List Nat} {o : Nat} (ho : o ∈ offs)
    (hseg : s.segmentOk m o = false) (hreal : rule = .sse16 → s.cfg.mode ≠ .real) :
    s.accessFault m rule offs = some (s.segmentFault m) := by
  have hfail : offs.any (fun o => !s.segmentOk m o || s.translateSegment (s.linear m o)) = true :=
    List.any_eq_true.mpr ⟨o, ho, by simp [hseg]⟩
  rw [State.accessFault, if_neg fun hc => hreal hc.1 hc.2.1, if_pos hfail]

theorem segmentFault_eq (s : State) (m : MemOp) :
    s.segmentFault m = if m.seg = .ss then .ss s.pc else .gp s.pc := by
  unfold State.segmentFault
  split <;> rfl

section Whole

variable {s : State} {m : MemOp} {o : Nat} (hseg : s.segmentOk m o = false)
include hseg

theorem memRead_of_segment (W : Nat) {rule : AlignRule} {n : Nat} (ho : o < n) (hreal : rule = .sse16 → s.cfg.mode ≠ .real) :
    s.memRead W m rule n = .error (s.segmentFault m) :=
  (State.memRead_error_iff ..).mpr (accessFault_of_segment (List.mem_range.mpr ho) hseg hreal)

theorem mmxCount_of_segment {cnt : RegMem MmReg} (hm : cnt.memOp? = some m) (ho : o < 8) :
    s.mmxCount cnt = .error (s.segmentFault m) := by
  cases cnt with
  | reg r => cases hm
  | mem m' =>
    cases hm
    exact (map_eq_error_iff ..).mpr (memRead_of_segment hseg 64 ho nofun)

theorem xmmCount_of_segment {rule : AlignRule} {cnt : RegMem VReg} (hm : cnt.memOp? = some m) (ho : o < 16)
    (hreal : rule = .sse16 → s.cfg.mode ≠ .real) : s.xmmCount rule cnt = .error (s.segmentFault m) := by
  cases cnt with
  | reg r => cases hm
  | mem m' =>
    cases hm
    exact (map_eq_error_iff ..).mpr (memRead_of_segment hseg 128 ho hreal)

theorem wholeSource_of_segment {VL : Nat} {src : RegMem VReg} (hm : src.memOp? = some m) (ho : o < VL / 8) :
    s.wholeSource VL src = .error (s.segmentFault m) := by
  cases src with
  | reg r => cases hm
  | mem m' =>
    cases hm
    exact memRead_of_segment hseg VL ho nofun

end Whole

/-- Settles O27, class by class: MemRead makes the segment check of every byte of the operand first. -/
theorem segmentCheckFault : Obligations.SegmentCheckFault := by
  intro s i m n o hw hready hreal ho hseg
  rw [← segmentFault_eq]
  induction i using Instr.byClass with
  | mmxRm e dst cnt =>
    obtain ⟨hm, rfl⟩ : cnt.memOp? = some m ∧ 8 = n := by simpa using hw
    exact exec_mmxRm .. ▸ (mmxShift_fault_iff ..).mpr (.inr ⟨form_mmxRm .. ▸ hready, mmxCount_of_segment hseg hm ho⟩)
  | sseRm e dst cnt =>
    obtain ⟨hm, rfl⟩ : cnt.memOp? = some m ∧ 16 = n := by simpa using hw
    exact exec_sseRm .. ▸ (sseShift_fault_iff ..).mpr (.inr ⟨form_sseRm .. ▸ hready, xmmCount_of_segment hseg hm ho
      fun _ => hreal e .var (form_sseRm ..)⟩)
  | vexRm l e dst src cnt =>
    obtain ⟨hm, rfl⟩ : cnt.memOp? = some m ∧ 16 = n := by simpa using hw
    exact exec_vexRm .. ▸ (vexShift_fault_iff ..).mpr
      (.inr ⟨form_vexRm .. ▸ hready, xmmCount_of_segment hseg hm ho nofun⟩)
  | evexRm l e dst msk src cnt =>
    obtain ⟨hm, rfl⟩ : cnt.memOp? = some m ∧ 16 = n := by simpa using hw
    exact exec_evexRm .. ▸ (evexShift_fault_iff ..).mpr
      (.inr ⟨form_evexRm .. ▸ hready, xmmCount_of_segment hseg hm ho nofun⟩)
  | evexImmW l dst msk src imm =>
    obtain ⟨hm, rfl⟩ : src.memOp? = some m ∧ l.bits / 8 = n := by simpa using hw
    exact exec_evexImmW .. ▸ (evexImmShift_fault_iff ..).mpr
      (.inr ⟨form_evexImmW .. ▸ hready, wholeSource_of_segment hseg hm ho⟩)
  | mmxImm e dst imm => simp at hw
  | sseImm e dst imm => simp at hw
  | vexImm l e dst src imm => simp at hw
  | evexImmD l dst msk src imm => simp at hw
  | evexImmQ l dst msk src imm => simp at hw

end Sys2Proof.Machine
end

