-- ==== Sys2Proof/Proofs/OpcodeTable.lean ====
section
/-! SUPPORT. The opcode table: each row is that of one class, element width and count kind, and which keys fit it
(30_encoding.md R107, R108). -/

namespace Sys2Proof

/-! ## The rows -/

/-- The seven classes. -/
def EncClass.all : List EncClass :=
  [.legacy false, .legacy true, .vex false, .vex true, .evex .v128, .evex .v256, .evex .v512]

theorem EncClass.mem_all (c : EncClass) : c ∈ EncClass.all := by
  cases c with
  | legacy p => cases p <;> decide
  | vex l => cases l <;> decide
  | evex l => cases l <;> decide

/-- The value and the mask of the ModRM byte in the rows of a class: mod = 11 and reg = 110 in the immediate rows that take
a register only, reg = 110 in the other immediate rows, no bit of it in the variable-count rows. -/
def EncClass.modrmKey (c : EncClass) : CountKind → Byte × Byte
  | .var => (0#8, 0#8)
  | .imm => if c.immRegOnly then (0xF0#8, 0xF8#8) else (0x30#8, 0x38#8)

/-- The row of a class, element width and count kind. -/
def EncClass.row (c : EncClass) (e : Elem) (k : CountKind) : TableRow :=
  ⟨c.stateByte ++ opByte e k ++ (c.modrmKey k).1, 0xF1#8 ++ 0xFF#8 ++ (c.modrmKey k).2, c.form e k⟩

/-- The classes, element widths and count kinds in the order of the table. -/
def tableOrder : List (EncClass × Elem × CountKind) :=
  ([.legacy false, .legacy true, .vex false, .vex true].flatMap fun c =>
    [.w, .d, .q].flatMap fun e => [(c, e, .var), (c, e, .imm)]) ++
  [.var, .imm].flatMap fun k => [.w, .d, .q].flatMap fun e => [.v128, .v256, .v512].map fun l => (.evex l, e, k)

theorem opcodeTable_eq : opcodeTable = tableOrder.map fun t => t.1.row t.2.1 t.2.2 := by rfl

theorem mem_tableOrder (c : EncClass) (e : Elem) (k : CountKind) : (c, e, k) ∈ tableOrder := by
  have h : ∀ c ∈ EncClass.all, ∀ e ∈ [Elem.w, .d, .q], ∀ k ∈ [CountKind.var, .imm], (c, e, k) ∈ tableOrder := by decide
  exact h c c.mem_all e (by cases e <;> decide) k (by cases k <;> decide)

theorem mem_opcodeTable_iff (a : TableRow) : a ∈ opcodeTable ↔ ∃ c e k, a = EncClass.row c e k := by
  rw [opcodeTable_eq, List.mem_map]
  constructor
  · rintro ⟨⟨c, e, k⟩, -, rfl⟩
    exact ⟨c, e, k, rfl⟩
  · rintro ⟨c, e, k, rfl⟩
    exact ⟨(c, e, k), mem_tableOrder c e k, rfl⟩

/-! ## Which keys fit a row -/

theorem append_eq_append_iff {v w : Nat} {a b : BitVec v} {x y : BitVec w} : a ++ x = b ++ y ↔ a = b ∧ x = y := by
  refine ⟨fun h => ⟨?_, ?_⟩, fun ⟨ha, hx⟩ => ha ▸ hx ▸ rfl⟩
  · simpa only [BitVec.extractLsb'_append_eq_left] using congrArg (BitVec.extractLsb' w v) h
  · simpa only [BitVec.extractLsb'_append_eq_right] using congrArg (BitVec.extractLsb' 0 w) h

theorem exists_eq_append {v w : Nat} (x : BitVec (v + w)) : ∃ (a : BitVec v) (b : BitVec w), x = a ++ b :=
  ⟨_, _, BitVec.extractLsb'_append_extractLsb'.symm⟩

theorem key_eq_append (key : BitVec 24) : ∃ st op mb : Byte, key = st ++ op ++ mb := by
  obtain ⟨x, mb, rfl⟩ := exists_eq_append (v := 16) (w := 8) key
  obtain ⟨st, op, rfl⟩ := exists_eq_append (v := 8) (w := 8) x
  exact ⟨st, op, mb, rfl⟩

/-- A key fits a row when its state byte has the class, its opcode byte is that of the row, and its ModRM byte fits. -/
theorem fits_row_iff (c : EncClass) (e : Elem) (k : CountKind) (st op mb : Byte) :
    (st ++ op ++ mb : BitVec 24) &&& (c.row e k).mask = (c.row e k).value ↔
      (st &&& 0xF1#8 = c.stateByte ∧ op = opByte e k) ∧ mb &&& (c.modrmKey k).2 = (c.modrmKey k).1 := by
  have hop : op &&& 0xFF#8 = op := BitVec.and_allOnes
  have hmask : (c.row e k).mask = 0xF1#8 ++ 0xFF#8 ++ (c.modrmKey k).2 := rfl
  have hvalue : (c.row e k).value = c.stateByte ++ opByte e k ++ (c.modrmKey k).1 := rfl
  rw [hmask, hvalue, BitVec.and_append, BitVec.and_append, append_eq_append_iff, append_eq_append_iff, hop]

theorem stateByte_inj {c c' : EncClass} (h : c.stateByte = c'.stateByte) : c = c' := by
  have hall : ∀ c ∈ EncClass.all, ∀ c' ∈ EncClass.all, c.stateByte = c'.stateByte → c = c' := by decide
  exact hall c c.mem_all c' c'.mem_all h

theorem stateByte_and (c : EncClass) : c.stateByte &&& 0xF1#8 = c.stateByte := by
  have hall : ∀ c ∈ EncClass.all, c.stateByte &&& 0xF1#8 = c.stateByte := by decide
  exact hall c c.mem_all

/-- The opcode bytes of the family, and no others, have an element width and a count kind. -/
theorem opcodeOf_eq_some_iff (op : Byte) (e : Elem) (k : CountKind) : opcodeOf op = some (e, k) ↔ op = opByte e k := by
  refine ⟨fun h => ?_, fun h => h ▸ opcodeOf_opByte e k⟩
  unfold opcodeOf at h
  repeat' split at h
  all_goals cases h
  all_goals assumption

/-- No key fits two rows. -/
theorem row_unique {a b : TableRow} (ha : a ∈ opcodeTable) (hb : b ∈ opcodeTable) {key : BitVec 24}
    (hka : key &&& a.mask = a.value) (hkb : key &&& b.mask = b.value) : a = b := by
  obtain ⟨c, e, k, rfl⟩ := (mem_opcodeTable_iff a).mp ha
  obtain ⟨c', e', k', rfl⟩ := (mem_opcodeTable_iff b).mp hb
  obtain ⟨st, op, mb, rfl⟩ := key_eq_append key
  obtain ⟨⟨hst, hop⟩, -⟩ := (fits_row_iff ..).mp hka
  obtain ⟨⟨hst', hop'⟩, -⟩ := (fits_row_iff ..).mp hkb
  obtain rfl := stateByte_inj (hst.symm.trans hst')
  rw [← opcodeOf_eq_some_iff] at hop hop'
  rw [hop] at hop'
  cases hop'
  rfl

/-! ## The form that is selected -/

theorem modrm_fits_iff : ∀ mb : Byte,
    (mb &&& 0xF8#8 = 0xF0#8 ↔ (ModRM.ofByte mb).reg = 6#3 ∧ (ModRM.ofByte mb).mod = 3#2) ∧
      (mb &&& 0x38#8 = 0x30#8 ↔ (ModRM.ofByte mb).reg = 6#3) := by decide

/-- The ModRM byte fits an immediate row when reg is 110 and, where the row takes a register only, mod is 11. -/
theorem modrmKey_fits_iff (c : EncClass) (k : CountKind) (mb : Byte) : mb &&& (c.modrmKey k).2 = (c.modrmKey k).1 ↔
    (k = .imm → (ModRM.ofByte mb).reg = 6#3 ∧ (c.immRegOnly → (ModRM.ofByte mb).mod = 3#2)) := by
  obtain ⟨hreg, hmem⟩ := modrm_fits_iff mb
  cases k with
  | var => simp [EncClass.modrmKey]
  | imm => cases h : c.immRegOnly <;> simp [EncClass.modrmKey, h, hreg, hmem]

theorem selectForm_eq_some_iff (c : EncClass) (op : Byte) (r : ModRM) (f : Form) : selectForm c op r = some f ↔
    ∃ e k, op = opByte e k ∧ (k = .imm → r.reg = 6#3 ∧ (c.immRegOnly → r.mod = 3#2)) ∧ f = c.form e k := by
  unfold selectForm
  constructor
  · intro h
    split at h
    · cases h
    · next e hop => exact ⟨e, .var, (opcodeOf_eq_some_iff ..).mp hop, nofun, (Option.some.inj h).symm⟩
    · next e hop =>
      obtain ⟨hrow, hf⟩ := Option.ite_none_right_eq_some.mp h
      exact ⟨e, .imm, (opcodeOf_eq_some_iff ..).mp hop, fun _ => hrow, (Option.some.inj hf).symm⟩
  · rintro ⟨e, k, rfl, hrow, rfl⟩
    cases k with
    | var => exact selectForm_var c e r
    | imm => exact selectForm_imm e (hrow rfl).1 (hrow rfl).2

/-- The first row that a key fits is the one row it fits. -/
theorem formOfKey_eq_some_iff (key : BitVec 24) (f : Form) : formOfKey key = some f ↔
    ∃ a ∈ opcodeTable, key &&& a.mask = a.value ∧ a.form = f := by
  constructor
  · intro h
    obtain ⟨a, ha, rfl⟩ := Option.map_eq_some_iff.mp h
    exact ⟨a, List.mem_of_find?_eq_some ha, by simpa using List.find?_some ha, rfl⟩
  · rintro ⟨a, ha, hk, rfl⟩
    cases hf : opcodeTable.find? fun r => key &&& r.mask == r.value with
    | none => exact absurd (beq_iff_eq.mpr hk) (List.find?_eq_none.mp hf a ha)
    | some b =>
      have hb : key &&& b.mask = b.value := by simpa using List.find?_some hf
      rw [formOfKey, hf, row_unique (List.mem_of_find?_eq_some hf) ha hb hk]
      rfl

/-- Settles O52: both sides are the form of the row of the class, opcode and ModRM byte. -/
theorem tableSelectsTheForm : Obligations.TableSelectsTheForm := by
  refine ⟨rfl, fun a ha b hb key => row_unique ha hb, fun c op mb => Option.ext fun f => ?_⟩
  rw [selectForm_eq_some_iff, formOfKey_eq_some_iff]
  constructor
  · rintro ⟨e, k, hop, hr, rfl⟩
    exact ⟨c.row e k, (mem_opcodeTable_iff _).mpr ⟨c, e, k, rfl⟩,
      (fits_row_iff ..).mpr ⟨⟨stateByte_and c, hop⟩, (modrmKey_fits_iff ..).mpr hr⟩, rfl⟩
  · rintro ⟨a, ha, hk, rfl⟩
    obtain ⟨c', e, k, rfl⟩ := (mem_opcodeTable_iff a).mp ha
    obtain ⟨⟨hst, hop⟩, hmb⟩ := (fits_row_iff ..).mp hk
    obtain rfl := stateByte_inj ((stateByte_and c).symm.trans hst)
    exact ⟨e, k, hop, (modrmKey_fits_iff ..).mp hmb, rfl⟩

end Sys2Proof
end

