-- ==== Sys2Proof/Proofs/Parse.lean ====
section
/-! SUPPORT. What decodes: prefixes, then the head of an instruction (the bytes of its class, the opcode and ModRM), then the
bytes of its operands (30_encoding.md R122). -/

namespace Sys2Proof

/-! ## Heads -/

/-- What the bytes from the escape, VEX or EVEX byte to ModRM say. -/
inductive Head
  | legacy (e : Elem) (c : CountKind) (r : ModRM)
  | vex (v : VexFields) (e : Elem) (c : CountKind) (r : ModRM)
  | evex (v : EvexFields) (l : VLen) (e : Elem) (c : CountKind) (r : ModRM)

/-- The head of an MMX or SSE128 form. -/
def Head.isLegacy : Head → Bool
  | .legacy _ _ _ => true
  | .vex _ _ _ _ | .evex _ _ _ _ _ => false

/-- The bytes spell a head of the family in mode `m`: a row of the opcode map fits (30_encoding.md R107, R108). -/
inductive Head.Spelled (m : Mode) : Head → List Byte → Prop
  | legacy (e : Elem) (c : CountKind) (mb : Byte)
      (hr : c = .imm → (ModRM.ofByte mb).reg = 6#3 ∧ (ModRM.ofByte mb).mod = 3#2) :
      Spelled m (.legacy e c (.ofByte mb)) [0x0F#8, opByte e c, mb]
  | vex2 (p1 : Byte) (e : Elem) (c : CountKind) (mb : Byte) (ho : otherInstruction m p1 = false)
      (hv : (vex2Fields p1).map = 1#5 ∧ (vex2Fields p1).pp = 1#2)
      (hr : c = .imm → (ModRM.ofByte mb).reg = 6#3 ∧ (ModRM.ofByte mb).mod = 3#2) :
      Spelled m (.vex (vex2Fields p1) e c (.ofByte mb)) [0xC5#8, p1, opByte e c, mb]
  | vex3 (p1 p2 : Byte) (e : Elem) (c : CountKind) (mb : Byte) (ho : otherInstruction m p1 = false)
      (hv : (vex3Fields p1 p2).map = 1#5 ∧ (vex3Fields p1 p2).pp = 1#2)
      (hr : c = .imm → (ModRM.ofByte mb).reg = 6#3 ∧ (ModRM.ofByte mb).mod = 3#2) :
      Spelled m (.vex (vex3Fields p1 p2) e c (.ofByte mb)) [0xC4#8, p1, p2, opByte e c, mb]
  | evex (p0 p1 p2 : Byte) (l : VLen) (e : Elem) (c : CountKind) (mb : Byte) (ho : otherInstruction m p0 = false)
      (hv : (evexFields p0 p1 p2).map = 1#3 ∧ (evexFields p0 p1 p2).pp = 1#2)
      (hfix : (evexFields p0 p1 p2).fixed0 = false ∧ (evexFields p0 p1 p2).fixed1 = true)
      (hl : vlenOf (evexFields p0 p1 p2).ll = some l) (hr : c = .imm → (ModRM.ofByte mb).reg = 6#3) :
      Spelled m (.evex (evexFields p0 p1 p2) l e c (.ofByte mb)) [0x62#8, p0, p1, p2, opByte e c, mb]

/-- The bits of an EVEX head that make it #UD (30_encoding.md R110, R112). -/
def evexBad (v : EvexFields) (e : Elem) (c : CountKind) (r : ModRM) : Bool :=
  evexWBad e v.w || evexBBad e c v.bc r || (v.z && v.aaa == 0#3)

/-- Why a head after the prefixes `p` is no instruction, if it is none (30_encoding.md R112, R117). -/
def Head.reject (m : Mode) (p : Prefixes) : Head → Option Reject
  | .legacy _ _ _ => if p.rep then some .repPrefix else if p.lock then some .ud else none
  | .vex _ _ _ _ => if p.clash || !m.hasVex then some .ud else none
  | .evex v _ e c r => if p.clash || (!m.hasVex || evexBad v e c r) then some .ud else none

/-- The operands that follow a head: the instruction, or the refusal of its registers, and the bytes that are left. -/
def Head.read (m : Mode) (p : Prefixes) : Head → List Byte → Except Reject (Except Reject Instr × List Byte)
  | .legacy e .var r, bs =>
    if p.opsize then
      (readRm m p (p.rexBit 1) (p.rexBit 0) 1 r (vregOf false (p.rexBit 0) r.rm) bs).map fun x =>
        (.ok (sseRm e (vregOf false (p.rexBit 2) r.reg) x.1), x.2)
    else
      (readRm m p (p.rexBit 1) (p.rexBit 0) 1 r (mmregOf r.rm) bs).map fun x => (.ok (mmxRm e (mmregOf r.reg) x.1), x.2)
  | .legacy e .imm r, bs =>
    (readImm bs).map fun x =>
      (.ok (if p.opsize then sseImm e (vregOf false (p.rexBit 0) r.rm) x.1 else mmxImm e (mmregOf r.rm) x.1), x.2)
  | .vex v e .var r, bs =>
    (readRm m p (m.is64 && v.x) (m.is64 && v.b) 1 r (vregOf false v.b r.rm) bs).map fun x =>
      (lowOnly m (vregOf false v.r r.reg :: vvvvReg false v.vvvv :: x.1.regs)
        (vexRm v.l e (vregOf false v.r r.reg) (vvvvReg false v.vvvv) x.1), x.2)
  | .vex v e .imm r, bs =>
    (readImm bs).map fun x =>
      (lowOnly m [vvvvReg false v.vvvv, vregOf false v.b r.rm]
        (vexImm v.l e (vvvvReg false v.vvvv) (vregOf false v.b r.rm) x.1), x.2)
  | .evex v l e .var r, bs =>
    (readRm m p (m.is64 && v.x) (m.is64 && v.b) 16 r (vregOf v.x v.b r.rm) bs).map fun x =>
      (lowOnly m (vregOf v.r' v.r r.reg :: vvvvReg v.v' v.vvvv :: x.1.regs)
        (evexRm l e (vregOf v.r' v.r r.reg) ⟨v.aaa.toFin, v.z⟩ (vvvvReg v.v' v.vvvv) x.1), x.2)
  | .evex v l e .imm r, bs =>
    readRm m p (m.is64 && v.x) (m.is64 && v.b) (disp8Factor l e .imm v.bc) r (vregOf v.x v.b r.rm) bs >>= fun x =>
      (readImm x.2).map fun y =>
        (lowOnly m (vvvvReg v.v' v.vvvv :: x.1.regs)
          (evexImm l e (vvvvReg v.v' v.vvvv) ⟨v.aaa.toFin, v.z⟩ v.bc x.1 y.1), y.2)

/-- What a head and the bytes after it decode to, in an instruction text of `total` bytes. -/
def Head.decode (m : Mode) (p : Prefixes) (total : Nat) (h : Head) (bs : List Byte) : Except Reject (Instr × Nat) :=
  match h.reject m p with
  | some x => .error x
  | none => h.read m p bs >>= fun x => finish total x.2 x.1

theorem Head.decode_of_reject {m : Mode} {p : Prefixes} {h : Head} {x : Reject} (hx : h.reject m p = some x) (total : Nat)
    (bs : List Byte) : h.decode m p total bs = .error x := by
  rw [Head.decode, hx]

theorem Head.decode_of_read {m : Mode} {p : Prefixes} {h : Head} (hp : h.reject m p = none) {bs rest : List Byte}
    {i : Except Reject Instr} (hr : h.read m p bs = .ok (i, rest)) (total : Nat) :
    h.decode m p total bs = finish total rest i := by
  rw [Head.decode, hp, hr]
  rfl

/-! ## The decoder on the bytes of a head -/

/-- The row of a head with an immediate that takes a register only, or of one that does not. -/
theorem selectForm_row (k : EncClass) (e : Elem) {c : CountKind} {r : ModRM}
    (hr : c = .imm → r.reg = 6#3 ∧ (k.immRegOnly = true → r.mod = 3#2)) :
    selectForm k (opByte e c) r = some (k.form e c) :=
  (selectForm_eq_some_iff ..).mpr ⟨e, c, rfl, hr, rfl⟩

theorem map_bind {ε α β γ : Type} (r : Except ε α) (f : α → β) (g : β → Except ε γ) :
    (r.map f >>= g) = r >>= fun a => g (f a) := by
  cases r <;> rfl

theorem decodeLegacy_head {m : Mode} {p : Prefixes} {total : Nat} {e : Elem} {c : CountKind} {mb : Byte} (bs : List Byte)
    (hr : c = .imm → (ModRM.ofByte mb).reg = 6#3 ∧ (ModRM.ofByte mb).mod = 3#2) :
    decodeLegacy m p total (opByte e c :: mb :: bs) = (Head.legacy e c (.ofByte mb)).decode m p total bs := by
  have hf := selectForm_row (.legacy p.opsize) e fun hc => ⟨(hr hc).1, fun _ => (hr hc).2⟩
  simp only [decodeLegacy, opcodeOf_opByte, Option.isNone_some, hf, Head.decode, Head.reject]
  cases p.rep
  case true => rfl
  cases p.lock
  case true => rfl
  cases c with
  | var => cases h66 : p.opsize <;> simp [EncClass.form, Head.read, h66, map_bind]
  | imm => cases h66 : p.opsize <;> simp [EncClass.form, Head.read, h66, map_bind]

theorem decodeVex_head {m : Mode} {p : Prefixes} {total : Nat} {v : VexFields} {e : Elem} {c : CountKind} {mb : Byte}
    (bs : List Byte) (hv : v.map = 1#5 ∧ v.pp = 1#2)
    (hr : c = .imm → (ModRM.ofByte mb).reg = 6#3 ∧ (ModRM.ofByte mb).mod = 3#2) :
    decodeVex m p total v (opByte e c :: mb :: bs) = (Head.vex v e c (.ofByte mb)).decode m p total bs := by
  have hf := selectForm_row (.vex v.l) e fun hc => ⟨(hr hc).1, fun _ => (hr hc).2⟩
  have hform : (EncClass.vex v.l).form e c = .vex (vexLen v.l) e c := by cases v.l <;> rfl
  simp only [decodeVex, opcodeOf_opByte, Option.isNone_some, hf, hform, hv, Head.decode, Head.reject]
  cases p.clash
  case true => rfl
  cases m.hasVex
  case false => rfl
  cases c with
  | var => simp [Head.read, map_bind]
  | imm => simp [Head.read, map_bind]

theorem decodeEvex_head {m : Mode} {p : Prefixes} {total : Nat} {v : EvexFields} {l : VLen} {e : Elem} {c : CountKind}
    {mb : Byte} (bs : List Byte) (hv : v.map = 1#3 ∧ v.pp = 1#2) (hfix : v.fixed0 = false ∧ v.fixed1 = true)
    (hl : vlenOf v.ll = some l) (hr : c = .imm → (ModRM.ofByte mb).reg = 6#3) :
    decodeEvex m p total v (opByte e c :: mb :: bs) = (Head.evex v l e c (.ofByte mb)).decode m p total bs := by
  have hf := selectForm_row (.evex l) e fun hc => ⟨hr hc, nofun⟩
  simp only [decodeEvex, opcodeOf_opByte, Option.isNone_some, hf, hv, hfix, hl, Head.decode, Head.reject]
  have hbad : (!m.hasVex || evexWBad e v.w || evexBBad e c v.bc (ModRM.ofByte mb) || (v.z && v.aaa == 0#3)) =
      (!m.hasVex || evexBad v e c (ModRM.ofByte mb)) := by
    simp only [evexBad, Bool.or_assoc]
  simp only [EncClass.form, hbad]
  cases p.clash
  case true => rfl
  cases !m.hasVex || evexBad v e c (ModRM.ofByte mb)
  case true => rfl
  cases c with
  | var => simp [Head.read, map_bind, disp8Factor]
  | imm => cases e <;> simp [Head.read, map_bind, bind_assoc, evexImm]

section Classes

variable (m : Mode) (p : Prefixes) (total : Nat) (p0 p1 p2 : Byte) (bs : List Byte)

theorem decodeClass_legacy : decodeClass m p total (0x0F#8 :: bs) = decodeLegacy m p total bs := rfl

theorem decodeClass_vex2 : decodeClass m p total (0xC5#8 :: p1 :: bs) =
    if otherInstruction m p1 then .error .notInFamily else decodeVex m p total (vex2Fields p1) bs := rfl

theorem decodeClass_vex3 : decodeClass m p total (0xC4#8 :: p1 :: p2 :: bs) =
    if otherInstruction m p1 then .error .notInFamily else decodeVex m p total (vex3Fields p1 p2) bs := rfl

theorem decodeClass_evex : decodeClass m p total (0x62#8 :: p0 :: p1 :: p2 :: bs) =
    if otherInstruction m p0 then .error .notInFamily else decodeEvex m p total (evexFields p0 p1 p2) bs := rfl

end Classes

theorem decodeClass_head {m : Mode} {p : Prefixes} {h : Head} {pre : List Byte} (hh : h.Spelled m pre) (total : Nat)
    (bs : List Byte) : decodeClass m p total (pre ++ bs) = h.decode m p total bs := by
  cases hh with
  | legacy e c mb hr => exact decodeLegacy_head bs hr
  | vex2 p1 e c mb ho hv hr => simpa [decodeClass_vex2, ho] using decodeVex_head bs hv hr
  | vex3 p1 p2 e c mb ho hv hr => simpa [decodeClass_vex3, ho] using decodeVex_head bs hv hr
  | evex p0 p1 p2 l e c mb ho hv hfix hl hr => simpa [decodeClass_evex, ho] using decodeEvex_head bs hv hfix hl hr

/-! ## Only the bytes of a head decode -/

section Inversion

variable {m : Mode} {p : Prefixes} {total : Nat} {bs : List Byte} {x : Instr × Nat}

theorem row_of_selectForm {k : EncClass} {op : Byte} {r : ModRM} {f : Form} (hf : selectForm k op r = some f) :
    ∃ e c, op = opByte e c ∧ (c = .imm → r.reg = 6#3 ∧ (k.immRegOnly = true → r.mod = 3#2)) := by
  obtain ⟨e, c, hop, hr, -⟩ := (selectForm_eq_some_iff ..).mp hf
  exact ⟨e, c, hop, hr⟩

theorem decodeLegacy_ok (h : decodeLegacy m p total bs = .ok x) : ∃ e c mb bs', bs = opByte e c :: mb :: bs' ∧
    (c = .imm → (ModRM.ofByte mb).reg = 6#3 ∧ (ModRM.ofByte mb).mod = 3#2) := by
  unfold decodeLegacy at h
  split at h
  · cases h
  next op bs =>
  split at h
  · cases h
  split at h
  · cases h
  next mb bs =>
  dsimp only at h
  split at h
  · cases h
  next f hf =>
  obtain ⟨e, c, rfl, hr⟩ := row_of_selectForm hf
  exact ⟨e, c, mb, bs, rfl, fun hc => ⟨(hr hc).1, (hr hc).2 rfl⟩⟩

theorem decodeVex_ok {v : VexFields} (h : decodeVex m p total v bs = .ok x) : (v.map = 1#5 ∧ v.pp = 1#2) ∧
    ∃ e c mb bs', bs = opByte e c :: mb :: bs' ∧
      (c = .imm → (ModRM.ofByte mb).reg = 6#3 ∧ (ModRM.ofByte mb).mod = 3#2) := by
  unfold decodeVex at h
  dsimp only at h
  split at h
  · cases h
  split at h
  · cases h
  next hv =>
  split at h
  · cases h
  next op bs =>
  split at h
  · cases h
  split at h
  · cases h
  next mb bs =>
  split at h
  · cases h
  · next hf =>
    obtain ⟨e, c, rfl, hr⟩ := row_of_selectForm hf
    exact ⟨by simpa only [ne_eq, not_or, not_not] using hv, e, c, mb, bs, rfl, fun hc => ⟨(hr hc).1, (hr hc).2 rfl⟩⟩
  · cases h

theorem decodeEvex_ok {v : EvexFields} (h : decodeEvex m p total v bs = .ok x) : (v.map = 1#3 ∧ v.pp = 1#2) ∧
    (v.fixed0 = false ∧ v.fixed1 = true) ∧ ∃ l, vlenOf v.ll = some l ∧
      ∃ e c mb bs', bs = opByte e c :: mb :: bs' ∧ (c = .imm → (ModRM.ofByte mb).reg = 6#3) := by
  unfold decodeEvex at h
  split at h
  · cases h
  split at h
  · cases h
  next hv =>
  split at h
  · cases h
  next hfix =>
  split at h
  · cases h
  next l hl =>
  split at h
  · cases h
  next op bs =>
  split at h
  · cases h
  split at h
  · cases h
  next mb bs =>
  dsimp only at h
  split at h
  · cases h
  · next hf =>
    obtain ⟨e, c, rfl, hr⟩ := row_of_selectForm hf
    exact ⟨by simpa only [ne_eq, not_or, not_not] using hv, by simpa using hfix, l, hl, e, c, mb, bs, rfl,
      fun hc => (hr hc).1⟩
  · cases h

/-- What decodes after the prefixes begins with a head. -/
theorem exists_head_of_decodeClass (h : decodeClass m p total bs = .ok x) :
    ∃ hd pre bs', Head.Spelled m hd pre ∧ bs = pre ++ bs' := by
  unfold decodeClass at h
  split at h
  · cases h
  next b bs =>
  split at h
  · next hb =>
    obtain ⟨e, c, mb, bs', rfl, hr⟩ := decodeLegacy_ok h
    exact ⟨_, _, bs', .legacy e c mb hr, by rw [hb]; rfl⟩
  split at h
  · next hb =>
    split at h
    · cases h
    next p1 bs =>
    split at h
    · cases h
    next ho =>
    obtain ⟨hv, e, c, mb, bs', rfl, hr⟩ := decodeVex_ok h
    exact ⟨_, _, bs', .vex2 p1 e c mb (by simpa using ho) hv hr, by rw [hb]; rfl⟩
  split at h
  · next hb =>
    split at h
    · cases h
    next p1 bs =>
    split at h
    · cases h
    next ho =>
    split at h
    · cases h
    next p2 bs =>
    obtain ⟨hv, e, c, mb, bs', rfl, hr⟩ := decodeVex_ok h
    exact ⟨_, _, bs', .vex3 p1 p2 e c mb (by simpa using ho) hv hr, by rw [hb]; rfl⟩
  split at h
  · next hb =>
    split at h
    · cases h
    next p0 bs =>
    split at h
    · cases h
    next ho =>
    split at h
    · next p1 p2 bs =>
      obtain ⟨hv, hfix, l, hl, e, c, mb, bs', rfl, hr⟩ := decodeEvex_ok h
      exact ⟨_, _, bs', .evex p0 p1 p2 l e c mb (by simpa using ho) hv hfix hl hr, by rw [hb]; rfl⟩
    · cases h
  · cases h

end Inversion

/-! ## Readings that see only the bytes they read -/

/-- A reading that succeeds reads some first bytes, and gives the same whatever follows them. -/
structure ReadsPrefix {α : Type} (f : List Byte → Except Reject (α × List Byte)) : Prop where
  reads : ∀ bs a rest, f bs = .ok (a, rest) → ∃ pre, bs = pre ++ rest ∧ ∀ t, f (pre ++ t) = .ok (a, t)

section ReadsPrefix

variable {α β : Type} {f g : List Byte → Except Reject (α × List Byte)}

theorem ReadsPrefix.pure (a : α) : ReadsPrefix fun bs => .ok (a, bs) := by
  refine ⟨fun bs b rest h => ?_⟩
  cases h
  exact ⟨[], rfl, fun _ => rfl⟩

/-- A reading followed by a change of the value that is read. -/
theorem ReadsPrefix.map (hf : ReadsPrefix f) {F : α × List Byte → β × List Byte}
    (hF : ∀ a s t, F (a, t) = ((F (a, s)).1, t) := by intros; rfl) : ReadsPrefix fun bs => (f bs).map F := by
  refine ⟨fun bs b rest h => ?_⟩
  obtain ⟨⟨a, s⟩, ha, hx⟩ := map_eq_ok_iff.mp h
  obtain ⟨rfl, rfl⟩ := Prod.mk.inj ((hF a s s).symm.trans hx)
  obtain ⟨pre, rfl, hpre⟩ := hf.reads bs a s ha
  exact ⟨pre, rfl, fun t => by rw [hpre t, Except.map, hF a s t]⟩

/-- Two readings in a row. -/
theorem ReadsPrefix.bind {k : α × List Byte → Except Reject (β × List Byte)} (hf : ReadsPrefix f)
    (hk : ∀ a, ReadsPrefix fun bs => k (a, bs)) : ReadsPrefix fun bs => f bs >>= k := by
  refine ⟨fun bs b rest h => ?_⟩
  obtain ⟨⟨a, mid⟩, ha, hb⟩ := bind_eq_ok_iff.mp h
  obtain ⟨pre, rfl, hpre⟩ := hf.reads bs a mid ha
  obtain ⟨pre', rfl, hpre'⟩ := (hk a).reads mid b rest hb
  refine ⟨pre ++ pre', (List.append_assoc ..).symm, fun t => ?_⟩
  simp only [List.append_assoc, hpre]
  exact hpre' t

theorem ReadsPrefix.ite {c : Prop} [Decidable c] (hf : ReadsPrefix f) (hg : ReadsPrefix g) :
    ReadsPrefix fun bs => if c then f bs else g bs := by
  by_cases hc : c <;> simpa only [hc, if_true, if_false]

/-- A reading that begins with one byte. -/
theorem ReadsPrefix.byte {k : Byte → List Byte → Except Reject (α × List Byte)} (h0 : ∀ x, f [] ≠ .ok x)
    (h1 : ∀ b bs, f (b :: bs) = k b bs) (hk : ∀ b, ReadsPrefix (k b)) : ReadsPrefix f := by
  refine ⟨fun bs a rest h => ?_⟩
  cases bs with
  | nil => exact absurd h (h0 _)
  | cons b bs =>
    obtain ⟨pre, rfl, hpre⟩ := (hk b).reads bs a rest (h1 b bs ▸ h)
    exact ⟨b :: pre, rfl, fun t => (h1 b _).trans (hpre t)⟩

end ReadsPrefix

theorem readsPrefix_readLe32 : ReadsPrefix readLe32 := by
  refine ⟨fun bs a rest h => ?_⟩
  unfold readLe32 at h
  split at h
  · next b0 b1 b2 b3 bs => cases h; exact ⟨[b0, b1, b2, b3], rfl, fun _ => rfl⟩
  · cases h

theorem readsPrefix_readLe16 : ReadsPrefix readLe16 := by
  refine ⟨fun bs a rest h => ?_⟩
  unfold readLe16 at h
  split at h
  · next b0 b1 bs => cases h; exact ⟨[b0, b1], rfl, fun _ => rfl⟩
  · cases h

theorem readsPrefix_readImm : ReadsPrefix readImm := .byte nofun (fun _ _ => rfl) .pure

theorem readsPrefix_readDisp (n : Nat) (mod : BitVec 2) : ReadsPrefix (readDisp n mod) :=
  .ite (.pure _) (.ite (.byte nofun (fun _ _ => rfl) fun b => .pure (disp8 32 n b)) readsPrefix_readLe32)

theorem readsPrefix_readWide (m : Mode) (is64 x b : Bool) (n : Nat) (r : ModRM) : ReadsPrefix (readWide m is64 x b n r) :=
  .ite
    (.byte nofun (fun _ _ => rfl) fun _ => .ite (readsPrefix_readLe32.map) ((readsPrefix_readDisp n r.mod).map))
    (.ite (readsPrefix_readLe32.map) ((readsPrefix_readDisp n r.mod).map))

theorem readsPrefix_readA16 (n : Nat) (r : ModRM) : ReadsPrefix (readA16 n r) :=
  .ite (.ite (readsPrefix_readLe16.map) (.pure _))
    (.ite (.byte nofun (fun _ _ => rfl) fun _ => .pure _) (readsPrefix_readLe16.map))

theorem readsPrefix_readMem (m : Mode) (p : Prefixes) (x b : Bool) (n : Nat) (r : ModRM) :
    ReadsPrefix (readMem m p x b n r) := by
  unfold readMem
  cases addrSize m p.asize with
  | a16 => exact (readsPrefix_readA16 n r).map
  | a32 => exact (readsPrefix_readWide m false x b n r).map
  | a64 => exact (readsPrefix_readWide m true x b n r).map

theorem readsPrefix_readRm {α : Type} (m : Mode) (p : Prefixes) (x b : Bool) (n : Nat) (r : ModRM) (reg : α) :
    ReadsPrefix (readRm m p x b n r reg) :=
  .ite (.pure _) ((readsPrefix_readMem m p x b n r).map)

theorem readsPrefix_read (m : Mode) (p : Prefixes) (h : Head) : ReadsPrefix (h.read m p) := by
  change ReadsPrefix fun bs => h.read m p bs
  cases h with
  | legacy e c r =>
    cases c with
    | var =>
      simp only [Head.read]
      exact .ite ((readsPrefix_readRm ..).map) ((readsPrefix_readRm ..).map)
    | imm => simpa only [Head.read] using readsPrefix_readImm.map
  | vex v e c r =>
    cases c with
    | var => simpa only [Head.read] using (readsPrefix_readRm ..).map
    | imm => simpa only [Head.read] using readsPrefix_readImm.map
  | evex v l e c r =>
    cases c with
    | var => simpa only [Head.read] using (readsPrefix_readRm ..).map
    | imm =>
      simp only [Head.read]
      refine (readsPrefix_readRm ..).bind fun o => ?_
      dsimp only
      exact readsPrefix_readImm.map

/-! ## Prefixes -/

/-- The bytes `pfx` are prefixes, and say `p`. -/
def Scans (is64 : Bool) (pfx : List Byte) (p : Prefixes) : Prop :=
  ∀ t, scanPrefixes is64 {} (pfx ++ t) = scanPrefixes is64 p t

/-- The scan reads some prefixes, and would read the same whatever followed them. -/
theorem exists_prefixes (is64 : Bool) (p : Prefixes) (bs : List Byte) :
    ∃ pfx, bs = pfx ++ (scanPrefixes is64 p bs).2 ∧
      ∀ t, scanPrefixes is64 p (pfx ++ t) = scanPrefixes is64 (scanPrefixes is64 p bs).1 t := by
  induction bs generalizing p with
  | nil => exact ⟨[], rfl, fun _ => rfl⟩
  | cons b bs ih =>
    simp only [scanPrefixes]
    cases ha : p.add b with
    | some p' =>
      obtain ⟨pfx, hbs, hscan⟩ := ih p'
      exact ⟨b :: pfx, congrArg _ hbs, fun t => by simpa [scanPrefixes, ha] using hscan t⟩
    | none =>
      dsimp only
      split
      · next hr =>
        obtain ⟨pfx, hbs, hscan⟩ := ih { p with rex := some b }
        refine ⟨b :: pfx, congrArg _ hbs, fun t => ?_⟩
        simpa only [List.cons_append, scanPrefixes, ha, hr, if_true] using hscan t
      · exact ⟨[], rfl, fun _ => rfl⟩

/-- No head begins with one of the prefixes. -/
theorem scanPrefixes_head {m : Mode} {h : Head} {pre : List Byte} (hh : h.Spelled m pre) (p : Prefixes) (bs : List Byte) :
    scanPrefixes m.is64 p (pre ++ bs) = (p, pre ++ bs) := by
  cases hh <;> exact scanPrefixes_stop _ _ rfl rfl

/-! ## What decodes -/

/-- Prefixes and a head decode as the head and what follows it do. -/
theorem decode_head {m : Mode} {pfx pre : List Byte} {p : Prefixes} {h : Head} (hscan : Scans m.is64 pfx p)
    (hh : h.Spelled m pre) (bs : List Byte) :
    decode m (pfx ++ (pre ++ bs)) = h.decode m p (pfx ++ (pre ++ bs)).length bs := by
  rw [decode, hscan, scanPrefixes_head hh]
  exact decodeClass_head hh _ bs

/-- The bytes are the text of one instruction: prefixes `p`, the head `h` and its operands. -/
inductive Parses (m : Mode) (i : Instr) : List Byte → Prefixes → Head → Prop
  | mk {pfx pre opnd : List Byte} {p : Prefixes} {h : Head} (hscan : Scans m.is64 pfx p) (hh : h.Spelled m pre)
      (hp : h.reject m p = none) (hread : ∀ t, h.read m p (opnd ++ t) = .ok (.ok i, t)) :
      Parses m i (pfx ++ (pre ++ opnd)) p h

/-- What decodes is the text of one instruction, no longer than 15 bytes, and any bytes (30_encoding.md R115, R116). -/
theorem decode_ok_iff {m : Mode} {bs : List Byte} {i : Instr} {n : Nat} : decode m bs = .ok (i, n) ↔
    ∃ text rest p h, bs = text ++ rest ∧ Parses m i text p h ∧ n = text.length ∧ n ≤ 15 := by
  constructor
  · intro hd
    obtain ⟨pfx, hbs, hscan⟩ := exists_prefixes m.is64 {} bs
    obtain ⟨h, pre, bs', hh, hrest⟩ := exists_head_of_decodeClass hd
    rw [hrest] at hbs
    generalize (scanPrefixes m.is64 {} bs).1 = p at hscan
    subst hbs
    rw [decode_head hscan hh] at hd
    cases hp : h.reject m p with
    | some x => simp [Head.decode_of_reject hp] at hd
    | none =>
      simp only [Head.decode, hp] at hd
      obtain ⟨⟨j, rest⟩, hread, hfin⟩ := bind_eq_ok_iff.mp hd
      obtain ⟨rfl, hn, h15⟩ := (finish_ok_iff ..).mp hfin
      obtain ⟨opnd, rfl, hopnd⟩ := (readsPrefix_read m p h).reads _ _ _ hread
      exact ⟨_, rest, p, h, by simp only [List.append_assoc], .mk hscan hh hp hopnd,
        by simp only [List.length_append] at hn ⊢; omega, h15⟩
  · rintro ⟨_, rest, p, h, rfl, ⟨hscan, hh, hp, hread⟩, rfl, h15⟩
    simp only [List.append_assoc]
    rw [decode_head hscan hh, Head.decode_of_read hp (hread rest), finish_ok_iff]
    exact ⟨rfl, by simp only [List.length_append]; omega, h15⟩

/-- Settles O51: the text of an instruction decodes to it whatever follows. -/
theorem decodeReadsOnlyTheInstruction : Obligations.DecodeReadsOnlyTheInstruction := by
  intro m bs tail i n hd
  obtain ⟨text, rest, p, h, rfl, hparse, rfl, h15⟩ := decode_ok_iff.mp hd
  rw [List.take_left]
  exact decode_ok_iff.mpr ⟨text, tail, p, h, rfl, hparse, rfl, h15⟩

end Sys2Proof
end

