-- ==== Sys2Proof/Proofs/DecodedWellFormed.lean ====
section
/-! SUPPORT. What decodes is well formed: its registers are nameable in the mode, its address can be spelled there
(30_encoding.md R94 to R96, R112, R117). -/

namespace Sys2Proof

/-! ## Addresses -/

theorem gregOf_lt : ∀ low : BitVec 3, (gregOf false low).val < 8 := by decide

/-- A general register that needs no extension bit outside 64-bit mode can be named there. -/
theorem gregOf_lt_gprs {m : Mode} {b : Bool} (hb : m.is64 = false → b = false) (low : BitVec 3) :
    (gregOf b low).val < m.gprs := by
  cases h64 : m.is64 with
  | true => simp [Mode.gprs, h64]
  | false => simpa [Mode.gprs, h64, hb h64] using gregOf_lt low

/-- When a 32-bit or 64-bit address is well formed. -/
theorem wide_wf {m : Mode} {is64 : Bool} {base : Base} {index : Option GReg} {scale : Fin 4} {d : BitVec 32}
    (h64 : is64 = true → m.is64 = true) (hb : base.wf m = true) (h0 : index = none → scale = 0)
    (hi : ∀ i, index = some i → i.val < m.gprs ∧ i ≠ 4 ∧ base ≠ .rip) :
    (EffAddr.wide is64 base index scale d).wf m = true := by
  have hsize : (!is64 || m.is64) = true := by
    cases is64 with
    | false => rfl
    | true => exact h64 rfl
  cases index with
  | none => simp [EffAddr.wf, hsize, hb, h0 rfl]
  | some i =>
    obtain ⟨hlt, h4, hrip⟩ := hi i rfl
    simp [EffAddr.wf, hsize, hb, hlt, h4, hrip]

theorem indexOf_eq_some_iff {x : Bool} {f : BitVec 3} {i : GReg} :
    indexOf x f = some i ↔ gregOf x f ≠ 4 ∧ gregOf x f = i := by
  unfold indexOf
  by_cases h : gregOf x f = 4 <;> simp [h]

section Read

variable {m : Mode} {is64 x b : Bool} {n : Nat} {r : ModRM} {bs rest : List Byte} {ea : EffAddr}

/-- The address that is read is well formed, as long as the extension bits are 0 outside 64-bit mode. -/
theorem wf_of_readWide (h64 : is64 = true → m.is64 = true) (hx : m.is64 = false → x = false)
    (hb : m.is64 = false → b = false) (h : readWide m is64 x b n r bs = .ok (ea, rest)) : ea.wf m = true := by
  have hgpr (low : BitVec 3) : (Base.gpr (gregOf b low)).wf m = true := decide_eq_true (gregOf_lt_gprs hb low)
  unfold readWide at h
  split at h
  · split at h
    · cases h
    next sib bs =>
    have hi : ∀ i, indexOf x (sib.extractLsb' 3 3) = some i → i.val < m.gprs ∧ i ≠ 4 := fun i hi => by
      obtain ⟨h4, rfl⟩ := indexOf_eq_some_iff.mp hi
      exact ⟨gregOf_lt_gprs hx _, h4⟩
    dsimp only at h
    split at h
    · obtain ⟨_, -, he⟩ := map_eq_ok_iff.mp h
      cases he
      exact wide_wf h64 rfl (fun hn => by simp [hn]) fun i he => ⟨(hi i he).1, (hi i he).2, nofun⟩
    · obtain ⟨_, -, he⟩ := map_eq_ok_iff.mp h
      cases he
      exact wide_wf h64 (hgpr _) (fun hn => by simp [hn]) fun i he => ⟨(hi i he).1, (hi i he).2, nofun⟩
  split at h
  · obtain ⟨_, -, he⟩ := map_eq_ok_iff.mp h
    cases he
    refine wide_wf h64 ?_ (fun _ => rfl) nofun
    split
    · assumption
    · rfl
  · obtain ⟨_, -, he⟩ := map_eq_ok_iff.mp h
    cases he
    exact wide_wf h64 (hgpr _) (fun _ => rfl) nofun

theorem wf_of_readA16 (h64 : m.is64 = false) (h : readA16 n r bs = .ok (ea, rest)) : ea.wf m = true := by
  have ha16 (base : Base16) (d : BitVec 16) : (EffAddr.a16 base d).wf m = true := by simp [EffAddr.wf, h64]
  unfold readA16 at h
  split at h
  · split at h
    · obtain ⟨_, -, he⟩ := map_eq_ok_iff.mp h
      cases he
      exact ha16 ..
    · cases h
      exact ha16 ..
  split at h
  · split at h
    · cases h
      exact ha16 ..
    · cases h
  · obtain ⟨_, -, he⟩ := map_eq_ok_iff.mp h
    cases he
    exact ha16 ..

/-- The address size 64 exists in 64-bit mode alone, the address size 16 outside it. -/
theorem addrSize_eq {m : Mode} {asize : Bool} :
    (addrSize m asize = .a64 → m.is64 = true) ∧ (addrSize m asize = .a16 → m.is64 = false) := by
  cases m <;> cases asize <;> decide

theorem wf_of_readMem {p : Prefixes} {a : MemOp} (hx : m.is64 = false → x = false) (hb : m.is64 = false → b = false)
    (h : readMem m p x b n r bs = .ok (a, rest)) : a.wf m = true := by
  obtain ⟨⟨ea, _⟩, hr, he⟩ := map_eq_ok_iff.mp h
  cases he
  show ea.wf m = true
  split at hr
  · next hs => exact wf_of_readA16 (addrSize_eq.2 hs) hr
  · exact wf_of_readWide (is64 := false) nofun hx hb hr
  · next hs => exact wf_of_readWide (fun _ => addrSize_eq.1 hs) hx hb hr

/-- The r/m operand is the register its fields name, or a well-formed memory operand. -/
theorem readRm_ok {α : Type} {p : Prefixes} {reg : α} {o : RegMem α} (hx : m.is64 = false → x = false)
    (hb : m.is64 = false → b = false) (h : readRm m p x b n r reg bs = .ok (o, rest)) :
    o = .reg reg ∨ ∃ a, o = .mem a ∧ a.wf m = true := by
  unfold readRm at h
  split at h
  · cases h
    exact .inl rfl
  · obtain ⟨⟨a, _⟩, hr, he⟩ := map_eq_ok_iff.mp h
    cases he
    exact .inr ⟨a, rfl, wf_of_readMem hx hb hr⟩

end Read

/-! ## Registers -/

theorem wfVex_of_lt {m : Mode} {r : VReg} (h16 : r.val < 16) (h8 : m.is64 = false → r.val < 8) : wfVex m r = true := by
  cases h64 : m.is64 with
  | true => simpa [wfVex, Mode.vexRegs, h64] using h16
  | false => simpa [wfVex, Mode.vexRegs, h64] using h8 h64

theorem wfEvex_of_lt {m : Mode} {r : VReg} (h8 : m.is64 = false → r.val < 8) : wfEvex m r = true := by
  cases h64 : m.is64 with
  | true => simp [wfEvex, Mode.evexRegs, h64]
  | false => simpa [wfEvex, Mode.evexRegs, h64] using h8 h64

theorem vregOf_lt : ∀ (b : Bool) (low : BitVec 3),
    (vregOf false b low).val < 16 ∧ (b = false → (vregOf false b low).val < 8) := by decide

theorem vvvvReg_lt : ∀ v : BitVec 4, (vvvvReg false v).val < 16 := by decide

/-- A register that needs no REX bit outside 64-bit mode is nameable in a legacy form. -/
theorem wfVex_vregOf {m : Mode} {b : Bool} (hb : m.is64 = false → b = false) (low : BitVec 3) :
    wfVex m (vregOf false b low) = true :=
  wfVex_of_lt (vregOf_lt b low).1 fun h64 => (vregOf_lt b low).2 (hb h64)

/-- The instruction that `lowOnly` lets pass names registers below 8 outside 64-bit mode. -/
theorem lt_of_lowOnly {m : Mode} {rs : List VReg} {i j : Instr} (h : lowOnly m rs i = .ok j) :
    i = j ∧ (m.is64 = false → ∀ r ∈ rs, r.val < 8) := by
  obtain ⟨rfl, hr⟩ := (lowOnly_ok_iff ..).mp h
  exact ⟨rfl, fun h64 => hr.resolve_left (by simp [h64])⟩

theorem wf_masking {z : Bool} {aaa : BitVec 3} (h : (z && aaa == 0#3) = false) : (Masking.mk aaa.toFin z).wf = true := by
  have hz : ∀ a : BitVec 3, (a.toFin == 0) = (a == 0#3) := by decide
  simp [Masking.wf, hz, h]

/-! ## The operands of each class -/

section Operands

variable {m : Mode} {p : Prefixes} {x b : Bool} {n : Nat} {r : ModRM} {bs rest : List Byte}

theorem wfMm_of_readRm {reg : MmReg} {o : RegMem MmReg} (hx : m.is64 = false → x = false) (hb : m.is64 = false → b = false)
    (h : readRm m p x b n r reg bs = .ok (o, rest)) : o.wfMm m = true := by
  rcases readRm_ok hx hb h with rfl | ⟨a, rfl, ha⟩
  · rfl
  · exact ha

/-- The r/m operand of a vector form is well formed when the register that it can name is nameable. -/
theorem wfV_of_readRm {k : Nat} {reg : VReg} {o : RegMem VReg} (hx : m.is64 = false → x = false)
    (hb : m.is64 = false → b = false) (h : readRm m p x b n r reg bs = .ok (o, rest)) (hreg : o = .reg reg → reg.val < k) :
    o.wfV m k = true := by
  rcases readRm_ok hx hb h with rfl | ⟨a, rfl, ha⟩
  · exact decide_eq_true (hreg rfl)
  · exact ha

theorem wf_dataSrcOf {bc : Bool} {o : RegMem VReg} (h : o.wfV m m.evexRegs = true) : (dataSrcOf bc o).wf m = true := by
  cases o with
  | reg r => exact h
  | mem a => cases bc <;> exact h

theorem operandsWf_evexImm {l : VLen} {e : Elem} {dst : VReg} {k : Masking} {bc : Bool} {o : RegMem VReg} (imm : Byte)
    (hd : wfEvex m dst = true) (hk : k.wf = true) (ho : o.wfV m m.evexRegs = true) :
    (evexImm l e dst k bc o imm).operandsWf m = true := by
  cases e with
  | w => rw [evexImm, operandsWf_evexImmW, hd, hk, ho]; rfl
  | d => rw [evexImm, operandsWf_evexImmD, hd, hk, wf_dataSrcOf ho]; rfl
  | q => rw [evexImm, operandsWf_evexImmQ, hd, hk, wf_dataSrcOf ho]; rfl

theorem isLegacy_evexImm (l : VLen) (e : Elem) (dst : VReg) (k : Masking) (bc : Bool) (o : RegMem VReg) (imm : Byte) :
    (evexImm l e dst k bc o imm).form.isLegacy = false := by
  cases e <;> simp [evexImm, Form.isLegacy]

end Operands

/-! ## What a head reads -/

/-- Prefixes outside 64-bit mode hold no REX byte. -/
theorem rex_scanPrefixes {p : Prefixes} (hp : p.rex = none) (bs : List Byte) : (scanPrefixes false p bs).1.rex = none := by
  induction bs generalizing p with
  | nil => exact hp
  | cons b bs ih =>
    simp only [scanPrefixes]
    cases ha : p.add b with
    | none => simpa using hp
    | some p' =>
      refine ih ?_
      unfold Prefixes.add at ha
      repeat' split at ha
      all_goals cases ha
      all_goals rfl

theorem rexBit_of_scans {m : Mode} {pfx : List Byte} {p : Prefixes} (h : Scans m.is64 pfx p) (h64 : m.is64 = false)
    (i : Nat) : p.rexBit i = false := by
  have hrex : p.rex = none := by
    have hscan := h []
    rw [h64] at hscan
    have := rex_scanPrefixes (p := {}) rfl (pfx ++ [])
    rwa [hscan] at this
  rw [Prefixes.rexBit, hrex]

section Read

variable {m : Mode} {p : Prefixes} {bs rest : List Byte} {i : Instr}

/-- A legacy head reads a well-formed MMX or SSE128 form. -/
theorem wf_of_read_legacy {e : Elem} {c : CountKind} {r : ModRM} (hrex : ∀ k, m.is64 = false → p.rexBit k = false)
    (hr : (Head.legacy e c r).read m p bs = .ok (.ok i, rest)) : i.form.isLegacy = true ∧ i.operandsWf m = true := by
  cases c with
  | var =>
    cases h66 : p.opsize with
    | true =>
      simp only [Head.read, h66, if_true] at hr
      obtain ⟨⟨o, _⟩, ho, he⟩ := map_eq_ok_iff.mp hr
      cases he
      have hreg : (vregOf false (p.rexBit 0) r.rm).val < m.vexRegs := by simpa [wfVex] using wfVex_vregOf (hrex 0) r.rm
      have hwf := wfV_of_readRm (hrex 1) (hrex 0) ho fun _ => hreg
      exact ⟨by simp [Form.isLegacy], by rw [operandsWf_sseRm, wfVex_vregOf (hrex 2), hwf]; rfl⟩
    | false =>
      simp only [Head.read, h66, Bool.false_eq_true, if_false] at hr
      obtain ⟨⟨o, _⟩, ho, he⟩ := map_eq_ok_iff.mp hr
      cases he
      exact ⟨by simp [Form.isLegacy], by rw [operandsWf_mmxRm, wfMm_of_readRm (hrex 1) (hrex 0) ho]⟩
  | imm =>
    obtain ⟨⟨b, _⟩, -, he⟩ := map_eq_ok_iff.mp hr
    cases h66 : p.opsize with
    | true =>
      simp only [h66, if_true] at he
      cases he
      exact ⟨by simp [Form.isLegacy], by rw [operandsWf_sseImm, wfVex_vregOf (hrex 0)]⟩
    | false =>
      simp only [h66, Bool.false_eq_true, if_false] at he
      cases he
      exact ⟨by simp [Form.isLegacy], by cases e <;> rfl⟩

/-- The extension bits of a VEX or EVEX address are cut to 0 outside 64-bit mode. -/
theorem ext_cut (m : Mode) (x : Bool) : m.is64 = false → (m.is64 && x) = false := fun h64 => by rw [h64, Bool.false_and]

/-- A VEX head reads a well-formed VEX form: `lowOnly` sees every register that it names. -/
theorem wf_of_read_vex {v : VexFields} {e : Elem} {c : CountKind} {r : ModRM}
    (hr : (Head.vex v e c r).read m p bs = .ok (.ok i, rest)) : i.form.isLegacy = false ∧ i.operandsWf m = true := by
  have hrm := vregOf_lt v.b r.rm
  cases c with
  | var =>
    obtain ⟨⟨o, _⟩, ho, he⟩ := map_eq_ok_iff.mp hr
    obtain ⟨rfl, h8⟩ := lt_of_lowOnly (Prod.mk.inj he).1
    simp only [List.forall_mem_cons] at h8
    have hd := wfVex_of_lt (vregOf_lt v.r r.reg).1 fun h64 => (h8 h64).1
    have hs := wfVex_of_lt (vvvvReg_lt v.vvvv) fun h64 => (h8 h64).2.1
    have hwf := wfV_of_readRm (k := m.vexRegs) (ext_cut m v.x) (ext_cut m v.b) ho fun hreg => by
      subst hreg
      simpa [wfVex] using wfVex_of_lt hrm.1 fun h64 => by simpa [RegMem.regs] using (h8 h64).2.2
    exact ⟨by simp [Form.isLegacy], by rw [operandsWf_vexRm, hd, hs, hwf]; rfl⟩
  | imm =>
    obtain ⟨⟨b, _⟩, -, he⟩ := map_eq_ok_iff.mp hr
    obtain ⟨rfl, h8⟩ := lt_of_lowOnly (Prod.mk.inj he).1
    simp only [List.forall_mem_cons] at h8
    have hd := wfVex_of_lt (vvvvReg_lt v.vvvv) fun h64 => (h8 h64).1
    have hs := wfVex_of_lt hrm.1 fun h64 => (h8 h64).2.1
    exact ⟨by simp [Form.isLegacy], by rw [operandsWf_vexImm, hd, hs]; rfl⟩

theorem wfV_evexRegs {x b : Bool} {n : Nat} {r : ModRM} {reg : VReg} {o : RegMem VReg}
    (ho : readRm m p (m.is64 && x) (m.is64 && b) n r reg bs = .ok (o, rest))
    (h8 : m.is64 = false → ∀ r ∈ o.regs, r.val < 8) : o.wfV m m.evexRegs = true :=
  wfV_of_readRm (ext_cut m x) (ext_cut m b) ho fun hreg => by
    subst hreg
    simpa [wfEvex] using wfEvex_of_lt fun h64 => by simpa [RegMem.regs] using h8 h64

/-- An EVEX head reads a well-formed EVEX form, as long as it does not zero without a writemask. -/
theorem wf_of_read_evex {v : EvexFields} {l : VLen} {e : Elem} {c : CountKind} {r : ModRM}
    (hz : (v.z && v.aaa == 0#3) = false) (hr : (Head.evex v l e c r).read m p bs = .ok (.ok i, rest)) : i.form.isLegacy = false ∧ i.operandsWf m = true := by
  have hk := wf_masking hz
  cases c with
  | var =>
    obtain ⟨⟨o, _⟩, ho, he⟩ := map_eq_ok_iff.mp hr
    obtain ⟨rfl, h8⟩ := lt_of_lowOnly (Prod.mk.inj he).1
    simp only [List.forall_mem_cons] at h8
    have hd := wfEvex_of_lt fun h64 => (h8 h64).1
    have hs := wfEvex_of_lt fun h64 => (h8 h64).2.1
    have hwf := wfV_evexRegs ho fun h64 => (h8 h64).2.2
    exact ⟨by simp [Form.isLegacy], by rw [operandsWf_evexRm, hd, hk, hs, hwf]; rfl⟩
  | imm =>
    obtain ⟨⟨o, _⟩, ho, hr⟩ := bind_eq_ok_iff.mp hr
    obtain ⟨⟨b, _⟩, -, he⟩ := map_eq_ok_iff.mp hr
    obtain ⟨rfl, h8⟩ := lt_of_lowOnly (Prod.mk.inj he).1
    simp only [List.forall_mem_cons] at h8
    have hd := wfEvex_of_lt fun h64 => (h8 h64).1
    exact ⟨isLegacy_evexImm .., operandsWf_evexImm b hd hk (wfV_evexRegs ho fun h64 => (h8 h64).2)⟩

/-- The instruction that is read is of the class of its head, in a mode that has it, and its operands are well formed. -/
theorem wf_of_read {h : Head} (hrex : ∀ k, m.is64 = false → p.rexBit k = false) (hp : h.reject m p = none)
    (hr : h.read m p bs = .ok (.ok i, rest)) : i.form.isLegacy = h.isLegacy ∧ i.wf m = true := by
  cases h with
  | legacy e c r =>
    obtain ⟨hf, ho⟩ := wf_of_read_legacy hrex hr
    exact ⟨hf, by simp [Instr.wf, hf, ho]⟩
  | vex v e c r =>
    obtain ⟨hf, ho⟩ := wf_of_read_vex hr
    have hok : p.clash = false ∧ m.hasVex = true := by simpa [Head.reject] using hp
    exact ⟨hf, by simp [Instr.wf, ho, hok.2]⟩
  | evex v l e c r =>
    have hok : p.clash = false ∧ m.hasVex = true ∧ evexBad v e c r = false := by simpa [Head.reject] using hp
    obtain ⟨-, hv, hbad⟩ := hok
    obtain ⟨hf, ho⟩ := wf_of_read_evex (by simp only [evexBad, Bool.or_eq_false_iff] at hbad; exact hbad.2) hr
    exact ⟨hf, by simp [Instr.wf, ho, hv]⟩

end Read

theorem Parses.wf {m : Mode} {i : Instr} {text : List Byte} {p : Prefixes} {h : Head} (hparse : Parses m i text p h) :
    i.form.isLegacy = h.isLegacy ∧ i.wf m = true := by
  obtain ⟨hscan, -, hp, hread⟩ := hparse
  exact wf_of_read (fun k h64 => rexBit_of_scans hscan h64 k) hp (hread [])

/-- Settles O50: the text that decodes is that of a well-formed instruction. -/
theorem decodedInstructionsAreWellFormed : Obligations.DecodedInstructionsAreWellFormed := by
  intro m bs i n hd
  obtain ⟨_, _, _, _, -, hparse, -⟩ := decode_ok_iff.mp hd
  exact ⟨hparse.wf.2, (goodLength_decode m bs).bounds i n hd⟩

end Sys2Proof
end

