-- ==== Sys2Proof/Proofs/Encodings.lean ====
section
/-! SUPPORT. Prefixes that are added, fields that are illegal, bytes that spell another instruction (30_encoding.md R112,
R113, R116, R117), and the encodings the spec writes out. -/

namespace Sys2Proof

/-- Settles O49. -/
theorem decodeOfEncode : Obligations.DecodeOfEncode := fun _ _ tail h => readsBack_of_wf h tail

/-- Settles O60: each of the strings is short, and the decoder runs on it. -/
theorem someWordsDecode : Obligations.SomeWordsDecode := ⟨rfl, rfl, rfl, rfl, rfl, rfl, rfl, rfl⟩

/-! ## Prefixes before an instruction -/

/-- What the prefixes `p` say when `q` was said before them: the last segment override counts, and only a REX byte that
stands last (30_encoding.md R82, R83). -/
def Prefixes.after (p q : Prefixes) : Prefixes :=
  { opsize := p.opsize || q.opsize, rep := p.rep || q.rep, lock := p.lock || q.lock, asize := p.asize || q.asize,
    seg := p.seg.or q.seg, rex := p.rex }

theorem add_after (p q : Prefixes) (b : Byte) : (p.after q).add b = (p.add b).map (·.after q) := by
  unfold Prefixes.add
  repeat' split
  all_goals rfl

/-- The scan carries on what was said before. -/
theorem scanPrefixes_after (is64 : Bool) (p q : Prefixes) (bs : List Byte) :
    scanPrefixes is64 (p.after q) bs = (scanPrefixes is64 p bs).map (·.after q) id := by
  induction bs generalizing p with
  | nil => rfl
  | cons b bs ih =>
    have hrex : (p.after q).rex = p.rex := rfl
    simp only [scanPrefixes, add_after, hrex]
    cases p.add b with
    | some p' => exact ih p'
    | none =>
      dsimp only [Option.map_none]
      split
      · exact ih { p with rex := some b }
      · rfl

/-- One more byte before the prefixes of an instruction, which says `q`. -/
theorem Scans.cons {b : Byte} {q : Prefixes} (hb : Prefixes.add {} b = some q) (hq : q.rex = none) {is64 : Bool}
    {pfx : List Byte} {p : Prefixes} (h : Scans is64 pfx p) : Scans is64 (b :: pfx) (p.after q) := fun t => by
  have hafter : q = Prefixes.after {} q := by rw [Prefixes.after, ← hq]; rfl
  have hstep : scanPrefixes is64 {} (b :: (pfx ++ t)) = scanPrefixes is64 q (pfx ++ t) := by simp [scanPrefixes, hb]
  rw [List.cons_append, hstep, hafter, scanPrefixes_after, ← hafter, h t, scanPrefixes_after]

theorem decode_of_reject {m : Mode} {pfx pre : List Byte} {p : Prefixes} {h : Head} {x : Reject}
    (hscan : Scans m.is64 pfx p) (hh : h.Spelled m pre) (hx : h.reject m p = some x) (bs : List Byte) :
    decode m (pfx ++ (pre ++ bs)) = .error x := by
  rw [decode_head hscan hh, Head.decode_of_reject hx]

/-- One more byte before an instruction, with which its head is none. -/
theorem Parses.decode_cons {b : Byte} {q : Prefixes} (hb : Prefixes.add {} b = some q) (hq : q.rex = none) {m : Mode}
    {i : Instr} {text : List Byte} {p : Prefixes} {h : Head} (hparse : Parses m i text p h) {x : Reject}
    (hx : h.reject m (p.after q) = some x) (rest : List Byte) : decode m (b :: (text ++ rest)) = .error x := by
  obtain ⟨hscan, hh, -, -⟩ := hparse
  simpa only [List.append_assoc, List.cons_append] using decode_of_reject (hscan.cons hb hq) hh hx _

theorem reject_legacy_iff {m : Mode} {p : Prefixes} {e : Elem} {c : CountKind} {r : ModRM} :
    (Head.legacy e c r).reject m p = none ↔ p.rep = false ∧ p.lock = false := by
  simp only [Head.reject]
  cases p.rep <;> cases p.lock <;> simp

theorem reject_after_lock {m : Mode} {p : Prefixes} {h : Head} (hp : h.reject m p = none) :
    h.reject m (p.after { lock := true }) = some .ud := by
  cases h with
  | legacy e c r => simp [Head.reject, Prefixes.after, (reject_legacy_iff.mp hp).1]
  | vex v e c r => simp [Head.reject, Prefixes.after, Prefixes.clash]
  | evex v l e c r => simp [Head.reject, Prefixes.after, Prefixes.clash]

theorem reject_after_rep (m : Mode) (p : Prefixes) (h : Head) :
    h.reject m (p.after { rep := true }) = some (if h.isLegacy then .repPrefix else .ud) := by
  cases h <;> simp [Head.reject, Head.isLegacy, Prefixes.after, Prefixes.clash]

theorem Parses.reject {m : Mode} {i : Instr} {text : List Byte} {p : Prefixes} {h : Head} (hparse : Parses m i text p h) :
    h.reject m p = none := by
  obtain ⟨-, -, hp, -⟩ := hparse
  exact hp

/-- The first part of R112: LOCK, F2 and F3. -/
theorem decode_lock_rep {m : Mode} {bs : List Byte} {i : Instr} {n : Nat} (hd : decode m bs = .ok (i, n)) :
    decode m (0xF0#8 :: bs) = .error .ud ∧
      ∀ b ∈ [0xF2#8, 0xF3#8], decode m (b :: bs) = .error (if i.form.isLegacy then .repPrefix else .ud) := by
  obtain ⟨text, rest, p, h, rfl, hparse, -⟩ := decode_ok_iff.mp hd
  refine ⟨hparse.decode_cons (q := { lock := true }) rfl rfl (reject_after_lock hparse.reject) rest, ?_⟩
  have hrep (b : Byte) (hb : Prefixes.add {} b = some { rep := true }) :
      decode m (b :: (text ++ rest)) = .error (if i.form.isLegacy then .repPrefix else .ud) := by
    rw [hparse.wf.1]
    exact hparse.decode_cons hb rfl (reject_after_rep m p h) rest
  simp only [List.forall_mem_cons]
  exact ⟨hrep _ rfl, hrep _ rfl, nofun⟩

/-! ## Prefixes that clash with VEX and EVEX (30_encoding.md R112) -/

/-- The bytes of a class begin with no prefixes. -/
theorem decode_class {m : Mode} {b : Byte} (ha : Prefixes.add {} b = none) (hr : isRex b = false) (bs : List Byte) :
    decode m (b :: bs) = decodeClass m {} (bs.length + 1) (b :: bs) := by
  rw [decode, scanPrefixes_stop _ _ ha hr]
  rfl

theorem add_of_isRex : ∀ b : Byte, isRex b = true → Prefixes.add {} b = none := by decide

/-- 66, F2, F3, F0 and REX clash in 64-bit mode. -/
theorem exists_clash {b : Byte} (hb : b ∈ [0x66#8, 0xF2#8, 0xF3#8, 0xF0#8] ∨ isRex b = true) :
    ∃ p : Prefixes, p.clash = true ∧ ∀ t, scanPrefixes true {} (b :: t) = scanPrefixes true p t := by
  rcases hb with hb | hr
  · simp only [List.mem_cons, List.not_mem_nil, or_false] at hb
    rcases hb with rfl | rfl | rfl | rfl
    exacts [⟨{ opsize := true }, rfl, fun _ => rfl⟩, ⟨{ rep := true }, rfl, fun _ => rfl⟩,
      ⟨{ rep := true }, rfl, fun _ => rfl⟩, ⟨{ lock := true }, rfl, fun _ => rfl⟩]
  · exact ⟨{ rex := some b }, rfl, fun t => scanPrefixes_rex t (add_of_isRex b hr) hr rfl⟩

theorem decodeVex_of_clash {m : Mode} {p : Prefixes} (hp : p.clash = true) (total : Nat) (v : VexFields) (bs : List Byte) :
    decodeVex m p total v bs = .error .ud := by
  simp [decodeVex, hp]

theorem decodeEvex_of_clash {m : Mode} {p : Prefixes} (hp : p.clash = true) (total : Nat) (v : EvexFields)
    (bs : List Byte) : decodeEvex m p total v bs = .error .ud := by
  simp [decodeEvex, hp]

/-- Settles O54: what stands before the head is seen by it, and by a VEX or EVEX byte before anything that follows. -/
theorem prefixesThatAreNotAllowed : Obligations.PrefixesThatAreNotAllowed := by
  refine ⟨fun m bs i n hd => decode_lock_rep hd, fun b p0 p1 p2 tail hb => ?_⟩
  obtain ⟨p, hp, hscan⟩ := exists_clash hb
  have hother (q : Byte) : otherInstruction .mode64 q = false := rfl
  have hdecode (c : Byte) (t : List Byte) (ha : p.add c = none) (hr : isRex c = false) :
      decode .mode64 (b :: c :: t) = decodeClass .mode64 p (t.length + 2) (c :: t) := by
    rw [decode, Mode.is64, hscan, scanPrefixes_stop _ _ ha hr]
    rfl
  rw [hdecode _ _ rfl rfl, hdecode _ _ rfl rfl, hdecode _ _ rfl rfl]
  simp [decodeClass_vex2, decodeClass_vex3, decodeClass_evex, hother, decodeVex_of_clash hp, decodeEvex_of_clash hp]

/-! ## The length (30_encoding.md R116) -/

theorem finish_of_tooLong {total : Nat} {rest : List Byte} (h : 15 < total - rest.length) (i : Except Reject Instr) :
    finish total rest i = .error .gpLength := by
  rw [finish, if_pos h]

/-- The prefixes `p` after a CS override. -/
def addCs (p : Prefixes) : Prefixes := { p with seg := p.seg.or (some .cs) }

theorem after_cs (p : Prefixes) : p.after { seg := some .cs } = addCs p := by simp [Prefixes.after, addCs]

/-- A reading that succeeds and leaves the bytes `rest`. -/
def Leaves {α : Type} (r : Except Reject (α × List Byte)) (rest : List Byte) : Prop := ∃ a, r = .ok (a, rest)

/-- A change of the value that is read does not change what is left. -/
theorem leaves_map_iff {α β : Type} {r : Except Reject (α × List Byte)} {F : α × List Byte → β × List Byte}
    {rest : List Byte} (hF : ∀ x, (F x).2 = x.2 := by intros; rfl) : Leaves (r.map F) rest ↔ Leaves r rest := by
  cases r with
  | error x => simp [Leaves, Except.map]
  | ok x =>
    have hx : F x = ((F x).1, x.2) := by rw [← hF x]
    obtain ⟨a, s⟩ := x
    rw [Except.map, hx]
    simp [Leaves]

/-- Another segment changes the operand that is read, not the bytes that are left. -/
theorem leaves_readMem_addCs (m : Mode) (p : Prefixes) (x b : Bool) (n : Nat) (r : ModRM) (bs rest : List Byte) :
    Leaves (readMem m (addCs p) x b n r bs) rest ↔ Leaves (readMem m p x b n r bs) rest :=
  (leaves_map_iff).trans (leaves_map_iff).symm

theorem leaves_readRm_addCs {α : Type} (m : Mode) (p : Prefixes) (x b : Bool) (n : Nat) (r : ModRM) (reg : α)
    (bs rest : List Byte) : Leaves (readRm m (addCs p) x b n r reg bs) rest ↔ Leaves (readRm m p x b n r reg bs) rest := by
  unfold readRm
  split
  · rfl
  · exact (leaves_map_iff).trans ((leaves_readMem_addCs ..).trans (leaves_map_iff).symm)

theorem leaves_read_addCs {m : Mode} {p : Prefixes} {h : Head} {bs rest : List Byte} (hr : Leaves (h.read m p bs) rest) :
    Leaves (h.read m (addCs p) bs) rest := by
  have hops : (addCs p).opsize = p.opsize := rfl
  have hrex (k : Nat) : (addCs p).rexBit k = p.rexBit k := rfl
  cases h with
  | legacy e c r =>
    cases c with
    | var => cases h66 : p.opsize <;> simpa [Head.read, hops, hrex, h66, leaves_map_iff, leaves_readRm_addCs] using hr
    | imm => simpa [Head.read, leaves_map_iff] using hr
  | vex v e c r =>
    cases c with
    | var => simpa [Head.read, leaves_map_iff, leaves_readRm_addCs] using hr
    | imm => simpa [Head.read, leaves_map_iff] using hr
  | evex v l e c r =>
    cases c with
    | var => simpa [Head.read, leaves_map_iff, leaves_readRm_addCs] using hr
    | imm =>
      obtain ⟨i, hi⟩ := hr
      obtain ⟨⟨o, mid⟩, ho, himm⟩ := bind_eq_ok_iff.mp hi
      obtain ⟨o', ho'⟩ := (leaves_readRm_addCs ..).mpr ⟨o, ho⟩
      obtain ⟨imm, himm'⟩ := (leaves_map_iff).mp ⟨i, himm⟩
      exact ⟨_, bind_eq_ok_iff.mpr ⟨(o', mid), ho', by rw [himm', Except.map]⟩⟩

theorem reject_addCs (m : Mode) (p : Prefixes) (h : Head) : h.reject m (addCs p) = h.reject m p := by
  cases h <;> rfl

/-- Redundant CS overrides before the prefixes of an instruction leave its head one, and its operands as long. -/
theorem exists_scans_replicate {m : Mode} {pfx opnd : List Byte} {p : Prefixes} {h : Head} (hscan : Scans m.is64 pfx p)
    (hp : h.reject m p = none) (hread : ∀ t, Leaves (h.read m p (opnd ++ t)) t) (n : Nat) :
    ∃ q, Scans m.is64 (List.replicate n 0x2E#8 ++ pfx) q ∧ h.reject m q = none ∧
      ∀ t, Leaves (h.read m q (opnd ++ t)) t := by
  induction n with
  | zero => exact ⟨p, hscan, hp, hread⟩
  | succ n ih =>
    obtain ⟨q, hq, hqp, hqread⟩ := ih
    exact ⟨addCs q, after_cs q ▸ hq.cons rfl rfl, (reject_addCs ..).trans hqp, fun t => leaves_read_addCs (hqread t)⟩

theorem Parses.decode_tooLong {m : Mode} {i : Instr} {text : List Byte} {p : Prefixes} {h : Head}
    (hparse : Parses m i text p h) {n : Nat} (hn : 15 < n + text.length) (tail : List Byte) :
    decode m (List.replicate n 0x2E#8 ++ text ++ tail) = .error .gpLength := by
  obtain ⟨hscan, hh, hp, hread⟩ := hparse
  obtain ⟨q, hq, hqp, hqread⟩ := exists_scans_replicate hscan hp (fun t => ⟨_, hread t⟩) n
  obtain ⟨j, hj⟩ := hqread tail
  simp only [List.append_assoc] at hn ⊢
  rw [← List.append_assoc, decode_head hq hh, Head.decode_of_read hqp hj]
  refine finish_of_tooLong ?_ j
  simp only [List.length_append, List.length_replicate] at hn ⊢
  omega

/-- The encoding of a well-formed instruction is its text. -/
theorem exists_parses_encode {m : Mode} {i : Instr} (h : i.wf m = true) : ∃ p hd, Parses m i (encode m i) p hd := by
  obtain ⟨text, rest, p, hd, htext, hparse, hn, -⟩ := decode_ok_iff.mp (readsBack_of_wf h [])
  have hrest : rest = [] := by
    have := congrArg List.length htext
    simp only [List.append_nil, List.length_append] at this
    exact List.eq_nil_of_length_eq_zero (by omega)
  rw [List.append_nil, hrest, List.append_nil] at htext
  exact ⟨p, hd, htext ▸ hparse⟩

/-- Settles O55: the overrides change at most the segment, and the end of decoding sees the length. -/
theorem tooLongIsGp : Obligations.TooLongIsGp := by
  refine ⟨fun m i n tail hwf hn => ?_, fun s hd => ?_⟩
  · obtain ⟨p, h, hparse⟩ := exists_parses_encode hwf
    exact hparse.decode_tooLong hn tail
  · rw [Machine.step, hd]
    rfl

end Sys2Proof
end

