-- ==== Sys2Proof/Proofs/EncodingFields.lean ====
section
/-! SUPPORT. Bytes that spell another instruction, illegal and compressed fields, and the modes other than 64-bit mode
(30_encoding.md R93, R98, R110 to R113, R117). -/

namespace Sys2Proof

/-! ## Opcodes 71, 72, 73 with another ModRM.reg (30_encoding.md R113) -/

theorem exists_opByte_imm {op : Byte} (h : op ∈ [0x71#8, 0x72#8, 0x73#8]) : ∃ e, op = opByte e .imm := by
  simp only [List.mem_cons, List.not_mem_nil, or_false] at h
  rcases h with rfl | rfl | rfl
  exacts [⟨.w, rfl⟩, ⟨.d, rfl⟩, ⟨.q, rfl⟩]

section Neighbours

variable {r : ModRM} (hr : r.reg ≠ 6#3) (e : Elem)
include hr

theorem selectForm_neighbour (k : EncClass) : selectForm k (opByte e .imm) r = none := by
  simp [selectForm, opcodeOf_opByte, hr]

theorem noRow_neighbour (k : EncClass) : noRow k (opByte e .imm) r = .notInFamily := by
  simp [noRow, opcodeOf_opByte, hr]

end Neighbours

theorem isSome_vlenOf : ∀ ll : BitVec 2, ll ≠ 3#2 → (vlenOf ll).isSome = true := by decide

section Neighbours

variable {m : Mode} {p : Prefixes} {mb : Byte} (hr : (ModRM.ofByte mb).reg ≠ 6#3) (e : Elem) (total : Nat) (tail : List Byte)
include hr

theorem decodeLegacy_neighbour : decodeLegacy m p total (opByte e .imm :: mb :: tail) = .error .notInFamily := by
  simp [decodeLegacy, opcodeOf_opByte, selectForm_neighbour hr, noRow_neighbour hr]

theorem decodeVex_neighbour (hp : p.clash = false) (v : VexFields) :
    decodeVex m p total v (opByte e .imm :: mb :: tail) = .error .notInFamily := by
  simp [decodeVex, hp, opcodeOf_opByte, selectForm_neighbour hr, noRow_neighbour hr]

theorem decodeEvex_neighbour (hp : p.clash = false) {v : EvexFields} (hfix : v.fixed0 = false ∧ v.fixed1 = true)
    (hl : v.ll ≠ 3#2) : decodeEvex m p total v (opByte e .imm :: mb :: tail) = .error .notInFamily := by
  obtain ⟨l, hlen⟩ := Option.isSome_iff_exists.mp (isSome_vlenOf v.ll hl)
  simp [decodeEvex, hp, hfix, hlen, opcodeOf_opByte, selectForm_neighbour hr, noRow_neighbour hr]

end Neighbours

/-- The low four bits of P0 and the low three of P1 hold the map, pp and the fixed bits (30_encoding.md R91). -/
theorem evexFixed_of_low {p0 p1 : Byte} (h0 : p0.extractLsb' 0 4 = 1#4) (h1 : p1.extractLsb' 0 3 = 5#3) (p2 : Byte) :
    (evexFields p0 p1 p2).fixed0 = false ∧ (evexFields p0 p1 p2).fixed1 = true := by
  change p0.getLsbD 3 = false ∧ p1.getLsbD 2 = true
  have hbit0 := congrArg (BitVec.getLsbD · 3) h0
  have hbit1 := congrArg (BitVec.getLsbD · 2) h1
  exact ⟨by simpa using hbit0, by simpa using hbit1⟩

theorem decode_66 (m : Mode) (bs : List Byte) :
    decode m (0x66#8 :: 0x0F#8 :: bs) = decodeLegacy m { opsize := true } (bs.length + 2) bs := by
  have hscan : scanPrefixes m.is64 {} (0x66#8 :: 0x0F#8 :: bs) = ({ opsize := true }, 0x0F#8 :: bs) :=
    (scanPrefixes_66 _ rfl rfl true _).trans (scanPrefixes_stop _ _ rfl rfl)
  rw [decode, hscan]
  rfl

/-- Settles O53: whatever selects the class, no row of the opcode map fits. -/
theorem neighboursAreRefused : Obligations.NeighboursAreRefused := by
  intro m op hop mb p1 p2 p0 tail hr
  obtain ⟨e, rfl⟩ := exists_opByte_imm hop
  refine ⟨?_, ?_, fun _ => ?_, fun _ _ => ?_, fun h0 h1 h2 => ?_⟩
  · rw [decode_class rfl rfl]
    exact decodeLegacy_neighbour hr e _ tail
  · rw [decode_66]
    exact decodeLegacy_neighbour hr e _ tail
  · rw [decode_class rfl rfl, decodeClass_vex2, decodeVex_neighbour hr e _ tail rfl, ite_self]
  · rw [decode_class rfl rfl, decodeClass_vex3, decodeVex_neighbour hr e _ tail rfl, ite_self]
  · rw [decode_class rfl rfl, decodeClass_evex,
      decodeEvex_neighbour hr e _ tail rfl (evexFixed_of_low h0 h1 p2) h2, ite_self]

/-! ## EVEX fields that are illegal (30_encoding.md R110 to R112) -/

/-- Map 0F and pp = 66 with a fixed bit wrong or L'L = 11 is #UD, whatever follows. -/
theorem decodeEvex_of_fixed {m : Mode} {p : Prefixes} (hp : p.clash = false) {v : EvexFields} (hv : v.map = 1#3 ∧ v.pp = 1#2)
    (h : v.fixed0 = true ∨ v.fixed1 = false ∨ v.ll = 3#2) (total : Nat) (bs : List Byte) :
    decodeEvex m p total v bs = .error .ud := by
  have hll : vlenOf 3#2 = none := rfl
  rcases h with h | h | h <;> simp [decodeEvex, hp, hv, h, hll]

/-- The bits that the opcode and ModRM make illegal: the wrong W, a broadcast that does not exist, zeroing without a
writemask. -/
theorem evexBad_of_bits {v : EvexFields} {e : Elem} {c : CountKind} {r : ModRM}
    (h : (e = .d ∧ v.w = true) ∨ (e = .q ∧ v.w = false) ∨ (v.bc = true ∧ (c = .var ∨ e = .w ∨ r.mod = 3#2)) ∨
      (v.z = true ∧ v.aaa = 0#3)) : evexBad v e c r = true := by
  rcases h with ⟨rfl, hw⟩ | ⟨rfl, hw⟩ | ⟨hbc, hb⟩ | ⟨hz, ha⟩
  · simp [evexBad, evexWBad, hw]
  · simp [evexBad, evexWBad, hw]
  · rcases hb with hb | hb | hb <;> simp [evexBad, evexBBad, hbc, hb]
  · simp [evexBad, hz, ha]

/-- Settles O56: P0, P1 and L'L are tested before the row is selected, the other bits when its head is. -/
theorem illegalEvexBits : Obligations.IllegalEvexBits := by
  intro p0 p1 p2 mb tail e c hmap hpp hbad
  generalize hv : evexFields p0 p1 p2 = v
  have hfields : v.map = 1#3 ∧ v.pp = 1#2 := by subst hv; exact ⟨hmap, hpp⟩
  have hbits : (v.fixed0 = true ∨ v.fixed1 = false ∨ v.ll = 3#2) ∨ ((c = .imm → (ModRM.ofByte mb).reg = 6#3) ∧
      ((e = .d ∧ v.w = true) ∨ (e = .q ∧ v.w = false) ∨
        (v.bc = true ∧ (c = .var ∨ e = .w ∨ (ModRM.ofByte mb).mod = 3#2)) ∨ (v.z = true ∧ v.aaa = 0#3))) := by
    subst hv
    simp only [or_assoc]
    exact hbad
  have hother : otherInstruction .mode64 p0 = false := rfl
  rw [decode_class rfl rfl, decodeClass_evex, hv, hother, if_neg Bool.false_ne_true]
  by_cases hfix : v.fixed0 = true ∨ v.fixed1 = false ∨ v.ll = 3#2
  · exact decodeEvex_of_fixed rfl hfields hfix ..
  · obtain ⟨hreg, hrow⟩ := hbits.resolve_left hfix
    simp only [not_or, Bool.not_eq_true, Bool.not_eq_false] at hfix
    obtain ⟨h0, h1, hl⟩ := hfix
    obtain ⟨l, hlen⟩ := Option.isSome_iff_exists.mp (isSome_vlenOf _ hl)
    refine (decodeEvex_head tail hfields ⟨h0, h1⟩ hlen hreg).trans (Head.decode_of_reject ?_ ..)
    simp [Head.reject, evexBad_of_bits hrow]

/-! ## The compressed displacement (30_encoding.md R98) -/

theorem disp8_eq_ofInt (w n : Nat) (d : Byte) : disp8 w n d = BitVec.ofInt w (d.toInt * n) := by
  rw [disp8, BitVec.ofInt_mul, BitVec.ofInt_natCast]
  rfl

/-- The memory operand `[rm + d * n]`, its segment the default one. -/
def baseDisp (rm : BitVec 3) (d : Byte) (n : Int) : MemOp :=
  ⟨if rm = 5#3 then .ss else .ds, .wide true (.gpr (gregOf false rm)) none 0 (BitVec.ofInt 32 (d.toInt * n))⟩

theorem gregOf_stack_iff : ∀ rm : BitVec 3, rm ≠ 4#3 → ((gregOf false rm = 4 ∨ gregOf false rm = 5) ↔ rm = 5#3) := by
  decide

/-- A base register with an 8-bit displacement is read at the factor `n`. -/
theorem readRm_baseDisp (n : Nat) (reg : BitVec 3) {rm : BitVec 3} (h4 : rm ≠ 4#3) (v : VReg) (d : Byte) (bs : List Byte) :
    readRm .mode64 {} false false n ⟨1#2, reg, rm⟩ v (d :: bs) = .ok (.mem (baseDisp rm d n), bs) := by
  simp [readRm, readMem, addrSize, Mode.is64, readWide, readDisp, Except.map, EffAddr.defaultSeg, baseDisp, disp8_eq_ofInt,
    h4, gregOf_stack_iff rm h4]

/-- EVEX bytes with the register fields 0, no writemask and the broadcast bit `b`. -/
theorem decode_evex_plain (l : VLen) (e : Elem) (b : Bool) (bs : List Byte) :
    decode .mode64 (0x62#8 :: 0xF1#8 :: (BitVec.ofBool (evexW e) ++ 15#4 ++ 1#1 ++ 1#2 : Byte) ::
        (0#1 ++ llOf l ++ BitVec.ofBool b ++ 1#1 ++ 0#3 : Byte) :: bs) =
      decodeEvex .mode64 {} (bs.length + 4) (writtenEvex l e ⟨0, false⟩ b false false false false 0) bs := by
  have hfields := evexFields_written l e ⟨0, false⟩ b false false false false 0
  have hother (q : Byte) : otherInstruction .mode64 q = false := rfl
  rw [← hfields, decode_class rfl rfl, decodeClass_evex, hother, if_neg Bool.false_ne_true]
  rfl

/-- In 64-bit mode every register is nameable, and the instruction ends where the bytes that follow it begin. -/
theorem finish_lowOnly_mode64 {total n : Nat} {tail : List Byte} (h : total = tail.length + n) (hn : n ≤ 15) (rs : List VReg)
    (i : Instr) : finish total tail (lowOnly .mode64 rs i) = .ok (i, n) := by
  rw [lowOnly_ok i (fun h64 => by cases h64), finish_of_length h hn]

/-- An immediate form with a base register and an 8-bit displacement. -/
theorem decode_evexImm_baseDisp (l : VLen) (e : Elem) (b : Bool) (hb : b = true → e ≠ .w) {rm : BitVec 3} (h4 : rm ≠ 4#3)
    (d imm : Byte) (tail : List Byte) :
    decode .mode64 (0x62#8 :: 0xF1#8 :: (BitVec.ofBool (evexW e) ++ 15#4 ++ 1#1 ++ 1#2 : Byte) ::
        (0#1 ++ llOf l ++ BitVec.ofBool b ++ 1#1 ++ 0#3 : Byte) :: opByte e .imm :: (1#2 ++ 6#3 ++ rm) :: d :: imm :: tail) =
      .ok (evexImm l e 0 ⟨0, false⟩ b (.mem (baseDisp rm d (disp8Factor l e .imm b))) imm, 8) := by
  have hbad : evexBBad e .imm b ⟨1#2, 6#3, rm⟩ = false := by
    cases b with
    | false => rfl
    | true =>
      have hw := hb rfl
      cases e <;> simp_all [evexBBad]
  rw [decode_evex_plain]
  refine (decodeEvex_evexImm rfl rfl rfl l e ⟨1#2, 6#3, rm⟩ imm _ false false false false 0 rfl hbad
    (readRm_baseDisp _ 6#3 h4 _ d (imm :: tail))).trans ?_
  exact finish_lowOnly_mode64 (by simp only [List.length_cons]) (by decide) ..

/-- Settles O57: the decoder reads one base register and 8-bit displacement at the factor of each form. -/
theorem compressedDisplacement : Obligations.CompressedDisplacement := by
  intro l e reg rm d imm tail h4
  refine ⟨?_, ?_, ?_, ?_⟩
  · rw [decode_evex_plain]
    refine (decodeEvex_evexRm rfl rfl rfl l e ⟨1#2, reg, rm⟩ _ false false false false 0
      (readRm_baseDisp 16 reg h4 _ d tail)).trans ?_
    exact finish_lowOnly_mode64 (by simp only [List.length_cons]) (by decide) ..
  · rintro rfl
    exact decode_evexImm_baseDisp l .w false nofun h4 d imm tail
  · rintro rfl b
    cases b with
    | false => exact decode_evexImm_baseDisp l .d false nofun h4 d imm tail
    | true => exact decode_evexImm_baseDisp l .d true nofun h4 d imm tail
  · rintro rfl b
    cases b with
    | false => exact decode_evexImm_baseDisp l .q false nofun h4 d imm tail
    | true => exact decode_evexImm_baseDisp l .q true nofun h4 d imm tail

end Sys2Proof
end

