-- ==== Sys2Proof/Proofs/OtherModes.lean ====
section
/-! SUPPORT. Decoding outside 64-bit mode (30_encoding.md R93, R94, R112, R117). -/

namespace Sys2Proof

/-! ## Bytes that are prefixes in 64-bit mode alone -/

theorem otherInstruction_eq_true {m : Mode} {b : Byte} (h64 : m.is64 = false) (hb : b.extractLsb' 6 2 ≠ 3#2) :
    otherInstruction m b = true := by
  simp [otherInstruction, h64, hb]

/-- C4, C5 and 62 before a byte whose top two bits are not 11 are the opcodes of other instructions. -/
theorem decode_otherInstruction {m : Mode} {b : Byte} (h64 : m.is64 = false) (hb : b.extractLsb' 6 2 ≠ 3#2) {p : Byte}
    (hp : p ∈ [0xC4#8, 0xC5#8, 0x62#8]) (tail : List Byte) : decode m (p :: b :: tail) = .error .notInFamily := by
  have hother := otherInstruction_eq_true h64 hb
  simp only [List.mem_cons, List.not_mem_nil, or_false] at hp
  rcases hp with rfl | rfl | rfl
  all_goals
    rw [decode_class rfl rfl]
    simp [decodeClass, hother]

/-- A byte 40 to 4F outside 64-bit mode ends the prefixes, and begins no class. -/
theorem decode_isRex {m : Mode} {b : Byte} (h64 : m.is64 = false) (hb : isRex b = true) (tail : List Byte) :
    decode m (b :: tail) = .error .notInFamily := by
  have hscan : scanPrefixes m.is64 {} (b :: tail) = ({}, b :: tail) := by simp [scanPrefixes, add_of_isRex b hb, h64]
  have hclass : b ≠ 0x0F#8 ∧ b ≠ 0xC5#8 ∧ b ≠ 0xC4#8 ∧ b ≠ 0x62#8 := by
    refine ⟨?_, ?_, ?_, ?_⟩ <;> rintro rfl <;> cases hb
  obtain ⟨h0F, hC5, hC4, h62⟩ := hclass
  rw [decode, hscan]
  simp [decodeClass, h0F, hC5, hC4, h62]

/-! ## Two modes with the same addressing -/

section SameAddressing

variable {m m' : Mode} (h64 : m.is64 = m'.is64)
include h64

theorem Head.Spelled.congr {h : Head} {pre : List Byte} (hh : h.Spelled m pre) : h.Spelled m' pre := by
  have hother (b : Byte) : otherInstruction m b = otherInstruction m' b := by rw [otherInstruction, otherInstruction, h64]
  cases hh with
  | legacy e c mb hr => exact .legacy e c mb hr
  | vex2 p1 e c mb ho hv hr => exact .vex2 p1 e c mb (hother p1 ▸ ho) hv hr
  | vex3 p1 p2 e c mb ho hv hr => exact .vex3 p1 p2 e c mb (hother p1 ▸ ho) hv hr
  | evex p0 p1 p2 l e c mb ho hv hfix hl hr => exact .evex p0 p1 p2 l e c mb (hother p0 ▸ ho) hv hfix hl hr

theorem readRm_congr (h32 : m.is32 = m'.is32) {α : Type} (p : Prefixes) (x b : Bool) (n : Nat) (r : ModRM) (reg : α)
    (bs : List Byte) : readRm m p x b n r reg bs = readRm m' p x b n r reg bs := by
  simp only [readRm, readMem, addrSize, readWide, h64, h32]

/-- A legacy form is read alike. -/
theorem read_legacy_congr (h32 : m.is32 = m'.is32) (p : Prefixes) (e : Elem) (c : CountKind) (r : ModRM) (bs : List Byte) :
    (Head.legacy e c r).read m p bs = (Head.legacy e c r).read m' p bs := by
  cases c with
  | var => simp only [Head.read, readRm_congr h64 h32]
  | imm => rfl

end SameAddressing

/-- What decodes in one mode decodes alike in a mode with the same addressing and without VEX and EVEX, when it is an MMX or
SSE128 form, and is #UD there otherwise. -/
theorem decode_without_vex {m m' : Mode} (h64 : m.is64 = m'.is64) (h32 : m.is32 = m'.is32) (hv : m'.hasVex = false)
    {bs : List Byte} {i : Instr} {n : Nat} (hd : decode m bs = .ok (i, n)) :
    decode m' bs = if i.form.isLegacy then .ok (i, n) else .error .ud := by
  obtain ⟨text, rest, p, h, rfl, hparse, rfl, h15⟩ := decode_ok_iff.mp hd
  rw [hparse.wf.1]
  obtain ⟨hscan, hh, hp, hread⟩ := hparse
  rw [h64] at hscan
  have hh' := hh.congr h64
  cases h with
  | legacy e c r =>
    have hread' := fun t => (read_legacy_congr h64 h32 p e c r _).symm.trans (hread t)
    exact decode_ok_iff.mpr ⟨_, rest, p, _, rfl, .mk hscan hh' hp hread', rfl, h15⟩
  | vex v e c r =>
    simpa [Head.isLegacy] using decode_of_reject hscan hh' (x := .ud) (by simp [Head.reject, hv]) _
  | evex v l e c r =>
    simpa [Head.isLegacy] using decode_of_reject hscan hh' (x := .ud) (by simp [Head.reject, hv]) _

/-! ## VEX registers above 7 -/

theorem lowOnly_high {m : Mode} (h64 : m.is64 = false) {rs : List VReg} {r : VReg} (hr : r ∈ rs) (h8 : 8 ≤ r.val)
    (i : Instr) : lowOnly m rs i = .error .highRegister := by
  have hany : rs.any (fun r => decide (8 ≤ r.val)) = true := List.any_eq_true.mpr ⟨r, hr, decide_eq_true h8⟩
  simp [lowOnly, h64, hany]

theorem finish_error {total n : Nat} {tail : List Byte} (h : total = tail.length + n) (hn : n ≤ 15) (x : Reject) :
    finish total tail (.error x) = .error x := by
  rw [finish, if_neg (by omega)]
  rfl

theorem vregOf_high : ∀ rm : BitVec 3, 8 ≤ (vregOf false true rm).val := by decide

theorem vvvvReg_high : ∀ v : BitVec 4, v.getLsbD 3 = false → 8 ≤ (vvvvReg false (~~~v)).val := by decide

section High

variable {m : Mode} (h64 : m.is64 = false) {v : VexFields} {rm : BitVec 3}
  (h8 : 8 ≤ (vregOf false v.b rm).val ∨ 8 ≤ (vvvvReg false v.vvvv).val)
include h64 h8

/-- A form with two registers, in r/m and in vvvv, of which one is above 7. -/
theorem lowOnly_high_vex {rs : List VReg} (hrm : vregOf false v.b rm ∈ rs) (hvvvv : vvvvReg false v.vvvv ∈ rs) (i : Instr) :
    lowOnly m rs i = .error .highRegister := by
  rcases h8 with h8 | h8
  · exact lowOnly_high h64 hrm h8 i
  · exact lowOnly_high h64 hvvvv h8 i

variable (hv : m.hasVex = true) (hf : v.map = 1#5 ∧ v.pp = 1#2) (e : Elem)
include hv hf

theorem decodeVex_high_var (reg : BitVec 3) {total : Nat} {tail : List Byte} (hlen : total = tail.length + 5) :
    decodeVex m {} total v (opByte e .var :: (3#2 ++ reg ++ rm) :: tail) = .error .highRegister := by
  have hmodrm : ModRM.ofByte (3#2 ++ reg ++ rm) = ⟨3#2, reg, rm⟩ := ModRM.ofByte_toByte ⟨3#2, reg, rm⟩
  have hp : (Head.vex v e .var ⟨3#2, reg, rm⟩).reject m {} = none := by simp [Head.reject, Prefixes.clash, hv]
  rw [decodeVex_head (c := .var) tail hf nofun, hmodrm, Head.decode_of_read hp rfl,
    lowOnly_high_vex h64 h8 (by simp [RegMem.regs]) (by simp), finish_error hlen (by decide)]

theorem decodeVex_high_imm (imm : Byte) {total : Nat} {tail : List Byte} (hlen : total = tail.length + 6) :
    decodeVex m {} total v (opByte e .imm :: (3#2 ++ 6#3 ++ rm) :: imm :: tail) = .error .highRegister := by
  have hmodrm : ModRM.ofByte (3#2 ++ 6#3 ++ rm) = ⟨3#2, 6#3, rm⟩ := ModRM.ofByte_toByte ⟨3#2, 6#3, rm⟩
  have hp : (Head.vex v e .imm ⟨3#2, 6#3, rm⟩).reject m {} = none := by simp [Head.reject, Prefixes.clash, hv]
  rw [decodeVex_head (imm :: tail) hf fun _ => by rw [hmodrm]; exact ⟨rfl, rfl⟩, hmodrm, Head.decode_of_read hp rfl,
    lowOnly_high_vex h64 h8 (by simp) (by simp), finish_error hlen (by decide)]

end High

/-- Settles O59. -/
theorem prefixesOutside64BitMode : Obligations.PrefixesOutside64BitMode := by
  refine ⟨fun m b tail hm => ?_, fun bs i n hd m hm => ?_, fun m hm p1 p2 imm e reg rm tail htop hmap hpp hhigh => ?_⟩
  · have h64 : m.is64 = false := (Machine.is64_eq_false_iff m).mpr hm
    exact ⟨fun hb p hp => decode_otherInstruction h64 hb hp tail, fun hb => decode_isRex h64 hb tail⟩
  · simp only [List.mem_cons, List.not_mem_nil, or_false] at hm
    rcases hm with rfl | rfl
    · exact decode_without_vex (m := .mode16) (m' := .real) rfl rfl rfl hd
    · exact decode_without_vex (m := .mode16) (m' := .v86) rfl rfl rfl hd
  · have hmode : m.is64 = false ∧ m.hasVex = true := by
      simp only [List.mem_cons, List.not_mem_nil, or_false] at hm
      rcases hm with rfl | rfl | rfl <;> exact ⟨rfl, rfl⟩
    obtain ⟨h64, hv⟩ := hmode
    have hother : otherInstruction m p1 = false := otherInstruction_eq_false fun _ => htop
    have hb : p1.getLsbD 5 = false → (vex3Fields p1 p2).b = true := congrArg not
    have h8 : 8 ≤ (vregOf false (vex3Fields p1 p2).b rm).val ∨ 8 ≤ (vvvvReg false (vex3Fields p1 p2).vvvv).val :=
      hhigh.imp (fun h => by rw [hb h]; exact vregOf_high rm) fun h => vvvvReg_high _ (by simpa using h)
    rw [decode_class rfl rfl, decode_class rfl rfl, decodeClass_vex3, decodeClass_vex3, hother, if_neg Bool.false_ne_true,
      if_neg Bool.false_ne_true]
    exact ⟨decodeVex_high_var h64 h8 hv ⟨hmap, hpp⟩ e reg rfl, decodeVex_high_imm h64 h8 hv ⟨hmap, hpp⟩ e imm rfl⟩

end Sys2Proof
end

