-- ==== Sys2Proof/Proofs/ShiftCore.lean ====
section
/-! SUPPORT. The shift of one element and the packed shift as algebra (40_shift_core.md R130 to R139): the laws
of the element shift, lifted to packed values element by element. -/

namespace Sys2Proof.Machine

/-! ## One element (40_shift_core.md R130 to R132) -/

section Element

variable {N : Nat} (x : BitVec N)

theorem shl_of_gt {c : Nat} (h : c > N - 1) : shl N x c = 0#N := if_pos h

theorem getLsbD_shl (c : Nat) {i : Nat} (hi : i < N) :
    (shl N x c).getLsbD i = (decide (c ≤ i) && x.getLsbD (i - c)) := by
  rw [shl_eq, BitVec.getLsbD_shiftLeft]
  by_cases h : i < c <;> simp [hi, h, Nat.not_le.mpr, Nat.not_lt.mp]

@[simp] theorem shl_zero : shl N x 0 = x := by rw [shl_eq, BitVec.shiftLeft_zero]

@[simp] theorem zero_shl (c : Nat) : shl N 0#N c = 0#N := by rw [shl_eq, BitVec.zero_shiftLeft]

theorem shl_shl (a b : Nat) : shl N (shl N x a) b = shl N x (a + b) := by
  rw [shl_eq, shl_eq, shl_eq, BitVec.shiftLeft_add]

theorem shl_one : shl N x 1 = x + x := by
  apply BitVec.eq_of_toNat_eq
  rw [toNat_shl, natShift_eq, BitVec.toNat_add, pow_one, Nat.mul_two]

/-- The low bits of a shifted element are 0 (40_shift_core.md R132 (f)). -/
theorem extractLsb'_shl_low {c : Nat} (hc : c ≤ N) : (shl N x c).extractLsb' 0 c = 0#c := by
  apply BitVec.eq_of_getLsbD_eq
  intro i hi
  rw [BitVec.getLsbD_extractLsb', Nat.zero_add, getLsbD_shl x c (by omega)]
  simp [Nat.not_le.mpr hi]

/-- The other bits of a shifted element are the low bits of the element. -/
theorem extractLsb'_shl_high (c : Nat) : (shl N x c).extractLsb' c (N - c) = x.extractLsb' 0 (N - c) := by
  apply BitVec.eq_of_getLsbD_eq
  intro i hi
  rw [BitVec.getLsbD_extractLsb', BitVec.getLsbD_extractLsb', getLsbD_shl x c (by omega), Nat.zero_add]
  simp

theorem twoPow_eq_ofInt (N c : Nat) : BitVec.twoPow N c = BitVec.ofInt N (2 ^ c) := by
  apply BitVec.eq_of_toNat_eq
  rw [BitVec.toNat_twoPow, BitVec.toNat_ofInt]
  exact (Int.toNat_natCast (2 ^ c % 2 ^ N)).symm.trans (by push_cast; rfl)

/-- The signed reading of an element gives the same bits (40_shift_core.md R132 (g)). -/
theorem shl_eq_ofInt (c : Nat) : shl N x c = BitVec.ofInt N (x.toInt * 2 ^ c) := by
  rw [shl_eq, BitVec.shiftLeft_eq_mul_twoPow, BitVec.ofInt_mul, BitVec.ofInt_toInt, twoPow_eq_ofInt]

/-- The largest count that is no excess keeps bit 0, as the most significant bit (40_shift_core.md R131). -/
theorem shl_pred (hN : 0 < N) : shl N x (N - 1) = if x.getLsbD 0 then BitVec.twoPow N (N - 1) else 0#N := by
  apply BitVec.eq_of_getLsbD_eq
  intro i hi
  rw [getLsbD_shl x _ hi]
  rcases Nat.eq_or_lt_of_le (Nat.le_sub_one_of_lt hi) with rfl | hlt
  · rw [Nat.sub_self]
    cases x.getLsbD 0 <;> simp [hN]
  · cases x.getLsbD 0 <;> simp [BitVec.getLsbD_twoPow, Nat.not_le.mpr hlt, (Nat.ne_of_lt hlt).symm]

end Element

/-- Settles O1. -/
theorem shiftOfOneElement : Obligations.ShiftOfOneElement := fun N _ x c =>
  ⟨toNat_shl N x c, fun _ _ hi => getLsbD_shl x c hi⟩

theorem width_pos {N : Nat} (hN : N ∈ [16, 32, 64]) : 0 < N := by
  revert N; decide

/-- Settles O2. -/
theorem shiftThresholds : Obligations.ShiftThresholds := fun _ hN x =>
  ⟨fun _ hc => shl_of_gt x hc, shl_pred x (width_pos hN)⟩

/-- Settles O3: the laws hold at every width, since SHL_N is multiplication by a power of 2 modulo 2^N. -/
theorem shiftLaws : Obligations.ShiftLaws := fun N _ x c a b =>
  ⟨(toNat_shl N x c).trans (natShift_eq N x.toNat c), shl_zero x, zero_shl c, shl_shl x a b, shl_one x,
    fun _ hc => ⟨extractLsb'_shl_low x (by omega), extractLsb'_shl_high x c⟩, shl_eq_ofInt x c⟩

/-! ## Packed shifts (40_shift_core.md R136, R139) -/

/-- A value is determined by its elements as numbers. -/
theorem eq_of_natLanes {W N n : Nat} (hW : n * N = W) {a b : BitVec W} (h : ∀ j, j < n → natLane N a j = natLane N b j) :
    a = b :=
  eq_of_lanes hW fun j hj => BitVec.eq_of_toNat_eq (by rw [toNat_lane, toNat_lane, h j hj])

@[simp] theorem lane_zero (W N j : Nat) : lane N 0#W j = 0#N := by simp [lane]

/-- An element of the low part of a concatenation. -/
theorem lane_append_low {V W N n : Nat} (hW : n * N = W) (a : BitVec V) (b : BitVec W) {j : Nat} (hj : j < n) :
    lane N (a ++ b) j = lane N b j := by
  have hle : (j + 1) * N ≤ W := hW ▸ Nat.mul_le_mul_right N hj
  rw [← lane_setWidth (W := W) _ hle, BitVec.setWidth_append_eq_right]

/-- An element of the high part of a concatenation. -/
theorem lane_append_high {V W N n : Nat} (hW : n * N = W) (a : BitVec V) (b : BitVec W) (j : Nat) :
    lane N (a ++ b) (n + j) = lane N a j := by
  apply BitVec.eq_of_getLsbD_eq
  intro i _
  have hat : (n + j) * N + i = W + (j * N + i) := by rw [Nat.add_mul, hW, Nat.add_assoc]
  rw [getLsbD_lane, getLsbD_lane, hat, BitVec.getLsbD_append]
  simp

section Packed

variable {W N : Nat} (hW : W / N * N = W) (src : BitVec W)
include hW

theorem psll_zero : psll W N src 0 = src :=
  eq_of_lanes hW fun j hj => by rw [lane_psll src 0 hj, shl_zero]

theorem psll_psll (a b : Nat) : psll W N (psll W N src a) b = psll W N src (a + b) :=
  eq_of_lanes hW fun j hj => by rw [lane_psll _ b hj, lane_psll src a hj, lane_psll src _ hj, shl_shl]

theorem psll_of_gt {c : Nat} (hc : c > N - 1) : psll W N src c = 0#W :=
  eq_of_lanes hW fun j hj => by rw [lane_psll src c hj, shl_of_gt _ hc, lane_zero]

/-- The packed shift of a concatenation is the concatenation of the packed shifts: no bit crosses between elements. -/
theorem psll_append {V : Nat} (hV : V / N * N = V) (a : BitVec V) (c : Nat) :
    psll (V + W) N (a ++ src) c = psll V N a c ++ psll W N src c := by
  have hn : V / N + W / N ≤ (V + W) / N := Nat.div_add_div_le_add_div ..
  have hVW : (V / N + W / N) * N = V + W := by rw [Nat.add_mul, hV, hW]
  refine eq_of_lanes hVW fun j hj => ?_
  rw [lane_psll _ c (lt_of_lt_of_le hj hn)]
  rcases Nat.lt_or_ge j (W / N) with hlow | hhigh
  · rw [lane_append_low hW a src hlow, lane_append_low hW _ _ hlow, lane_psll src c hlow]
  · obtain ⟨i, rfl⟩ := Nat.exists_eq_add_of_le hhigh
    have hi : i < V / N := by omega
    rw [lane_append_high hW a src, lane_append_high hW, lane_psll a c hi]

end Packed

/-- Settles O4: the elements are shifted each on its own, and they make up the whole value. -/
theorem packedShiftElements : Obligations.PackedShiftElements := by
  rintro p hp
  have hshape : p.1 / p.2.1 = p.2.2 ∧ p.1 / p.2.1 * p.2.1 = p.1 := by revert p; decide
  obtain ⟨hcount, hwhole⟩ := hshape
  refine ⟨hcount, fun src c => ?_⟩
  rw [← hcount]
  exact ⟨fun j hj => natLane_psll src c hj,
    fun v hv => eq_of_natLanes hwhole fun j hj => (hv j hj).trans (natLane_psll src c hj).symm,
    fun hc => psll_of_gt hwhole src hc⟩

theorem elements_fill {W N : Nat} (hW : W ∈ [64, 128, 256, 512]) (hN : N ∈ [16, 32, 64]) : W / N * N = W := by
  revert N; revert W; decide

/-- Settles O5. -/
theorem packedShiftOfHalves : Obligations.PackedShiftOfHalves := by
  intro N hN c
  have h128 := elements_fill (W := 128) (by decide) hN
  have h256 := elements_fill (W := 256) (by decide) hN
  exact ⟨fun a b => psll_append h256 b h256 a c, fun a b => psll_append h128 b h128 a c⟩

/-- Settles O6. -/
theorem packedShiftsCompose : Obligations.PackedShiftsCompose := fun _ hW _ hN src a b =>
  ⟨psll_zero (elements_fill hW hN) src, psll_psll (elements_fill hW hN) src a b⟩

end Sys2Proof.Machine
end

