-- ==== Sys2Proof/Proofs/Masking.lean ====
section
/-! SUPPORT. Write-masking, broadcast and the bits above the operand (40_shift_core.md R140 to R142, R146): what a masked
write is when no element or every element is written, and forms that give the same outcome. -/

namespace Sys2Proof

/-! ## The elements of a vector (00_scope.md R18) -/

theorem VLen.bits_le (l : VLen) : l.bits ≤ 512 := by cases l <;> decide

theorem VLen.elements_fill (l : VLen) (e : Elem) : l.bits / e.bits * e.bits = l.bits := by cases l <;> cases e <;> decide

theorem VLen.elements_pos (l : VLen) (e : Elem) : 0 < l.bits / e.bits := by cases l <;> cases e <;> decide

end Sys2Proof

namespace Sys2Proof.Machine

/-! ## Write-masking and broadcast as values (40_shift_core.md R140, R146) -/

section Values

variable {VL N : Nat}

theorem natLane_maskWrite (tmp old : BitVec VL) (k : Qword) (nomask z : Bool) {j : Nat} (hj : j < VL / N) :
    natLane N (maskWrite VL N tmp old k nomask z) j =
      if nomask = true ∨ k.getLsbD j = true then natLane N tmp j else if z then 0 else natLane N old j := by
  simp only [← toNat_lane, lane_maskWrite tmp old k nomask z hj, bit, Bool.or_eq_true]
  split
  · rfl
  · cases z <;> rfl

/-- Of the mask only the bits below KL are read. -/
theorem maskWrite_congr_mask (tmp old : BitVec VL) {k k' : Qword} (nomask z : Bool)
    (h : ∀ j, j < VL / N → k.getLsbD j = k'.getLsbD j) :
    maskWrite VL N tmp old k nomask z = maskWrite VL N tmp old k' nomask z :=
  packLanes_congr VL fun j hj => by rw [bit, bit, h j hj]

theorem natLane_bcast (e : BitVec N) {j : Nat} (hj : j < VL / N) : natLane N (bcast VL N e) j = e.toNat := by
  rw [← toNat_lane, lane_bcast e hj]

variable (hVL : VL / N * N = VL)
include hVL

/-- When every element is written the result is the new value, whatever the old one and z. -/
theorem maskWrite_of_all (tmp old : BitVec VL) {k : Qword} {nomask : Bool} (z : Bool)
    (h : ∀ j, j < VL / N → (nomask || bit k j) = true) : maskWrite VL N tmp old k nomask z = tmp :=
  eq_of_lanes hVL fun j hj => by rw [lane_maskWrite _ _ _ _ _ hj, if_pos (h j hj)]

/-- When no element is written the result is 0 or the old value. -/
theorem maskWrite_of_none (tmp old : BitVec VL) {k : Qword} {nomask : Bool} (z : Bool)
    (h : ∀ j, j < VL / N → (nomask || bit k j) = false) :
    maskWrite VL N tmp old k nomask z = if z then 0#VL else old :=
  eq_of_lanes hVL fun j hj => by
    rw [lane_maskWrite _ _ _ _ _ hj, h j hj]
    cases z <;> simp

theorem psll_bcast (e : BitVec N) (c : Nat) : psll VL N (bcast VL N e) c = bcast VL N (shl N e c) :=
  eq_of_lanes hVL fun j hj => by rw [lane_psll _ c hj, lane_bcast e hj, lane_bcast _ hj]

end Values

/-- Settles O7. -/
theorem maskWriteAndBroadcastElements : Obligations.MaskWriteAndBroadcastElements := by
  intro VL hVL N hN
  have hfill : VL / N * N = VL := elements_fill (List.mem_cons_of_mem 64 hVL) hN
  refine ⟨fun tmp old k k' nomask z z' => ⟨fun j hj => natLane_maskWrite tmp old k nomask z hj,
    fun h => maskWrite_congr_mask tmp old nomask z h, ?_, ?_⟩,
    fun e c => ⟨fun j hj => natLane_bcast e hj, psll_bcast hfill e c⟩⟩
  · exact maskWrite_of_all hfill tmp old z fun _ _ => rfl
  · exact maskWrite_of_all hfill tmp old z' fun _ _ => rfl

/-! ## The bits above the operand (40_shift_core.md R141, R142) -/

/-- A bound on the destination that every write of a form's body keeps holds when the form completes. -/
theorem lt_of_withOperand_next {α : Type} {s t : State} {f : Form} {operand : Except Fault α} {body : α → State}
    {dst : VReg} {W : Nat} (h : s.withOperand f operand body = .next t) (hlt : ∀ a, ((body a).v dst).toNat < 2 ^ W) :
    (t.v dst).toNat < 2 ^ W := by
  obtain ⟨-, a, -, rfl⟩ := (State.withOperand_next_iff ..).mp h
  exact hlt a

/-- A completed VEX or EVEX form leaves the bits above its vector length 0. -/
theorem upper_of_vex_or_evex {i : Instr} {s t : State} {dst : VReg} {l : VLen} {e : Elem} {c : CountKind}
    (h : exec i s = .next t) (hd : i.dest = .v dst) (hf : i.form = .vex l e c ∨ i.form = .evex l e c) :
    (t.v dst).toNat < 2 ^ l.bits := by
  induction i using Instr.byClass with
  | mmxRm | mmxImm | sseRm | sseImm => simp at hf
  | vexRm l' e' dst' src cnt =>
    obtain ⟨rfl, -⟩ : vexLen l' = l ∧ _ := by simpa using hf
    obtain rfl : dst' = dst := by simpa using hd
    exact lt_of_withOperand_next (exec_vexRm .. ▸ h) fun _ => State.upper_writeZeroUpper s (VLen.bits_le _) dst' _
  | vexImm l' e' dst' src imm =>
    obtain ⟨rfl, -⟩ : vexLen l' = l ∧ _ := by simpa using hf
    obtain rfl : dst' = dst := by simpa using hd
    exact lt_of_withOperand_next (exec_vexImm .. ▸ h) fun _ => State.upper_writeZeroUpper s (VLen.bits_le _) dst' _
  | evexRm l' e' dst' msk src cnt =>
    obtain ⟨rfl, -⟩ : l' = l ∧ _ := by simpa using hf
    obtain rfl : dst' = dst := by simpa using hd
    exact lt_of_withOperand_next (exec_evexRm .. ▸ h) fun _ => State.upper_writeMasked s (VLen.bits_le _) dst' msk _
  | evexImmW l' dst' msk src imm =>
    obtain ⟨rfl, -⟩ : l' = l ∧ _ := by simpa using hf
    obtain rfl : dst' = dst := by simpa using hd
    exact lt_of_withOperand_next (exec_evexImmW .. ▸ h) fun _ => State.upper_writeMasked s (VLen.bits_le _) dst' msk _
  | evexImmD l' dst' msk src imm =>
    obtain ⟨rfl, -⟩ : l' = l ∧ _ := by simpa using hf
    obtain rfl : dst' = dst := by simpa using hd
    exact lt_of_withOperand_next (exec_evexImmD .. ▸ h) fun _ => State.upper_writeMasked s (VLen.bits_le _) dst' msk _
  | evexImmQ l' dst' msk src imm =>
    obtain ⟨rfl, -⟩ : l' = l ∧ _ := by simpa using hf
    obtain rfl : dst' = dst := by simpa using hd
    exact lt_of_withOperand_next (exec_evexImmQ .. ▸ h) fun _ => State.upper_writeMasked s (VLen.bits_le _) dst' msk _

/-- Settles O19. -/
theorem bitsAboveTheOperand : Obligations.BitsAboveTheOperand := fun _ _ _ _ h hd =>
  ⟨fun _ _ hf => (writes_of_exec_next h).2.upper_of_sse hd hf,
    fun _ _ _ hf => upper_of_vex_or_evex h hd (.inl hf), fun _ _ _ hf => upper_of_vex_or_evex h hd (.inr hf)⟩

/-! ## A masked write of no element and of every element (40_shift_core.md R140) -/

section Write

variable {s : State} {l : VLen} {e : Elem} {k : Masking}

/-- With no element written the destination becomes 0, or keeps its low VL bits. -/
theorem toNat_writeMasked_of_inactive (h : ∀ j, j < l.bits / e.bits → s.active k j = false) (dst : VReg)
    (tmp : BitVec l.bits) : ((s.writeMasked l.bits e.bits dst k tmp).v dst).toNat =
      if k.z then 0 else (s.v dst).toNat % 2 ^ l.bits := by
  rw [State.writeMasked, State.v_writeZeroUpper, maskWrite_of_none (l.elements_fill e) _ _ _ h,
    BitVec.toNat_setWidth_of_le l.bits_le]
  split
  · rfl
  · exact BitVec.toNat_setWidth ..

/-- With every element written the masked write is the write of the result. -/
theorem writeMasked_of_active (h : ∀ j, j < l.bits / e.bits → s.active k j = true) (dst : VReg) (tmp : BitVec l.bits) :
    s.writeMasked l.bits e.bits dst k tmp = s.writeZeroUpper dst tmp := by
  rw [State.writeMasked, maskWrite_of_all (l.elements_fill e) _ _ _ h]

theorem fullOffsets_of_active (h : ∀ j, j < l.bits / e.bits → s.active k j = true) :
    s.fullOffsets l.bits e.bits k = List.range (l.bits / 8) :=
  List.filter_eq_self.mpr fun o ho => by simp [h _ (byte_in_element l e (List.mem_range.mp ho))]

theorem bcstOffsets_of_active (h : ∀ j, j < l.bits / e.bits → s.active k j = true) :
    s.bcstOffsets l.bits e.bits k = List.range (e.bits / 8) := by
  have hany : (List.range (l.bits / e.bits)).any (s.active k) = true :=
    List.any_eq_true.mpr ⟨0, List.mem_range.mpr (l.elements_pos e), h 0 (l.elements_pos e)⟩
  simp [State.bcstOffsets, hany]

/-- Two maskings that write every element read the same of a data source. -/
theorem dataSource_of_active {k' : Masking} (h : ∀ j, j < l.bits / e.bits → s.active k j = true)
    (h' : ∀ j, j < l.bits / e.bits → s.active k' j = true) (d : DataSrc) :
    s.dataSource l.bits e.bits k d = s.dataSource l.bits e.bits k' d := by
  cases d with
  | reg r => rfl
  | mem m => simp only [State.dataSource, fullOffsets_of_active h, fullOffsets_of_active h']
  | bcst m => simp only [State.dataSource, bcstOffsets_of_active h, bcstOffsets_of_active h']

end Write

/-- An EVEX form that completes has made a masked write of some result, with its own element width. -/
theorem exists_writeMasked_of_exec_next (s t : State) (l : VLen) (dst src : VReg) (k : Masking) (cnt : RegMem VReg)
    (d : DataSrc) (imm : Byte) :
    ∀ p ∈ [(evexRm l .w dst k src cnt, 16), (evexRm l .d dst k src cnt, 32), (evexRm l .q dst k src cnt, 64),
        (evexImmW l dst k cnt imm, 16), (evexImmD l dst k d imm, 32), (evexImmQ l dst k d imm, 64)],
      exec p.1 s = .next t →
      ∃ e : Elem, p.2 = e.bits ∧ ∃ tmp : BitVec l.bits, t = s.writeMasked l.bits e.bits dst k tmp := by
  have hvar (e : Elem) (h : exec (evexRm l e dst k src cnt) s = .next t) :
      ∃ tmp : BitVec l.bits, t = s.writeMasked l.bits e.bits dst k tmp := by
    obtain ⟨-, c, -, rfl⟩ := (evexShift_next_iff ..).mp (exec_evexRm .. ▸ h)
    exact ⟨_, rfl⟩
  have himm {e : Elem} {f : Form} {source : State → Except Fault (BitVec l.bits)}
      (h : evexImmShift l.bits e.bits f dst k source imm s = .next t) :
      ∃ tmp : BitVec l.bits, t = s.writeMasked l.bits e.bits dst k tmp := by
    obtain ⟨-, v, -, rfl⟩ := (evexImmShift_next_iff ..).mp h
    exact ⟨_, rfl⟩
  simp only [List.forall_mem_cons]
  exact ⟨fun h => ⟨.w, rfl, hvar .w h⟩, fun h => ⟨.d, rfl, hvar .d h⟩, fun h => ⟨.q, rfl, hvar .q h⟩,
    fun h => ⟨.w, rfl, himm (e := .w) ((exec_evexImmW ..).symm.trans h)⟩,
    fun h => ⟨.d, rfl, himm (e := .d) ((exec_evexImmD ..).symm.trans h)⟩,
    fun h => ⟨.q, rfl, himm (e := .q) ((exec_evexImmQ ..).symm.trans h)⟩, List.forall_mem_nil _⟩

/-- Settles O20. -/
theorem allZeroMask : Obligations.AllZeroMask := by
  intro s t l dst src k cnt d imm haaa p hp hmask hexec
  obtain ⟨e, hbits, tmp, rfl⟩ := exists_writeMasked_of_exec_next s t l dst src k cnt d imm p hp hexec
  rw [hbits] at hmask
  refine toNat_writeMasked_of_inactive (fun j hj => ?_) dst tmp
  simp [State.active, haaa, bit, hmask j hj]

section AllOnes

variable {s : State} {l : VLen} {e : Elem} {k k' : Masking} (h : ∀ j, j < l.bits / e.bits → s.active k j = true)
  (h' : ∀ j, j < l.bits / e.bits → s.active k' j = true)
include h h'

/-- Two maskings that write every element give a variable-count form the same outcome. -/
theorem evexShift_of_active (f : Form) (dst src : VReg) (cnt : RegMem VReg) :
    evexShift l.bits e.bits f dst k src cnt s = evexShift l.bits e.bits f dst k' src cnt s := by
  simp only [evexShift, writeMasked_of_active h, writeMasked_of_active h']

/-- The same of an immediate form whose sources read the same. -/
theorem evexImmShift_of_active (f : Form) (dst : VReg) {source source' : State → Except Fault (BitVec l.bits)}
    (hs : source s = source' s) (imm : Byte) :
    evexImmShift l.bits e.bits f dst k source imm s = evexImmShift l.bits e.bits f dst k' source' imm s := by
  simp only [evexImmShift, hs, writeMasked_of_active h, writeMasked_of_active h']

end AllOnes

/-- Settles O21: every element is written with either masking, so the writes and the bytes that are read are the same. -/
theorem allOnesMaskIsNoMask : Obligations.AllOnesMaskIsNoMask := by
  intro s l dst src k cnt d imm nomask
  have hones {n : Nat} (h : ∀ j, j < n → (s.kr k.aaa).getLsbD j = true) : ∀ j, j < n → s.active k j = true :=
    fun j hj => by simp [State.active, bit, h j hj]
  have hnone {n : Nat} : ∀ j, j < n → s.active nomask j = true := fun _ _ => rfl
  refine ⟨fun e h => ?_, fun h => ?_, fun h => ?_, fun h => ?_⟩
  · rw [exec_evexRm, exec_evexRm, evexShift_of_active (hones h) hnone]
  · rw [exec_evexImmW, exec_evexImmW, evexImmShift_of_active (hones h) hnone _ _ rfl]
  · rw [exec_evexImmD, exec_evexImmD]
    exact evexImmShift_of_active (hones h) hnone _ _ (dataSource_of_active (hones h) hnone d) imm
  · rw [exec_evexImmQ, exec_evexImmQ]
    exact evexImmShift_of_active (hones h) hnone _ _ (dataSource_of_active (hones h) hnone d) imm

/-! ## Variable and immediate counts (40_shift_core.md R133 to R135) -/

section CountKind

variable (s : State) (l : VLen) (e : Elem) (c c' : CountKind)

theorem formFault_mmx_congr : s.formFault (.mmx e c) = s.formFault (.mmx e c') := rfl

theorem formFault_sse_congr : s.formFault (.sse e c) = s.formFault (.sse e c') := rfl

theorem formFault_vex_congr : s.formFault (.vex l e c) = s.formFault (.vex l e c') := by cases l <;> rfl

theorem formFault_evex_congr : s.formFault (.evex l e c) = s.formFault (.evex l e c') := by cases l <;> cases e <;> rfl

end CountKind

/-- Two forms that are ready alike, with operands that are read and give the same write, have the same outcome. -/
theorem withOperand_ok_congr {α β : Type} {s : State} {f f' : Form} {a : α} {b : β} {body : α → State} {body' : β → State}
    (hf : s.formFault f = s.formFault f') (hb : body a = body' b) :
    s.withOperand f (.ok a) body = s.withOperand f' (.ok b) body' := by
  simp only [State.withOperand, hf, hb]

/-- Settles O22: the two forms are ready alike, read their operands without a fault, and shift by the one count. -/
theorem variableCountAgreesWithImmediate : Obligations.VariableCountAgreesWithImmediate := by
  intro s e l wide mdst mcnt dst src cnt k imm
  refine ⟨fun h => ?_, fun h => ?_⟩
  · rw [exec_mmxRm, exec_mmxImm]
    exact withOperand_ok_congr (formFault_mmx_congr ..) (by rw [h, immCount])
  · have hcount : countOf (s.v cnt) = immCount imm := (countOf_eq _).trans h
    refine ⟨?_, ?_, ?_, ?_, ?_⟩
    · rw [exec_sseRm, exec_sseImm]
      exact withOperand_ok_congr (formFault_sse_congr ..) (by rw [hcount])
    · rw [exec_vexRm, exec_vexImm]
      exact withOperand_ok_congr (formFault_vex_congr ..) (by rw [hcount])
    · rw [exec_evexRm, exec_evexImmW]
      exact withOperand_ok_congr (formFault_evex_congr ..) (by rw [hcount])
    · rw [exec_evexRm, exec_evexImmD]
      exact withOperand_ok_congr (formFault_evex_congr ..) (by rw [hcount])
    · rw [exec_evexRm, exec_evexImmQ]
      exact withOperand_ok_congr (formFault_evex_congr ..) (by rw [hcount])

end Sys2Proof.Machine
end

section
/-! SUPPORT. What the MMX forms do when they complete (41_mmx.md R150 to R155). -/

namespace Sys2Proof.Machine

/-- `t` is what an MMX form leaves of `s` after a shift of `MM[dst]` by the count `c` with element width N: the frame
(10_state.md R44), the new pc (R35), the x87 state (R42) and every element of the destination. -/
def State.MmxShiftsTo (s : State) (N : Nat) (dst : MmReg) (c : Nat) (t : State) : Prop :=
  s.keepsBut t (.mm dst) ∧ t.pc = s.pc + BitVec.ofNat 64 s.ilen ∧
    t.x87 = { Config.x87Effect s.x87 dst with pending := s.x87.pending } ∧
    ∀ j, j < 64 / N → natLane N (t.mmr dst) j = natShift N (natLane N (s.mmr dst) j) c

@[simp] theorem State.x87_writeMmx (s : State) (dst : MmReg) (a : Qword) :
    (s.writeMmx dst a).x87 = { Config.x87Effect s.x87 dst with pending := s.x87.pending } := rfl

/-- The write of an MMX form, with the packed shift of the old destination as its value. -/
theorem State.mmxShiftsTo_writeMmx (s : State) (N : Nat) (dst : MmReg) (c : Nat) :
    s.MmxShiftsTo N dst c (s.writeMmx dst (psll 64 N (s.mmr dst) c)) := by
  refine ⟨s.keepsBut_writeMmx dst _, s.pc_writeMmx dst _, s.x87_writeMmx dst _, fun j hj => ?_⟩
  rw [State.mmr_writeMmx, natLane_psll _ _ hj]

/-- A form that is ready, and whose count is read, completes. -/
theorem mmxShift_completes {N : Nat} {f : Form} {dst : MmReg} {count : State → Except Fault Nat} {s : State} {c : Nat}
    (hready : s.ready f = true) (hcount : count s = .ok c) :
    ∃ t, mmxShift N f dst count s = .next t ∧ s.MmxShiftsTo N dst c t :=
  ⟨_, (mmxShift_next_iff ..).mpr ⟨hready, c, hcount, rfl⟩, s.mmxShiftsTo_writeMmx N dst c⟩

theorem mmxRm_completes (e : Elem) {dst : MmReg} {cnt : RegMem MmReg} {s : State}
    (hready : s.ready (mmxRm e dst cnt).form = true) (hread : s.mmxCountReadable cnt = true) :
    ∃ t, exec (mmxRm e dst cnt) s = .next t ∧ s.MmxShiftsTo e.bits dst (s.mmxCountNat cnt) t := by
  rw [exec_mmxRm]
  exact mmxShift_completes (form_mmxRm .. ▸ hready) ((s.mmxCount_ok_iff cnt _).mpr ⟨hread, rfl⟩)

theorem mmxImm_completes (e : Elem) {dst : MmReg} {imm : Byte} {s : State}
    (hready : s.ready (mmxImm e dst imm).form = true) :
    ∃ t, exec (mmxImm e dst imm) s = .next t ∧ s.MmxShiftsTo e.bits dst imm.toNat t := by
  rw [exec_mmxImm]
  exact mmxShift_completes (form_mmxImm .. ▸ hready) rfl

/-- Settles O8: a ready form whose count is readable completes, at each element width. -/
theorem mmxVariableCountForms : Obligations.MmxVariableCountForms := by
  intro s dst cnt
  simp only [List.forall_mem_cons]
  exact ⟨mmxRm_completes .w, mmxRm_completes .d, mmxRm_completes .q, List.forall_mem_nil _⟩

/-- Settles O9: the immediate is always read, so a ready form completes, at each element width. -/
theorem mmxImmediateForms : Obligations.MmxImmediateForms := by
  intro s dst imm
  simp only [List.forall_mem_cons]
  exact ⟨mmxImm_completes .w, mmxImm_completes .d, mmxImm_completes .q, List.forall_mem_nil _⟩

end Sys2Proof.Machine
end

section
/-! SUPPORT. What the SSE 128-bit forms do when they complete (42_sse128.md R160 to R165). -/

namespace Sys2Proof.Machine

/-- `t` is what an SSE128 form leaves of `s` after a shift of the low 128 bits of `V[dst]` by the count `c` with element
width N: the frame (10_state.md R44), the new pc (R35), the bits above 127 (40_shift_core.md R141) and every element. -/
def State.SseShiftsTo (s : State) (N : Nat) (dst : VReg) (c : Nat) (t : State) : Prop :=
  s.keepsBut t (.v dst) ∧ t.pc = s.pc + BitVec.ofNat 64 s.ilen ∧
    (t.v dst).toNat / 2 ^ 128 = (s.v dst).toNat / 2 ^ 128 ∧
    ∀ j, j < 128 / N → natLane N (t.v dst) j = natShift N (natLane N (s.v dst) j) c

/-- The write of an SSE128 form, with the packed shift of the low half of the old destination as its value. -/
theorem State.sseShiftsTo_writeSse (s : State) (N : Nat) (dst : VReg) (c : Nat) :
    s.SseShiftsTo N dst c (s.writeSse dst (psll 128 N ((s.v dst).setWidth 128) c)) := by
  refine ⟨s.keepsBut_writeSse dst _, s.pc_writeSse dst _, s.upper_writeSse dst _, fun j hj => ?_⟩
  have hfits : (j + 1) * N ≤ 128 := le_trans (Nat.mul_le_mul_right N hj) (div_mul_le 128 N)
  rw [s.natLane_writeSse dst _ hfits, natLane_psll _ _ hj, natLane_setWidth _ hfits]

/-- A form that is ready, and whose count is read, completes. -/
theorem sseShift_completes {N : Nat} {f : Form} {dst : VReg} {count : State → Except Fault Nat} {s : State} {c : Nat}
    (hready : s.ready f = true) (hcount : count s = .ok c) :
    ∃ t, sseShift N f dst count s = .next t ∧ s.SseShiftsTo N dst c t :=
  ⟨_, (sseShift_next_iff ..).mpr ⟨hready, c, hcount, rfl⟩, s.sseShiftsTo_writeSse N dst c⟩

theorem sseRm_completes (e : Elem) {dst : VReg} {cnt : RegMem VReg} {s : State}
    (hready : s.ready (sseRm e dst cnt).form = true) (hread : s.sseCountReadable cnt = true) :
    ∃ t, exec (sseRm e dst cnt) s = .next t ∧ s.SseShiftsTo e.bits dst (s.xmmCountNat cnt) t := by
  rw [exec_sseRm]
  exact sseShift_completes (form_sseRm .. ▸ hready) ((s.sseCount_ok_iff cnt _).mpr ⟨hread, rfl⟩)

theorem sseImm_completes (e : Elem) {dst : VReg} {imm : Byte} {s : State}
    (hready : s.ready (sseImm e dst imm).form = true) :
    ∃ t, exec (sseImm e dst imm) s = .next t ∧ s.SseShiftsTo e.bits dst imm.toNat t := by
  rw [exec_sseImm]
  exact sseShift_completes (form_sseImm .. ▸ hready) rfl

/-- Settles O10: a ready form whose count is readable completes, at each element width. -/
theorem sseVariableCountForms : Obligations.SseVariableCountForms := by
  intro s dst cnt
  simp only [List.forall_mem_cons]
  exact ⟨sseRm_completes .w, sseRm_completes .d, sseRm_completes .q, List.forall_mem_nil _⟩

/-- Settles O11: the immediate is always read, so a ready form completes, at each element width. -/
theorem sseImmediateForms : Obligations.SseImmediateForms := by
  intro s dst imm
  simp only [List.forall_mem_cons]
  exact ⟨sseImm_completes .w, sseImm_completes .d, sseImm_completes .q, List.forall_mem_nil _⟩

end Sys2Proof.Machine
end

section
/-! SUPPORT. What the VEX forms do when they complete (43_vex.md R170 to R181). -/

namespace Sys2Proof.Machine

/-- `t` is what a VEX form with operands of W bits leaves of `s` after a shift of the low W bits of `V[src]` by the count
`c` with element width N: the frame (10_state.md R44), the new pc (R35), zeros above the operand (40_shift_core.md R142)
and every element. -/
def State.VexShiftsTo (s : State) (W N : Nat) (dst src : VReg) (c : Nat) (t : State) : Prop :=
  s.keepsBut t (.v dst) ∧ t.pc = s.pc + BitVec.ofNat 64 s.ilen ∧ (t.v dst).toNat < 2 ^ W ∧
    ∀ j, j < W / N → natLane N (t.v dst) j = natShift N (natLane N (s.v src) j) c

/-- The write of a VEX form, with the packed shift of the low bits of the source register as its value. -/
theorem State.vexShiftsTo_writeZeroUpper (s : State) {W : Nat} (hW : W ≤ 512) (N : Nat) (dst src : VReg) (c : Nat) :
    s.VexShiftsTo W N dst src c (s.writeZeroUpper dst (psll W N ((s.v src).setWidth W) c)) := by
  refine ⟨s.keepsBut_writeZeroUpper dst _, s.pc_writeZeroUpper dst _, s.upper_writeZeroUpper hW dst _, fun j hj => ?_⟩
  have hfits : (j + 1) * N ≤ W := le_trans (Nat.mul_le_mul_right N hj) (div_mul_le W N)
  rw [s.natLane_writeZeroUpper hW dst _ hfits, natLane_psll _ _ hj, natLane_setWidth _ hfits]

/-- A form that is ready, and whose count is read, completes. -/
theorem vexShift_completes {l : VLen} {N : Nat} {f : Form} {dst src : VReg} {count : State → Except Fault Nat} {s : State}
    {c : Nat} (hready : s.ready f = true) (hcount : count s = .ok c) :
    ∃ t, vexShift l.bits N f dst src count s = .next t ∧ s.VexShiftsTo l.bits N dst src c t :=
  ⟨_, (vexShift_next_iff ..).mpr ⟨hready, c, hcount, rfl⟩, s.vexShiftsTo_writeZeroUpper l.bits_le N dst src c⟩

theorem vexRm_completes (wide : Bool) (e : Elem) {dst src : VReg} {cnt : RegMem VReg} {s : State}
    (hready : s.ready (vexRm wide e dst src cnt).form = true) (hread : s.xmmCountReadable cnt = true) :
    ∃ t, exec (vexRm wide e dst src cnt) s = .next t ∧
      s.VexShiftsTo (vexLen wide).bits e.bits dst src (s.xmmCountNat cnt) t := by
  rw [exec_vexRm]
  exact vexShift_completes (form_vexRm .. ▸ hready) ((s.xmmCount_ok_iff cnt _).mpr ⟨hread, rfl⟩)

theorem vexImm_completes (wide : Bool) (e : Elem) {dst src : VReg} {imm : Byte} {s : State}
    (hready : s.ready (vexImm wide e dst src imm).form = true) :
    ∃ t, exec (vexImm wide e dst src imm) s = .next t ∧
      s.VexShiftsTo (vexLen wide).bits e.bits dst src imm.toNat t := by
  rw [exec_vexImm]
  exact vexShift_completes (form_vexImm .. ▸ hready) rfl

/-- Settles O12: a ready form whose count is readable completes, at each vector length and element width. -/
theorem vexVariableCountForms : Obligations.VexVariableCountForms := by
  intro s dst src cnt
  simp only [List.forall_mem_cons]
  exact ⟨vexRm_completes false .w, vexRm_completes false .d, vexRm_completes false .q,
    vexRm_completes true .w, vexRm_completes true .d, vexRm_completes true .q, List.forall_mem_nil _⟩

/-- Settles O13: the immediate is always read, so a ready form completes, at each vector length and element width. -/
theorem vexImmediateForms : Obligations.VexImmediateForms := by
  intro s dst src imm
  simp only [List.forall_mem_cons]
  exact ⟨vexImm_completes false .w, vexImm_completes false .d, vexImm_completes false .q,
    vexImm_completes true .w, vexImm_completes true .d, vexImm_completes true .q, List.forall_mem_nil _⟩

end Sys2Proof.Machine
end


section
/-! SUPPORT. What the EVEX variable-count forms do when they complete (44_evex_var.md R190 to R198). -/

namespace Sys2Proof.Machine

/-- `t` is what an EVEX form with vector length VL leaves of `s` after a masked shift of the elements `x` of its data source
by the count `c` with element width N: the frame (10_state.md R44), the new pc (R35), zeros above the vector length
(40_shift_core.md R142) and what write-masking makes of every shifted element (R140). -/
def State.EvexShiftsTo (s : State) (VL N : Nat) (dst : VReg) (k : Masking) (x : Nat → Nat) (c : Nat) (t : State) : Prop :=
  s.keepsBut t (.v dst) ∧ t.pc = s.pc + BitVec.ofNat 64 s.ilen ∧ (t.v dst).toNat < 2 ^ VL ∧
    ∀ j, j < VL / N → natLane N (t.v dst) j = s.maskedLane N dst k j (natShift N (x j) c)

/-- The masked write of a packed shift, with `x` the elements of the shifted value. -/
theorem State.evexShiftsTo_writeMasked (s : State) {VL N : Nat} (hVL : VL ≤ 512) (dst : VReg) (k : Masking)
    {v : BitVec VL} {x : Nat → Nat} (hx : ∀ j, j < VL / N → natLane N v j = x j) (c : Nat) :
    s.EvexShiftsTo VL N dst k x c (s.writeMasked VL N dst k (psll VL N v c)) := by
  refine ⟨s.keepsBut_writeMasked VL N dst k _, s.pc_writeMasked VL N dst k _, s.upper_writeMasked hVL dst k _,
    fun j hj => ?_⟩
  rw [s.natLane_writeMasked hVL dst k _ hj, natLane_psll _ _ hj, hx j hj]

/-- The elements that fit in the low W bits of a value are those of the value. -/
theorem natLane_setWidth_of_lt {V W N : Nat} (v : BitVec V) {j : Nat} (hj : j < W / N) :
    natLane N (v.setWidth W) j = natLane N v j :=
  natLane_setWidth v (le_trans (Nat.mul_le_mul_right N hj) (div_mul_le W N))

/-- A form that is ready, and whose count is read, completes. -/
theorem evexShift_completes {l : VLen} {N : Nat} {f : Form} {dst src : VReg} {k : Masking} {cnt : RegMem VReg} {s : State}
    {c : Nat} (hready : s.ready f = true) (hcount : s.xmmCount .any cnt = .ok c) :
    ∃ t, evexShift l.bits N f dst k src cnt s = .next t ∧ s.EvexShiftsTo l.bits N dst k (natLane N (s.v src)) c t :=
  ⟨_, (evexShift_next_iff ..).mpr ⟨hready, c, hcount, rfl⟩,
    s.evexShiftsTo_writeMasked l.bits_le dst k (fun _ => natLane_setWidth_of_lt (s.v src)) c⟩

/-- The masking is no part of the hypotheses: the count is read whole whatever the mask (20_memory.md R54). -/
theorem evexRm_completes (l : VLen) (e : Elem) {dst src : VReg} {k : Masking} {cnt : RegMem VReg} {s : State}
    (hready : s.ready (evexRm l e dst k src cnt).form = true) (hread : s.xmmCountReadable cnt = true) :
    ∃ t, exec (evexRm l e dst k src cnt) s = .next t ∧
      s.EvexShiftsTo l.bits e.bits dst k (natLane e.bits (s.v src)) (s.xmmCountNat cnt) t := by
  rw [exec_evexRm]
  exact evexShift_completes (form_evexRm .. ▸ hready) ((s.xmmCount_ok_iff cnt _).mpr ⟨hread, rfl⟩)

/-- Settles O14: a ready form whose count is readable completes, at each element width. -/
theorem evex128VariableCountForms : Obligations.Evex128VariableCountForms := by
  intro s dst src k cnt
  simp only [List.forall_mem_cons]
  exact ⟨evexRm_completes .v128 .w, evexRm_completes .v128 .d, evexRm_completes .v128 .q, List.forall_mem_nil _⟩

/-- Settles O15: a ready form whose count is readable completes, at each element width. -/
theorem evex256VariableCountForms : Obligations.Evex256VariableCountForms := by
  intro s dst src k cnt
  simp only [List.forall_mem_cons]
  exact ⟨evexRm_completes .v256 .w, evexRm_completes .v256 .d, evexRm_completes .v256 .q, List.forall_mem_nil _⟩

/-- At vector length 512 nothing is above the operand, so the statement has no bound on the destination. -/
theorem evexRm512_completes (e : Elem) {dst src : VReg} {k : Masking} {cnt : RegMem VReg} {s : State}
    (hready : s.ready (evexRm .v512 e dst k src cnt).form = true) (hread : s.xmmCountReadable cnt = true) :
    ∃ t, exec (evexRm .v512 e dst k src cnt) s = .next t ∧ s.keepsBut t (.v dst) ∧
      t.pc = s.pc + BitVec.ofNat 64 s.ilen ∧ ∀ j, j < 512 / e.bits → natLane e.bits (t.v dst) j =
        s.maskedLane e.bits dst k j (natShift e.bits (natLane e.bits (s.v src) j) (s.xmmCountNat cnt)) := by
  obtain ⟨t, hexec, hkeeps, hpc, -, helems⟩ := evexRm_completes .v512 e hready hread
  exact ⟨t, hexec, hkeeps, hpc, helems⟩

/-- Settles O16: a ready form whose count is readable completes, at each element width. -/
theorem evex512VariableCountForms : Obligations.Evex512VariableCountForms := by
  intro s dst src k cnt
  simp only [List.forall_mem_cons]
  exact ⟨evexRm512_completes .w, evexRm512_completes .d, evexRm512_completes .q, List.forall_mem_nil _⟩

end Sys2Proof.Machine
end

section
/-! SUPPORT. What the EVEX immediate forms do when they complete (45_evex_imm.md R205 to R213). -/

namespace Sys2Proof

theorem VLen.bits_mod_eight (l : VLen) : l.bits % 8 = 0 := by cases l <;> rfl

theorem Elem.bits_mod_eight (e : Elem) : e.bits % 8 = 0 := by cases e <;> rfl

theorem Elem.bits_pos (e : Elem) : 0 < e.bits := by cases e <;> decide

end Sys2Proof

namespace Sys2Proof.Machine

/-- Write-masking keeps the unmasked result of a written element alone (40_shift_core.md R140), so the elements of the data
source that no written element needs may be any. -/
theorem State.EvexShiftsTo.of_active {s t : State} {VL N : Nat} {dst : VReg} {k : Masking} {x y : Nat → Nat} {c : Nat}
    (h : s.EvexShiftsTo VL N dst k x c t) (hxy : ∀ j, j < VL / N → s.active k j = true → x j = y j) :
    s.EvexShiftsTo VL N dst k y c t := by
  obtain ⟨hkeeps, hpc, hupper, helems⟩ := h
  refine ⟨hkeeps, hpc, hupper, fun j hj => (helems j hj).trans ?_⟩
  by_cases ha : s.active k j = true
  · rw [hxy j hj ha]
  · simp only [State.maskedLane, if_neg ha]

/-- A form that is ready, and whose data source is read, completes; `x` are the elements of the source that are written. -/
theorem evexImmShift_completes {l : VLen} {N : Nat} {f : Form} {dst : VReg} {k : Masking}
    {source : State → Except Fault (BitVec l.bits)} {imm : Byte} {s : State} {v : BitVec l.bits} {x : Nat → Nat}
    (hready : s.ready f = true) (hsource : source s = .ok v)
    (hx : ∀ j, j < l.bits / N → s.active k j = true → natLane N v j = x j) :
    ∃ t, evexImmShift l.bits N f dst k source imm s = .next t ∧ s.EvexShiftsTo l.bits N dst k x imm.toNat t :=
  ⟨_, (evexImmShift_next_iff ..).mpr ⟨hready, v, hsource, rfl⟩,
    (s.evexShiftsTo_writeMasked l.bits_le dst k (fun _ _ => rfl) (immCount imm)).of_active hx⟩

/-- VPSLLW reads its whole source, so every element of it is the operand's (45_evex_imm.md R205 to R207). -/
theorem evexImmW_completes (l : VLen) {dst : VReg} {k : Masking} {src : RegMem VReg} {imm : Byte} {s : State}
    (hready : s.ready (evexImmW l dst k src imm).form = true) (hread : s.wholeReadable l.bits src = true) :
    ∃ t, exec (evexImmW l dst k src imm) s = .next t ∧
      s.EvexShiftsTo l.bits Elem.w.bits dst k (s.srcLane Elem.w.bits src.toData) imm.toNat t := by
  obtain ⟨v, hv⟩ := (s.wholeSource_ok_iff l.bits src).mpr hread
  rw [exec_evexImmW]
  exact evexImmShift_completes (form_evexImmW .. ▸ hready) hv
    fun _ hj _ => State.lane_wholeSource hv Elem.w.bits_mod_eight l.bits_mod_eight hj

/-- The class of VPSLLD and VPSLLQ: the written elements of a readable data source are the operand's
(45_evex_imm.md R208 to R213). -/
theorem evexImmShift_dataSource_completes {l : VLen} {e : Elem} {f : Form} {dst : VReg} {k : Masking} {src : DataSrc}
    {imm : Byte} {s : State} (hready : s.ready f = true) (hread : s.dataReadable l.bits e.bits k src = true) :
    ∃ t, evexImmShift l.bits e.bits f dst k (fun s => s.dataSource l.bits e.bits k src) imm s = .next t ∧
      s.EvexShiftsTo l.bits e.bits dst k (s.srcLane e.bits src) imm.toNat t := by
  obtain ⟨v, hv⟩ := (s.dataSource_ok_iff l.bits e.bits k src).mpr hread
  exact evexImmShift_completes hready hv
    fun _ hj ha => State.lane_dataSource hv e.bits_mod_eight e.bits_pos l.bits_mod_eight hj ha

theorem evexImmD_completes (l : VLen) {dst : VReg} {k : Masking} {src : DataSrc} {imm : Byte} {s : State}
    (hready : s.ready (evexImmD l dst k src imm).form = true)
    (hread : s.dataReadable l.bits Elem.d.bits k src = true) :
    ∃ t, exec (evexImmD l dst k src imm) s = .next t ∧
      s.EvexShiftsTo l.bits Elem.d.bits dst k (s.srcLane Elem.d.bits src) imm.toNat t := by
  rw [exec_evexImmD]
  exact evexImmShift_dataSource_completes (form_evexImmD .. ▸ hready) hread

theorem evexImmQ_completes (l : VLen) {dst : VReg} {k : Masking} {src : DataSrc} {imm : Byte} {s : State}
    (hready : s.ready (evexImmQ l dst k src imm).form = true)
    (hread : s.dataReadable l.bits Elem.q.bits k src = true) :
    ∃ t, exec (evexImmQ l dst k src imm) s = .next t ∧
      s.EvexShiftsTo l.bits Elem.q.bits dst k (s.srcLane Elem.q.bits src) imm.toNat t := by
  rw [exec_evexImmQ]
  exact evexImmShift_dataSource_completes (form_evexImmQ .. ▸ hready) hread

/-- Settles O17: a ready form whose whole source is readable completes, at each vector length. -/
theorem evexImmediateWordForms : Obligations.EvexImmediateWordForms := by
  intro s dst k src imm
  simp only [List.forall_mem_cons]
  exact ⟨evexImmW_completes .v128, evexImmW_completes .v256, evexImmW_completes .v512, List.forall_mem_nil _⟩

/-- Settles O18: a ready form whose data source is readable where it has to be completes, at each vector length and element
width. -/
theorem evexImmediateDoubleAndQuadForms : Obligations.EvexImmediateDoubleAndQuadForms := by
  intro s dst k src imm
  simp only [List.forall_mem_cons]
  exact ⟨evexImmD_completes .v128, evexImmD_completes .v256, evexImmD_completes .v512,
    evexImmQ_completes .v128, evexImmQ_completes .v256, evexImmQ_completes .v512, List.forall_mem_nil _⟩

end Sys2Proof.Machine
end

section
/-! SUPPORT. The faults of an instruction: those of the checks before the operands and those of the memory operand
(60_exceptions.md R221 to R229), and the runs that end in none. -/

namespace Sys2Proof.Machine

/-! ## The faults of a memory operand (60_exceptions.md R229 item 6) -/

/-- The faults that instruction `i` can raise on its memory operand `m`. -/
inductive State.OperandFault (s : State) (i : Instr) (m : MemOp) : Fault → Prop
  | ss : State.OperandFault s i m (.ss s.pc)
  | gp : State.OperandFault s i m (.gp s.pc)
  | page {o : Nat} {c : BitVec 32} (ho : s.accesses i m o) (hc : s.translatePage (s.linear m o) = some c) :
      State.OperandFault s i m (.pf (s.pageFaultCode c) (s.linear m o) s.pc)
  | ac (hf : isMmx i.form = true) : State.OperandFault s i m (.ac s.pc)
  | noMemory (a : Qword) : State.OperandFault s i m (.noMemory a s.pc)

section Reads

variable {s : State} {i : Instr} {m : MemOp} {x : Fault}

/-- The checks of bytes that the instruction accesses; only an MMX form has the alignment rule of #AC. -/
theorem operandFault_of_accessFault {rule : AlignRule} {offs : List Nat} (h : s.accessFault m rule offs = some x)
    (hacc : ∀ o ∈ offs, s.accesses i m o) (hmmx : rule = .mmx8 → isMmx i.form = true) : s.OperandFault i m x := by
  rcases State.accessFault_cases h with ⟨rfl, -⟩ | ⟨rfl, -⟩ | ⟨rfl, -⟩ | ⟨o, ho, c, hc, rfl⟩ | ⟨rfl, hrule, -⟩ |
    ⟨o, -, -, rfl⟩
  · exact .gp
  · rw [segmentFault_eq]
    split
    · exact .ss
    · exact .gp
  · exact .gp
  · exact .page (hacc o ho) hc
  · exact .ac (hmmx hrule)
  · exact .noMemory _

theorem operandFault_of_stuck {n : Nat} (h : s.stuck m n = some x) : s.OperandFault i m x := by
  obtain ⟨o, -, -, rfl⟩ := State.stuck_cases h
  exact .noMemory _

theorem operandFault_of_memRead {W n : Nat} {rule : AlignRule} (h : s.memRead W m rule n = .error x)
    (hw : i.wholeOperand? = some (m, n)) (hmmx : rule = .mmx8 → isMmx i.form = true) : s.OperandFault i m x :=
  operandFault_of_accessFault ((State.memRead_error_iff ..).mp h) (fun _ ho => .inl ⟨n, hw, List.mem_range.mp ho⟩) hmmx

theorem operandFault_of_mmxCount {cnt : RegMem MmReg} (h : s.mmxCount cnt = .error x)
    (hw : i.wholeOperand? = cnt.memOp?.map (·, 8)) (hmmx : isMmx i.form = true) :
    ∃ m, cnt.memOp? = some m ∧ s.OperandFault i m x := by
  cases cnt with
  | reg r => cases h
  | mem m => exact ⟨m, rfl, operandFault_of_memRead ((map_eq_error_iff ..).mp h) hw fun _ => hmmx⟩

theorem operandFault_of_xmmCount {rule : AlignRule} {cnt : RegMem VReg} (h : s.xmmCount rule cnt = .error x)
    (hw : i.wholeOperand? = cnt.memOp?.map (·, 16)) (hrule : rule ≠ .mmx8) :
    ∃ m, cnt.memOp? = some m ∧ s.OperandFault i m x := by
  cases cnt with
  | reg r => cases h
  | mem m => exact ⟨m, rfl, operandFault_of_memRead ((map_eq_error_iff ..).mp h) hw fun h8 => absurd h8 hrule⟩

theorem operandFault_of_wholeSource {VL : Nat} {src : RegMem VReg} (h : s.wholeSource VL src = .error x)
    (hw : i.wholeOperand? = src.memOp?.map (·, VL / 8)) : ∃ m, src.memOp? = some m ∧ s.OperandFault i m x := by
  cases src with
  | reg r => cases h
  | mem m => exact ⟨m, rfl, operandFault_of_memRead h hw nofun⟩

/-- A row F operand is checked on the bytes that masking does not suppress, and is then stuck or not. -/
theorem operandFault_of_dataSource {VL N : Nat} {k : Masking} {d : DataSrc} (h : s.dataSource VL N k d = .error x)
    (hmem : ∀ m, d = .mem m → ∀ o ∈ s.fullOffsets VL N k, s.accesses i m o)
    (hbcst : ∀ m, d = .bcst m → ∀ o ∈ s.bcstOffsets VL N k, s.accesses i m o) :
    ∃ m, d.memOp? = some m ∧ s.OperandFault i m x := by
  cases d with
  | reg r => cases h
  | mem m =>
    refine ⟨m, rfl, ?_⟩
    rcases Option.or_eq_some_iff.mp ((State.dataSource_mem_error_iff ..).mp h) with h | ⟨-, h⟩
    · exact operandFault_of_accessFault h (hmem m rfl) nofun
    · exact operandFault_of_stuck h
  | bcst m =>
    refine ⟨m, rfl, ?_⟩
    rcases Option.or_eq_some_iff.mp ((State.dataSource_bcst_error_iff ..).mp h) with h | ⟨-, h⟩
    · exact operandFault_of_accessFault h (hbcst m rfl) nofun
    · exact operandFault_of_stuck h

end Reads

/-! ## The faults of an instruction -/

/-- Every instruction makes the checks of its form and then reads one operand, whose errors are those of a memory operand. -/
theorem exec_eq_withOperand (i : Instr) (s : State) :
    ∃ (α : Type) (operand : Except Fault α) (body : α → State), exec i s = s.withOperand i.form operand body ∧
      ∀ x, operand = .error x → ∃ m, i.memOp? = some m ∧ s.OperandFault i m x := by
  induction i using Instr.byClass with
  | mmxRm e dst cnt =>
    rw [exec_mmxRm, form_mmxRm, memOp?_mmxRm]
    exact ⟨_, _, _, rfl, fun x h => operandFault_of_mmxCount h (wholeOperand?_mmxRm ..) (by rw [form_mmxRm]; rfl)⟩
  | mmxImm e dst imm =>
    rw [exec_mmxImm, form_mmxImm]
    exact ⟨_, _, _, rfl, nofun⟩
  | sseRm e dst cnt =>
    rw [exec_sseRm, form_sseRm, memOp?_sseRm]
    exact ⟨_, _, _, rfl, fun x h => operandFault_of_xmmCount h (wholeOperand?_sseRm ..) nofun⟩
  | sseImm e dst imm =>
    rw [exec_sseImm, form_sseImm]
    exact ⟨_, _, _, rfl, nofun⟩
  | vexRm l e dst src cnt =>
    rw [exec_vexRm, form_vexRm, memOp?_vexRm]
    exact ⟨_, _, _, rfl, fun x h => operandFault_of_xmmCount h (wholeOperand?_vexRm ..) nofun⟩
  | vexImm l e dst src imm =>
    rw [exec_vexImm, form_vexImm]
    exact ⟨_, _, _, rfl, nofun⟩
  | evexRm l e dst msk src cnt =>
    rw [exec_evexRm, form_evexRm, memOp?_evexRm]
    exact ⟨_, _, _, rfl, fun x h => operandFault_of_xmmCount h (wholeOperand?_evexRm ..) nofun⟩
  | evexImmW l dst msk src imm =>
    rw [exec_evexImmW, form_evexImmW, memOp?_evexImmW]
    exact ⟨_, _, _, rfl, fun x h => operandFault_of_wholeSource h (wholeOperand?_evexImmW ..)⟩
  | evexImmD l dst msk d imm =>
    rw [exec_evexImmD, form_evexImmD, memOp?_evexImmD]
    refine ⟨_, _, _, rfl, fun x h => operandFault_of_dataSource h ?_ ?_⟩
    · rintro m rfl o ho
      exact .inr ⟨l, dst, msk, imm, .inl ⟨rfl, ho⟩⟩
    · rintro m rfl o ho
      exact .inr ⟨l, dst, msk, imm, .inr (.inl ⟨rfl, ho⟩)⟩
  | evexImmQ l dst msk d imm =>
    rw [exec_evexImmQ, form_evexImmQ, memOp?_evexImmQ]
    refine ⟨_, _, _, rfl, fun x h => operandFault_of_dataSource h ?_ ?_⟩
    · rintro m rfl o ho
      exact .inr ⟨l, dst, msk, imm, .inr (.inr (.inl ⟨rfl, ho⟩))⟩
    · rintro m rfl o ho
      exact .inr ⟨l, dst, msk, imm, .inr (.inr (.inr ⟨rfl, ho⟩))⟩

/-- A fault is one of the checks before the operands, or one of the memory operand. -/
theorem exec_fault_cases {i : Instr} {s : State} {x : Fault} (h : exec i s = .fault x) :
    s.formFault i.form = some x ∨ ∃ m, i.memOp? = some m ∧ s.OperandFault i m x := by
  obtain ⟨α, operand, body, hexec, herr⟩ := exec_eq_withOperand i s
  rcases (State.withOperand_fault_iff ..).mp (hexec ▸ h) with hform | ⟨-, hop⟩
  · exact .inl hform
  · exact .inr (herr x hop)

/-- The checks before the operands decide the outcome when one of them fails. -/
theorem exec_of_formFault {i : Instr} {s : State} {x : Fault} (h : s.formFault i.form = some x) :
    exec i s = .fault x := by
  obtain ⟨α, operand, body, hexec, -⟩ := exec_eq_withOperand i s
  exact hexec ▸ (State.withOperand_fault_iff ..).mpr (.inl h)

/-- #UD, #NM and #MF are not faults of a memory operand. -/
theorem exec_fault_iff_formFault {i : Instr} {s : State} {x : Fault} (hx : x = .ud s.pc ∨ x = .nm s.pc ∨ x = .mf s.pc) :
    exec i s = .fault x ↔ s.formFault i.form = some x := by
  refine ⟨fun h => ?_, exec_of_formFault⟩
  rcases exec_fault_cases h with hform | ⟨m, -, hop⟩
  · exact hform
  · cases hop <;> simp at hx

/-! ## The checks before the operands, one by one -/

theorem formFault_ud_iff (s : State) (f : Form) : s.formFault f = some (.ud s.pc) ↔ s.avail f = false := by
  refine ⟨fun h => ?_, fun h => by simp [State.formFault, h, State.raise]⟩
  rcases State.formFault_cases h with ⟨-, ha⟩ | ⟨hx, -⟩ | ⟨hx, -⟩
  · exact ha
  · cases hx
  · cases hx

theorem formFault_nm_iff (s : State) (f : Form) :
    s.formFault f = some (.nm s.pc) ↔ s.avail f = true ∧ s.deviceReady = false := by
  refine ⟨fun h => ?_, fun ⟨ha, hd⟩ => by simp [State.formFault, ha, hd, State.raise]⟩
  rcases State.formFault_cases h with ⟨hx, -⟩ | ⟨-, hnm⟩ | ⟨hx, -⟩
  · cases hx
  · exact hnm
  · cases hx

theorem formFault_mf_iff (s : State) (f : Form) : s.formFault f = some (.mf s.pc) ↔
    s.avail f = true ∧ s.deviceReady = true ∧ isMmx f = true ∧ s.x87.pending = true := by
  refine ⟨fun h => ?_, fun ⟨ha, hd, hm, hp⟩ => by simp [State.formFault, ha, hd, hm, hp, State.raise]⟩
  rcases State.formFault_cases h with ⟨hx, -⟩ | ⟨hx, -⟩ | ⟨-, hmf⟩
  · cases hx
  · cases hx
  · exact hmf

/-- Settles O24: the three faults are those of the checks before the operands, each with its own condition. -/
theorem checksBeforeTheOperands : Obligations.ChecksBeforeTheOperands := fun i s =>
  ⟨(exec_fault_iff_formFault (.inl rfl)).trans (formFault_ud_iff s i.form),
    (exec_fault_iff_formFault (.inr (.inl rfl))).trans (formFault_nm_iff s i.form),
    (exec_fault_iff_formFault (.inr (.inr rfl))).trans (formFault_mf_iff s i.form)⟩

/-! ## What a page fault reports (60_exceptions.md R228) -/

/-- The code of a data read, bit by bit: W/R (1) and I/D (4) clear, U/S (2) from the privilege level, the others Translate's. -/
theorem getLsbD_pageFaultCode (s : State) (c : BitVec 32) {b : Nat} (hb : b < 32) : (s.pageFaultCode c).getLsbD b =
    (c.getLsbD b && !decide (b = 1 ∨ b = 2 ∨ b = 4) || decide (b = 2) && decide (s.ctrl.cpl = 3#2)) := by
  have hcleared : ∀ b, b < 32 → (0x16#32).getLsbD b = decide (b = 1 ∨ b = 2 ∨ b = 4) := by decide
  have huser : ∀ b, b < 32 → (0x4#32).getLsbD b = decide (b = 2) := by decide
  rw [State.pageFaultCode, BitVec.getLsbD_or, BitVec.getLsbD_and, BitVec.getLsbD_not, hcleared b hb]
  by_cases hcpl : s.ctrl.cpl = 3#2
  · rw [if_pos (beq_iff_eq.mpr hcpl), huser b hb]
    simp [hcpl, hb]
  · simp [hcpl, hb]

/-- Settles O28: of the faults of a memory operand #PF is that of an accessed byte, with the code of Translate for it. -/
theorem pageFaultReport : Obligations.PageFaultReport := by
  intro i s code a pc h
  rcases exec_fault_cases h with hform | ⟨m, hm, hop⟩
  · rcases State.formFault_cases hform with ⟨hx, -⟩ | ⟨hx, -⟩ | ⟨hx, -⟩ <;> cases hx
  · cases hop with
    | @page o c ho hc =>
      refine ⟨rfl, m, o, c, hm, ho, rfl, hc, ?_, ?_, ?_, fun b hb h1 h2 h4 => ?_⟩
      · rw [getLsbD_pageFaultCode s c (by decide)]
        simp
      · rw [getLsbD_pageFaultCode s c (by decide)]
        simp
      · rw [getLsbD_pageFaultCode s c (by decide)]
        simp
      · rw [getLsbD_pageFaultCode s c hb]
        simp [h1, h2, h4]

/-! ## The kinds of faults (60_exceptions.md R222 to R228) -/

/-- #MF and #AC are faults of the MMX forms alone (60_exceptions.md R224). -/
theorem isMmx_of_exec_mf_or_ac {i : Instr} {s : State} {x : Fault} (h : exec i s = .fault x)
    (hx : x = .mf s.pc ∨ x = .ac s.pc) : isMmx i.form = true := by
  rcases exec_fault_cases h with hform | ⟨m, -, hop⟩
  · rcases State.formFault_cases hform with ⟨rfl, -⟩ | ⟨rfl, -⟩ | ⟨-, -, -, hmmx, -⟩
    · simp at hx
    · simp at hx
    · exact hmmx
  · cases hop with
    | ac hmmx => exact hmmx
    | ss | gp | page | noMemory => simp at hx

/-- Without a memory operand only the checks before the operands can fail. -/
theorem exec_fault_of_no_memOp {i : Instr} {s : State} {x : Fault} (h : exec i s = .fault x) (hm : i.memOp? = none) :
    x = .ud s.pc ∨ x = .nm s.pc ∨ x = .mf s.pc := by
  rcases exec_fault_cases h with hform | ⟨m, hm', -⟩
  · rcases State.formFault_cases hform with ⟨rfl, -⟩ | ⟨rfl, -⟩ | ⟨rfl, -⟩
    exacts [.inl rfl, .inr (.inl rfl), .inr (.inr rfl)]
  · rw [hm] at hm'
    cases hm'

/-- Settles O31, from the two sources of a fault. -/
theorem faultKinds : Obligations.FaultKinds := fun i s =>
  ⟨exec_ne_refused i s, fun _ h => ⟨pc_of_exec_fault h, isMmx_of_exec_mf_or_ac h, exec_fault_of_no_memOp h⟩⟩

/-! ## Runs (60_exceptions.md R224) -/

theorem run_succ_of_next {s t : State} (h : step s = .next t) (k : Nat) :
    Host.Core.run Sys2Proof.core (k + 1) s = Host.Core.run Sys2Proof.core k t := by
  have hcore : Sys2Proof.core.step s = .next t := h
  simp only [Host.Core.run, hcore]

theorem run_succ_of_fault {s : State} {x : Fault} (h : step s = .fault x) (k : Nat) :
    Host.Core.run Sys2Proof.core (k + 1) s = .fault x := by
  have hcore : Sys2Proof.core.step s = .fault x := h
  simp only [Host.Core.run, hcore]

theorem run_succ_of_refused {s : State} {r : Refusal} (h : step s = .refused r) (k : Nat) :
    Host.Core.run Sys2Proof.core (k + 1) s = .refused r := by
  have hcore : Sys2Proof.core.step s = .refused r := h
  simp only [Host.Core.run, hcore]

/-- When every step keeps `P`, and none from a state with `P` ends in the fault `x`, no run from such a state does. -/
theorem run_ne_fault {P : State → Prop} {x : Fault} (hkeep : ∀ s t, P s → step s = .next t → P t)
    (hstep : ∀ s, P s → step s ≠ .fault x) (k : Nat) : ∀ s, P s → Host.Core.run Sys2Proof.core k s ≠ .fault x := by
  induction k with
  | zero => exact fun _ _ => nofun
  | succ k ih =>
    intro s hs
    cases h : step s with
    | next t =>
      rw [run_succ_of_next h]
      exact ih t (hkeep s t hs h)
    | fault y =>
      rw [run_succ_of_fault h]
      exact h ▸ hstep s hs
    | refused r =>
      rw [run_succ_of_refused h]
      nofun

theorem pending_of_step_next {s t : State} (h : step s = .next t) : t.x87.pending = s.x87.pending := by
  obtain ⟨i, n, -, -, hw⟩ := step_next h
  obtain ⟨-, -, -, -, -, -, -, -, hpending⟩ := hw.rest
  exact hpending

/-- A step ends in #MF only with an x87 exception pending: the decoder never raises it. -/
theorem pending_of_step_mf {s : State} {pc : Qword} (h : step s = .fault (.mf pc)) : s.x87.pending = true := by
  obtain rfl : pc = s.pc := pc_of_step_fault h
  cases hd : decode s.cfg.mode s.fetchBytes with
  | error r =>
    rw [step, hd] at h
    cases r <;> cases h
  | ok p =>
    obtain ⟨i, n⟩ := p
    obtain ⟨-, -, -, hpending⟩ := (checksBeforeTheOperands i (s.latch n)).2.2.mp (step_of_decode hd ▸ h)
    exact hpending

/-- Settles O43: every step keeps X87Pending, and without it no step ends in #MF. -/
theorem noMfInAnyRun : Obligations.NoMfInAnyRun := fun k s _ =>
  run_ne_fault (P := fun s => s.x87.pending = false) (fun _ _ hs h => (pending_of_step_next h).trans hs)
    (fun _ hs h => by simp [pending_of_step_mf h] at hs) k s

end Sys2Proof.Machine
end

section
/-! SUPPORT. The privilege level: what an instruction that completes at one level reads at another (60_exceptions.md R236). -/

namespace Sys2Proof.Machine

/-- The state at another privilege level. -/
def State.atLevel (s : State) (c : BitVec 2) : State := { s with ctrl := { s.ctrl with cpl := c } }

/-- Translate answers alike at both levels for the bytes of the memory operand, if there is one. -/
def State.TranslatesAlike (s : State) (c : BitVec 2) (op : Option MemOp) : Prop :=
  ∀ m, op = some m → ∀ o, o < 64 → (s.atLevel c).translate (s.linear m o) = s.translate (s.linear m o)

/-! ## What the level does not reach -/

section Unreached

variable (s : State) (c : BitVec 2) (m : MemOp)

@[simp] theorem ready_atLevel (f : Form) : (s.atLevel c).ready f = s.ready f := rfl
@[simp] theorem mem_atLevel : (s.atLevel c).mem = s.mem := rfl
@[simp] theorem linear_atLevel (o : Nat) : (s.atLevel c).linear m o = s.linear m o := rfl
@[simp] theorem segmentOk_atLevel (o : Nat) : (s.atLevel c).segmentOk m o = s.segmentOk m o := rfl
@[simp] theorem fullOffsets_atLevel (VL N : Nat) (k : Masking) :
    (s.atLevel c).fullOffsets VL N k = s.fullOffsets VL N k := rfl
@[simp] theorem bcstOffsets_atLevel (VL N : Nat) (k : Masking) :
    (s.atLevel c).bcstOffsets VL N k = s.bcstOffsets VL N k := rfl

end Unreached

/-! ## The checks and reads of a memory operand -/

section Operand

variable {s : State} {c : BitVec 2} {m : MemOp}
  (htr : ∀ o, o < 64 → (s.atLevel c).translate (s.linear m o) = s.translate (s.linear m o))
include htr

/-- Of the checks of one byte only Translate sees the level. -/
theorem byteReadable_atLevel {o : Nat} (ho : o < 64) : (s.atLevel c).byteReadable m o = s.byteReadable m o := by
  simp only [State.byteReadable, segmentOk_atLevel, linear_atLevel, mem_atLevel, htr o ho]

theorem outsideMem_atLevel {o : Nat} (ho : o < 64) : (s.atLevel c).outsideMem m o = s.outsideMem m o := by
  simp only [State.outsideMem, segmentOk_atLevel, linear_atLevel, mem_atLevel, htr o ho]

/-- Checks that pass at one level pass at the other, where alignment checking is not in force for an MMX operand. -/
theorem accessFault_atLevel {rule : AlignRule} {offs : List Nat} (h : s.accessFault m rule offs = none)
    (hoffs : ∀ o ∈ offs, o < 64) (hac : rule = .mmx8 → (s.atLevel c).alignCheck = false) :
    (s.atLevel c).accessFault m rule offs = none := by
  obtain ⟨hbytes, hsse, -⟩ := (State.accessFault_eq_none_iff ..).mp h
  refine (State.accessFault_eq_none_iff ..).mpr ⟨fun o ho => ?_, hsse, fun hr ha => ?_⟩
  · rw [byteReadable_atLevel htr (hoffs o ho)]
    exact hbytes o ho
  · rw [hac hr] at ha
    cases ha

theorem stuck_atLevel {n : Nat} (h : s.stuck m n = none) (hn : n ≤ 64) : (s.atLevel c).stuck m n = none := by
  rw [State.stuck_eq_none_iff] at h ⊢
  intro o ho
  rw [outsideMem_atLevel htr (lt_of_lt_of_le ho hn)]
  exact h o ho

theorem memRead_atLevel {W n : Nat} {rule : AlignRule} {v : BitVec W} (h : s.memRead W m rule n = .ok v) (hn : n ≤ 64)
    (hac : rule = .mmx8 → (s.atLevel c).alignCheck = false) : (s.atLevel c).memRead W m rule n = .ok v := by
  obtain ⟨hchecks, hv⟩ := (State.memRead_ok_iff ..).mp h
  have hoffs : ∀ o ∈ List.range n, o < 64 := fun o ho => lt_of_lt_of_le (List.mem_range.mp ho) hn
  exact (State.memRead_ok_iff ..).mpr ⟨accessFault_atLevel htr hchecks hoffs hac, hv⟩

/-- The same of the checks of a row F operand. -/
theorem rowFault_atLevel {offs : List Nat} {n : Nat} (h : (s.accessFault m .any offs).or (s.stuck m n) = none)
    (hoffs : ∀ o ∈ offs, o < 64) (hn : n ≤ 64) :
    ((s.atLevel c).accessFault m .any offs).or ((s.atLevel c).stuck m n) = none := by
  obtain ⟨hchecks, hstuck⟩ := Option.or_eq_none_iff.mp h
  exact Option.or_eq_none_iff.mpr ⟨accessFault_atLevel htr hchecks hoffs nofun, stuck_atLevel htr hstuck hn⟩

end Operand

/-! ## The operands of an instruction -/

theorem map_eq_ok_iff {ε α β : Type} (f : α → β) (r : Except ε α) (b : β) :
    r.map f = .ok b ↔ ∃ a, r = .ok a ∧ f a = b := by
  cases r <;> simp [Except.map]

section Reads

variable {s : State} {c : BitVec 2}

theorem mmxCount_atLevel {cnt : RegMem MmReg} (htr : s.TranslatesAlike c cnt.memOp?)
    (hac : (s.atLevel c).alignCheck = false ∨ cnt.memOp? = none) {n : Nat} (h : s.mmxCount cnt = .ok n) :
    (s.atLevel c).mmxCount cnt = .ok n := by
  cases cnt with
  | reg r => exact h
  | mem m =>
    obtain ⟨v, hv, hn⟩ := (map_eq_ok_iff ..).mp h
    have halign : (s.atLevel c).alignCheck = false := hac.resolve_right nofun
    exact (map_eq_ok_iff ..).mpr ⟨v, memRead_atLevel (htr m rfl) hv (by decide) fun _ => halign, hn⟩

theorem xmmCount_atLevel {rule : AlignRule} {cnt : RegMem VReg} (hrule : rule ≠ .mmx8)
    (htr : s.TranslatesAlike c cnt.memOp?) {n : Nat} (h : s.xmmCount rule cnt = .ok n) :
    (s.atLevel c).xmmCount rule cnt = .ok n := by
  cases cnt with
  | reg r => exact h
  | mem m =>
    obtain ⟨v, hv, hn⟩ := (map_eq_ok_iff ..).mp h
    exact (map_eq_ok_iff ..).mpr ⟨v, memRead_atLevel (htr m rfl) hv (by decide) fun h8 => absurd h8 hrule, hn⟩

/-- No operand is longer than the 64 bytes of a 512-bit vector. -/
theorem vlen_bytes_le (l : VLen) : l.bits / 8 ≤ 64 := by cases l <;> decide

theorem wholeSource_atLevel {l : VLen} {src : RegMem VReg} (htr : s.TranslatesAlike c src.memOp?) {v : BitVec l.bits}
    (h : s.wholeSource l.bits src = .ok v) : (s.atLevel c).wholeSource l.bits src = .ok v := by
  cases src with
  | reg r => exact h
  | mem m => exact memRead_atLevel (htr m rfl) h (vlen_bytes_le l) nofun

/-- A byte of an operand that masking does not suppress is one of its bytes. -/
theorem lt_of_mem_fullOffsets {VL N o : Nat} {k : Masking} (h : o ∈ s.fullOffsets VL N k) : o < VL / 8 :=
  List.mem_range.mp (List.mem_filter.mp h).1

theorem lt_of_mem_bcstOffsets {VL N o : Nat} {k : Masking} (h : o ∈ s.bcstOffsets VL N k) : o < N / 8 := by
  unfold State.bcstOffsets at h
  split at h
  · exact List.mem_range.mp h
  · cases h

theorem dataSource_atLevel {l : VLen} {e : Elem} {k : Masking} {d : DataSrc} (htr : s.TranslatesAlike c d.memOp?)
    {v : BitVec l.bits} (h : s.dataSource l.bits e.bits k d = .ok v) :
    (s.atLevel c).dataSource l.bits e.bits k d = .ok v := by
  have he : e.bits / 8 ≤ 64 := by cases e <;> decide
  cases d with
  | reg r => exact h
  | mem m =>
    cases hchecks : (s.accessFault m .any (s.fullOffsets l.bits e.bits k)).or (s.stuck m (l.bits / 8)) with
    | some x => cases h.symm.trans ((State.dataSource_mem_error_iff ..).mpr hchecks)
    | none =>
      have hchecks' := rowFault_atLevel (htr m rfl) hchecks
        (fun o ho => lt_of_lt_of_le (lt_of_mem_fullOffsets ho) (vlen_bytes_le l)) (vlen_bytes_le l)
      simp only [State.dataSource, hchecks] at h
      simp only [State.dataSource, fullOffsets_atLevel, hchecks']
      exact h
  | bcst m =>
    cases hchecks : (s.accessFault m .any (s.bcstOffsets l.bits e.bits k)).or (s.stuck m (e.bits / 8)) with
    | some x => cases h.symm.trans ((State.dataSource_bcst_error_iff ..).mpr hchecks)
    | none =>
      have hchecks' := rowFault_atLevel (htr m rfl) hchecks
        (fun o ho => lt_of_lt_of_le (lt_of_mem_bcstOffsets ho) he) he
      simp only [State.dataSource, hchecks] at h
      simp only [State.dataSource, bcstOffsets_atLevel, hchecks']
      exact h

end Reads

/-! ## An instruction at another level -/

/-- A form completes alike at another level when its operand is read alike and its write does not see the level. -/
theorem withOperand_atLevel {α : Type} {s t : State} {c : BitVec 2} {f : Form} {operand operand' : Except Fault α}
    {body body' : α → State} (h : s.withOperand f operand body = .next t)
    (hop : ∀ {a}, operand = .ok a → operand' = .ok a) (hbody : ∀ a, body' a = (body a).atLevel c) :
    (s.atLevel c).withOperand f operand' body' = .next (t.atLevel c) := by
  obtain ⟨hready, a, ha, rfl⟩ := (State.withOperand_next_iff ..).mp h
  exact (State.withOperand_next_iff ..).mpr ⟨by rwa [ready_atLevel], a, hop ha, (hbody a).symm⟩

/-- An instruction that completes, and whose operand the level does not reach, completes alike at another level. -/
theorem exec_atLevel {i : Instr} {s t : State} {c : BitVec 2} (h : exec i s = .next t)
    (hac : (s.atLevel c).alignCheck = false ∨ isMmx i.form = false ∨ i.memOp? = none)
    (htr : s.TranslatesAlike c i.memOp?) : exec i (s.atLevel c) = .next (t.atLevel c) := by
  induction i using Instr.byClass with
  | mmxRm e dst cnt =>
    rw [exec_mmxRm] at h ⊢
    rw [form_mmxRm, memOp?_mmxRm] at hac
    exact withOperand_atLevel h (mmxCount_atLevel (memOp?_mmxRm .. ▸ htr) (hac.imp_right fun ho => ho.resolve_left nofun))
      fun _ => rfl
  | mmxImm e dst imm =>
    rw [exec_mmxImm] at h ⊢
    exact withOperand_atLevel h id fun _ => rfl
  | sseRm e dst cnt =>
    rw [exec_sseRm] at h ⊢
    exact withOperand_atLevel h (xmmCount_atLevel (rule := .sse16) nofun (memOp?_sseRm .. ▸ htr)) fun _ => rfl
  | sseImm e dst imm =>
    rw [exec_sseImm] at h ⊢
    exact withOperand_atLevel h id fun _ => rfl
  | vexRm l e dst src cnt =>
    rw [exec_vexRm] at h ⊢
    exact withOperand_atLevel h (xmmCount_atLevel (rule := .any) nofun (memOp?_vexRm .. ▸ htr)) fun _ => rfl
  | vexImm l e dst src imm =>
    rw [exec_vexImm] at h ⊢
    exact withOperand_atLevel h id fun _ => rfl
  | evexRm l e dst msk src cnt =>
    rw [exec_evexRm] at h ⊢
    exact withOperand_atLevel h (xmmCount_atLevel (rule := .any) nofun (memOp?_evexRm .. ▸ htr)) fun _ => rfl
  | evexImmW l dst msk src imm =>
    rw [exec_evexImmW] at h ⊢
    exact withOperand_atLevel h (wholeSource_atLevel (memOp?_evexImmW .. ▸ htr)) fun _ => rfl
  | evexImmD l dst msk d imm =>
    rw [exec_evexImmD] at h ⊢
    exact withOperand_atLevel h (dataSource_atLevel (memOp?_evexImmD .. ▸ htr)) fun _ => rfl
  | evexImmQ l dst msk d imm =>
    rw [exec_evexImmQ] at h ⊢
    exact withOperand_atLevel h (dataSource_atLevel (memOp?_evexImmQ .. ▸ htr)) fun _ => rfl

/-- Settles O36: the level reaches an instruction through Translate and alignment checking alone. -/
theorem privilegeLevelDoesNotMatter : Obligations.PrivilegeLevelDoesNotMatter :=
  fun _ _ _ _ h hac htr => exec_atLevel h hac htr

end Sys2Proof.Machine
end

section
/-! SUPPORT. The control values a processor has out of reset: which forms they let run (70_reset_and_hazards.md R262). -/

namespace Sys2Proof.Machine

/-- Without a memory operand the checks before the operands are the only ones: a form that passes them completes. -/
theorem exec_completes_of_no_memOp {i : Instr} {s : State} (hready : s.ready i.form = true) (hm : i.memOp? = none) :
    ∃ t, exec i s = .next t := by
  by_contra hnot
  obtain ⟨x, hx⟩ := exists_fault_of_not_next hnot
  rcases exec_fault_cases hx with hform | ⟨m, hm', -⟩
  · rw [(State.formFault_eq_none_iff ..).mpr hready] at hform
    cases hform
  · rw [hm] at hm'
    cases hm'

/-- With CR0.EM = CR0.TS = 0 an MMX form that is present, with no x87 exception pending, is ready. -/
theorem ready_mmx_of_cr0 {s : State} (hem : s.ctrl.cr0.getLsbD 2 = false) (hts : s.ctrl.cr0.getLsbD 3 = false)
    (hfeature : s.cfg.features.mmx = true) (hpending : s.x87.pending = false) (e : Elem) (c : CountKind) :
    s.ready (.mmx e c) = true := by
  have havail : s.avail (.mmx e c) = true := (avail_mmx_iff s e c).mpr ⟨hfeature, hem⟩
  have hdevice : s.deviceReady = true := by simpa [State.deviceReady, bit] using hts
  simp [State.ready, havail, hdevice, hpending]

/-- With CR4.OSFXSR = CR4.OSXSAVE = 0 the MMX forms alone are available. -/
theorem avail_eq_false_of_cr4 {s : State} (hosfxsr : s.ctrl.cr4.getLsbD 9 = false)
    (hosxsave : s.ctrl.cr4.getLsbD 18 = false) {f : Form} (hf : isMmx f = false) : s.avail f = false := by
  rw [Bool.eq_false_iff]
  intro havail
  cases f with
  | mmx e c => cases hf
  | sse e c =>
    obtain ⟨-, -, hbit⟩ := (avail_sse_iff s e c).mp havail
    cases hosfxsr.symm.trans hbit
  | vex l e c =>
    obtain ⟨-, -, hbit, -⟩ := (avail_vex_iff s l e c).mp havail
    cases hosxsave.symm.trans hbit
  | evex l e c =>
    obtain ⟨-, -, ⟨hbit, -⟩, -⟩ := (avail_evex_iff s l e c).mp havail
    cases hosxsave.symm.trans hbit

/-- Settles O44: CR0 leaves EM and TS clear, which is what the MMX forms need, and CR4 leaves OSFXSR and OSXSAVE clear,
one of which every other form needs. (That the mode is real is a second reason, for the VEX and EVEX forms alone.) -/
theorem controlValuesOutOfReset : Obligations.ControlValuesOutOfReset := by
  refine fun s i hcr0 hcr4 _ => ⟨fun hmmx hfeature hpending => ?_, fun hmmx => ?_⟩
  · have hready : s.ready i.form = true := by
      cases hf : i.form with
      | mmx e c => exact ready_mmx_of_cr0 (by simp [hcr0]) (by simp [hcr0]) hfeature hpending e c
      | sse | vex | evex =>
        rw [hf] at hmmx
        cases hmmx
    exact ⟨hready, exec_completes_of_no_memOp hready⟩
  · have havail : s.avail i.form = false := avail_eq_false_of_cr4 (by simp [hcr4]) (by simp [hcr4]) hmmx
    exact exec_of_formFault ((formFault_ud_iff ..).mpr havail)

end Sys2Proof.Machine
end
